-- ==== Sys2Proof/Word.lean ====
section
/-! DEFINITION. The machine's word types: an 8-bit byte (a header, channel or pixel byte) and a 32-bit word (a register).
BHPA has no other data width that software sees as a word but the 64-bit POS and the 96-bit POUT word. -/

namespace Sys2Proof

/-- A byte of a byte channel, of the header buffer or of a pixel lane (00_scope.md R12). -/
abbrev Byte := BitVec 8

/-- A register of the register space, REG_DATA_BITS = 32 (00_scope.md R8, 20_memory.md R49). -/
abbrev Word := BitVec 32

end Sys2Proof
end

