-- ==== Sys2Proof/Config.lean ====
section
/-! DEFINITION. The implementation parameters of 00_scope.md R8. All but one are fixed by R8 and R9 and are constants here.
CLRUSED_ENC is the one named parameter the spec leaves OPEN (92_eei_decisions.md D21): it is a field of `Config`, which
`State` carries and no step writes, so that a statement about every state is a statement about every value of it. -/

namespace Sys2Proof.Config

/-- HDR_BYTES: the 14-byte file header and the 40-byte info header (R8, R64). -/
def hdrBytes : Nat := 54

/-- IH_SIZE_REQ: the only accepted info-header size (R8). -/
def ihSizeReq : Nat := 40

/-- BPP_REQ: the only accepted bits per pixel (R8). -/
def bppReq : Nat := 24

/-- COMPR_REQ: the only accepted compression method (R8). -/
def comprReq : Nat := 0

/-- SIG_REQ, first byte: ASCII B (R8, R68). -/
def sig0 : Byte := 0x42

/-- SIG_REQ, second byte: ASCII M (R8, R68). -/
def sig1 : Byte := 0x4D

/-- ROW_ALIGN: each stored row is a multiple of this many bytes (R8). -/
def rowAlign : Nat := 4

/-- ENC_PIXEL_OFFSET: the pixel-data offset a generated header holds (R8). -/
def encPixelOffset : Nat := 54

/-- ENC_PLANES: the color planes a generated header holds (R8). -/
def encPlanes : Nat := 1

/-- ENC_RES: the resolution a generated header holds in both axes (R8). -/
def encRes : Nat := 100

/-- The default of CLRUSED_ENC (R8, D21). -/
def clrUsedDefault : Word := 255

end Sys2Proof.Config

namespace Sys2Proof

/-- What is fixed when the block is built and may differ between builds: CLRUSED_ENC, the value ENCODE writes to header
bytes 46-49 (R8, R9, R135). -/
structure Config where
  clrUsedEnc : Word := Config.clrUsedDefault
  deriving DecidableEq, Repr

end Sys2Proof
end

