-- ==== Sys2Proof/Syntax.lean ====
section
/-! DEFINITION. The instructions of BHPA (00_scope.md R2: commands, register accesses and channel transfers), one
constructor per row of spec/opcode_table.json, and the raw forms in which the host presents them to the block: a request on
the register bus, a 9-bit IN word, a 32-bit PIN word, or a take on POUT or BOUT (30_encoding.md R63). -/

namespace Sys2Proof

/-- One constructor per row of the opcode table.  A command carries the 28 bits of its CMD word that the block ignores
(R71, R82), IN.EOS its ignored DATA bits and PIN its ignored bits 31:24, so that an instruction is exactly its word. -/
inductive Instr where
  | nop       (ignored : BitVec 28)
  | parse     (ignored : BitVec 28)
  | decodeCmd (ignored : BitVec 28)
  | encodeCmd (ignored : BitVec 28)
  | rsvd4     (ignored : BitVec 28)
  | rsvd5     (ignored : BitVec 28)
  | rsvd6     (ignored : BitVec 28)
  | rsvd7     (ignored : BitVec 28)
  | rsvd8     (ignored : BitVec 28)
  | rsvd9     (ignored : BitVec 28)
  | rsvdA     (ignored : BitVec 28)
  | rsvdB     (ignored : BitVec 28)
  | rsvdC     (ignored : BitVec 28)
  | rsvdD     (ignored : BitVec 28)
  | rsvdE     (ignored : BitVec 28)
  | abort     (ignored : BitVec 28)
  | regWr     (addr : Byte) (data : Word)
  | regRd     (addr : Byte)
  | inByte    (data : Byte)
  | inEos     (ignored : Byte)
  | pin       (ignored b g r : Byte)
  | poutTake
  | boutTake
  deriving DecidableEq, Repr

/-- A request on the register bus (20_memory.md R49): an 8-bit byte address and, for a write, a 32-bit value. -/
inductive BusReq where
  | write (addr : Byte) (data : Word)
  | read  (addr : Byte)
  deriving DecidableEq, Repr

/-- What the host presents to the block in one step: a bus request, an IN word, a PIN word, or a take, which carries no
host data (20_memory.md R47, R61). -/
inductive Wire where
  | bus (req : BusReq)
  | inWord (word : BitVec 9)
  | pinWord (word : Word)
  | poutTake
  | boutTake
  deriving DecidableEq, Repr

/-- The formats of the words a host sends, as spec/opcode_table.json names them (REG write, REG read, IN, PIN) and the two
takes, which have none. -/
inductive Format where
  | regWrite | regRead | inWord | pinWord | poutTake | boutTake
  deriving DecidableEq, Repr

end Sys2Proof
end

