-- ==== Sys2Proof/WellFormed.lean ====
section
/-! DEFINITION. The well-formed instructions: those that are the reading of some host word.  A write to CTRL (address 0x00)
is a command (30_encoding.md R80, 43_control.md R147), so REG.WR with address 0x00 is another spelling of a command and not
well formed; every other operand value is (R82: no word BHPA can receive is illegal). -/

namespace Sys2Proof

/-- The address of CTRL (20_memory.md R50). -/
def ctrlAddr : Byte := 0x00

/-- An instruction is well formed unless it spells a command as a register write. -/
def Instr.wellFormed : Instr → Bool
  | .regWr a _ => a != ctrlAddr
  | .nop _ | .parse _ | .decodeCmd _ | .encodeCmd _ => true
  | .rsvd4 _ | .rsvd5 _ | .rsvd6 _ | .rsvd7 _ | .rsvd8 _ | .rsvd9 _ => true
  | .rsvdA _ | .rsvdB _ | .rsvdC _ | .rsvdD _ | .rsvdE _ | .abort _ => true
  | .regRd _ | .inByte _ | .inEos _ | .pin _ _ _ _ | .poutTake | .boutTake => true

end Sys2Proof
end

