-- ==== Sys2Proof/Decode.lean ====
section
/-! DEFINITION. The decoder, total on every word the host can present (30_encoding.md R79, R80, R82, R87), the encoder
written from the same tables, the byte layout of a host word and the host's table-word entry point.  Rejections of the byte
layer are by name (`Reject`); a `Wire` is never rejected, because no word BHPA can receive is illegal (R82). -/

namespace Sys2Proof

/-! ### Byte order helpers (20_memory.md R43) -/

/-- The `n` bytes of `v`, least significant first (R43; `put` of 42_encoder.md R135). -/
def leBytes (n v : Nat) : List Byte := (List.range n).map fun m => BitVec.ofNat 8 (v >>> (8 * m))

/-- The number whose bytes, least significant first, are `bs` (R43). -/
def leNat : List Byte → Nat
  | [] => 0
  | b :: bs => b.toNat + 256 * leNat bs

/-! ### CMD words (R71, R79, R80) -/

/-- CMD[3:0], the opcode field. -/
def cmdOp (v : Word) : BitVec 4 := v.extractLsb' 0 4

/-- CMD[31:4], the bits the block ignores. -/
def cmdIgnored (v : Word) : BitVec 28 := v.extractLsb' 4 28

/-- The command a value written to CTRL issues (R79, R80).  The four opcode bits name all sixteen rows. -/
def decodeCmdWord (v : Word) : Instr :=
  let x := cmdIgnored v
  match (cmdOp v).toNat with
  | 0x0 => .nop x
  | 0x1 => .parse x
  | 0x2 => .decodeCmd x
  | 0x3 => .encodeCmd x
  | 0x4 => .rsvd4 x
  | 0x5 => .rsvd5 x
  | 0x6 => .rsvd6 x
  | 0x7 => .rsvd7 x
  | 0x8 => .rsvd8 x
  | 0x9 => .rsvd9 x
  | 0xA => .rsvdA x
  | 0xB => .rsvdB x
  | 0xC => .rsvdC x
  | 0xD => .rsvdD x
  | 0xE => .rsvdE x
  | _ => .abort x

/-- A CTRL write is a command; any other bus request is REG.WR or REG.RD (43_control.md R154, R155). -/
def decodeBus : BusReq → Instr
  | .write a v => if a = ctrlAddr then decodeCmdWord v else .regWr a v
  | .read a => .regRd a

/-- An IN word: bit 8 is EOS, bits 7:0 are DATA (R75). -/
def decodeIn (w : BitVec 9) : Instr :=
  if w.getLsbD 8 then .inEos (w.extractLsb' 0 8) else .inByte (w.extractLsb' 0 8)

/-- A PIN word: R = bits 7:0, G = bits 15:8, B = bits 23:16, bits 31:24 ignored (R77). -/
def decodePin (w : Word) : Instr :=
  .pin (w.extractLsb' 24 8) (w.extractLsb' 16 8) (w.extractLsb' 8 8) (w.extractLsb' 0 8)

/-- The instruction the host's word is. -/
def decode : Wire → Instr
  | .bus r => decodeBus r
  | .inWord w => decodeIn w
  | .pinWord w => decodePin w
  | .poutTake => .poutTake
  | .boutTake => .boutTake

/-! ### The encoder -/

/-- The CMD word of an opcode and its ignored bits, as a write to CTRL. -/
def encodeCmdWord (x : BitVec 28) (op : BitVec 4) : Wire := .bus (.write ctrlAddr (x ++ op))

/-- The word the host presents for an instruction (R75, R77, R79, R80). -/
def encode : Instr → Wire
  | .nop x => encodeCmdWord x 0x0
  | .parse x => encodeCmdWord x 0x1
  | .decodeCmd x => encodeCmdWord x 0x2
  | .encodeCmd x => encodeCmdWord x 0x3
  | .rsvd4 x => encodeCmdWord x 0x4
  | .rsvd5 x => encodeCmdWord x 0x5
  | .rsvd6 x => encodeCmdWord x 0x6
  | .rsvd7 x => encodeCmdWord x 0x7
  | .rsvd8 x => encodeCmdWord x 0x8
  | .rsvd9 x => encodeCmdWord x 0x9
  | .rsvdA x => encodeCmdWord x 0xA
  | .rsvdB x => encodeCmdWord x 0xB
  | .rsvdC x => encodeCmdWord x 0xC
  | .rsvdD x => encodeCmdWord x 0xD
  | .rsvdE x => encodeCmdWord x 0xE
  | .abort x => encodeCmdWord x 0xF
  | .regWr a v => .bus (.write a v)
  | .regRd a => .bus (.read a)
  | .inByte d => .inWord (0#1 ++ d)
  | .inEos d => .inWord (1#1 ++ d)
  | .pin x b g r => .pinWord (x ++ b ++ g ++ r)
  | .poutTake => .poutTake
  | .boutTake => .boutTake

/-! ### Bytes

The spec gives each word a width and no layout in bytes (the channels carry words, R63).  DESIGN CHOICE (log 5): a host word
is laid out in whole bytes, least significant first; a bus write is the value in bits 31:0 and the address in bits 39:32. -/

/-- Why a byte string is not a host word. -/
inductive Reject where
  /-- The byte string does not have the fixed length of its format (R87). -/
  | wrongLength
  /-- A bit above the format's width is set. -/
  | bitAboveFormat
  deriving DecidableEq, Repr

/-- How many bytes a word of a format takes. -/
def formatBytes : Format → Nat
  | .regWrite => 5
  | .regRead => 1
  | .inWord => 2
  | .pinWord => 4
  | .poutTake => 0
  | .boutTake => 0

/-- The host word a byte string is, total on every byte string and rejecting by name. -/
def wireOfBytes (f : Format) (bs : List Byte) : Except Reject Wire :=
  if bs.length ≠ formatBytes f then .error .wrongLength
  else
    let v := leNat bs
    match f with
    | .regWrite => .ok (.bus (.write (BitVec.ofNat 8 (v >>> 32)) (BitVec.ofNat 32 v)))
    | .regRead => .ok (.bus (.read (BitVec.ofNat 8 v)))
    | .inWord => if v < 512 then .ok (.inWord (BitVec.ofNat 9 v)) else .error .bitAboveFormat
    | .pinWord => .ok (.pinWord (BitVec.ofNat 32 v))
    | .poutTake => .ok .poutTake
    | .boutTake => .ok .boutTake

/-- The format and the bytes of a host word. -/
def bytesOfWire : Wire → Format × List Byte
  | .bus (.write a v) => (.regWrite, leBytes 5 (v.toNat + 2 ^ 32 * a.toNat))
  | .bus (.read a) => (.regRead, leBytes 1 a.toNat)
  | .inWord w => (.inWord, leBytes 2 w.toNat)
  | .pinWord w => (.pinWord, leBytes 4 w.toNat)
  | .poutTake => (.poutTake, [])
  | .boutTake => (.boutTake, [])

/-- Decoding a byte string: total, rejecting by name. -/
def decodeBytes (f : Format) (bs : List Byte) : Except Reject Instr := (wireOfBytes f bs).map decode

/-- The format and the bytes of an instruction's word. -/
def encodeBytes (i : Instr) : Format × List Byte := bytesOfWire (encode i)

/-! ### The opcode table's words

DESIGN CHOICE (log 4): a table word of 8, 32 or 40 bits is the value of a bus write (bits 31:0) with its address above it
(bits 39:32, so a CMD row's word is a write to CTRL); a table word of 16 bits is an IN word.  The rows the table gives no
fixed bits (REG.WR, REG.RD, PIN, POUT.TAKE, BOUT.TAKE) have formats of their own and are reached by `decode`. -/

/-- The format of a table word of `nbits` bits. -/
def tableFormat (nbits : Nat) : Option Format :=
  if nbits = 8 ∨ nbits = 32 ∨ nbits = 40 then some .regWrite
  else if nbits = 16 then some .inWord
  else none

/-- The host word a table word is: bits above `nbits` must be 0, and bits the format has above `nbits` are 0. -/
def tableWire (nbits w : Nat) : Option Wire :=
  match tableFormat nbits with
  | none => none
  | some f =>
    if w < 2 ^ nbits then
      match wireOfBytes f (leBytes (formatBytes f) w) with
      | .ok x => some x
      | .error _ => none
    else none

/-- The instruction the decoder reads from a table word. -/
def decodeTableWord (nbits w : Nat) : Option Instr := (tableWire nbits w).map decode

end Sys2Proof
end

