-- ==== Sys2Proof/Machine/State.lean ====
section
/-! DEFINITION. The state as plain data.  `Block` holds exactly the elements of 10_state.md R16, each at its width, with its
reset value; `Env` holds the host's side of the five interfaces as queues (what the host offers, in order, which step comes
next, and what the block has given the host); `State` is the two with the build's `Config`. -/

namespace Sys2Proof.Machine

/-- The sequencer's phases (R20).  Codes 11 to 15 are never entered and have no constructor. -/
inductive Phase where
  | idle | dHdr | dSkip | dPix | dPad | dDrain | eHdr | ePix | ePad | done | error
  deriving DecidableEq, Repr

/-- The error codes of ERR.CODE (30_encoding.md R74, 60_exceptions.md R161).  Codes 8 to 15 are never produced. -/
inductive ErrCode where
  | none | truncated | badSignature | unsupportedVariant | emptyImage | badCommand | tooLarge | aborted
  deriving DecidableEq, Repr

/-- The stages of ERR.STAGE (30_encoding.md R78). -/
inductive Stage where
  | none | header | pixel | command
  deriving DecidableEq, Repr

/-- A decoded pixel in the POUT holding register: the fields of the 96-bit word (30_encoding.md R76). -/
structure PoutWord where
  r : Byte
  g : Byte
  b : Byte
  last : Bool
  col : Word
  vrow : Word
  deriving DecidableEq, Repr

/-- The state elements of BHPA (10_state.md R16), in the order of its table. -/
structure Block where
  /-- HDR[0..53], the header buffer (R17). -/
  hdr : Vector Byte 54
  /-- ENC_W, the width for the next ENCODE (R18). -/
  encW : Word
  /-- ENC_H, the height for the next ENCODE (R18). -/
  encH : Word
  /-- OP, the opcode of the last command that started or changed the phase (R19). -/
  op : BitVec 4
  /-- phase, the state of the sequencer (R20). -/
  phase : Phase
  /-- GW, the latched width (R21). -/
  gw : Word
  /-- GH, the latched height (R21). -/
  gh : Word
  /-- ERR.CODE (R23). -/
  errCode : ErrCode
  /-- ERR.VCAUSE, one bit per failed variant check (R23, R101). -/
  errVcause : BitVec 4
  /-- ERR.STAGE (R23). -/
  errStage : Stage
  /-- IGN, a command was ignored while busy (R24). -/
  ign : Bool
  /-- HV, HDR holds a valid header (R25). -/
  hv : Bool
  /-- POS, bytes exchanged with the byte channels since the command started (R26). -/
  pos : BitVec 64
  /-- hpos, the next header index to fill or to emit (R28). -/
  hpos : BitVec 6
  /-- skip, the gap bytes still to discard (R29). -/
  skip : Word
  /-- rpos, the source index of the next pixel-data byte while it is below 54 (R30). -/
  rpos : BitVec 6
  /-- j, the stored rows completed (R31). -/
  j : Word
  /-- k, the bytes of the current row already handled (R32). -/
  k : BitVec 34
  /-- pb[0..1], the bytes of a pixel whose third byte has not arrived (R33). -/
  pb : Vector Byte 2
  /-- n, how many bytes pb holds (R33). -/
  n : BitVec 2
  /-- POUT: empty, or the decoded pixel it holds (R34).  The word of an empty POUT is not held (log 8). -/
  pout : Option PoutWord
  /-- ebuf[0..2], the on-disk bytes of the pixel being emitted (R35). -/
  ebuf : Vector Byte 3
  /-- en, how many bytes of ebuf are still to be emitted (R35). -/
  en : BitVec 2
  deriving DecidableEq, Repr

/-- The interface on which a step may happen (20_memory.md R47, R57). -/
inductive Port where
  | bus | inp | pin | pout | bout
  deriving DecidableEq, Repr

/-- Which step is next in the single total order of steps (43_control.md R158): one on an interface, an internal step of the
block, or a reset (70_reset_and_hazards.md R179). -/
inductive Turn where
  | port (p : Port)
  | block
  | reset
  deriving DecidableEq, Repr

/-- The host's side (20_memory.md R61): the model's own fields, not elements of R16.  A word the host offers stays at the head
of its queue until the block takes it (R48). -/
structure Env where
  /-- The register-bus requests the host will make, in order. -/
  bus : List BusReq
  /-- The IN words the host offers, in order. -/
  inp : List (BitVec 9)
  /-- The PIN words the host offers, in order. -/
  pin : List Word
  /-- The order of the next steps; when it is exhausted the host does nothing more. -/
  turns : List Turn
  /-- The values register reads have returned, oldest first. -/
  readBack : List Word
  /-- The POUT words the host has taken, oldest first. -/
  pixelsOut : List (BitVec 96)
  /-- The BOUT words the host has taken, oldest first. -/
  bytesOut : List (BitVec 9)
  deriving DecidableEq, Repr

/-- The machine: the block, the host's side, and what its build fixes. -/
structure State where
  blk : Block
  env : Env
  cfg : Config
  deriving DecidableEq, Repr

/-- Why the machine stops with a fault: never.  Every error of BHPA is a phase it goes on from (60_exceptions.md R167, R171),
every access and transfer has an effect or is defined to have none (R51, R52, R156), so this type has no constructor. -/
inductive Fault where
  deriving DecidableEq, Repr

/-- Why an instruction has no meaning in the model. -/
inductive Refusal where
  /-- Raised by an arm of `exec` whose instruction has no meaning yet; no arm raises it.  Safe. -/
  | notModelled (mnemonic : String)
  deriving DecidableEq, Repr

/-- Every element of R16 at its reset value (70_reset_and_hazards.md R179). -/
def Block.reset : Block where
  hdr := Vector.replicate 54 0
  encW := 0
  encH := 0
  op := 0
  phase := .idle
  gw := 0
  gh := 0
  errCode := .none
  errVcause := 0
  errStage := .none
  ign := false
  hv := false
  pos := 0
  hpos := 0
  skip := 0
  rpos := 0
  j := 0
  k := 0
  pb := Vector.replicate 2 0
  n := 0
  pout := none
  ebuf := Vector.replicate 3 0
  en := 0

/-- A host that offers nothing and has received nothing.  DESIGN CHOICE (log 1): the model's own fields start empty. -/
def Env.empty : Env where
  bus := []
  inp := []
  pin := []
  turns := []
  readBack := []
  pixelsOut := []
  bytesOut := []

/-- The machine right after reset (R179), with a host that has offered nothing yet and CLRUSED_ENC at its default (R8). -/
def State.reset : State where
  blk := Block.reset
  env := Env.empty
  cfg := {}

end Sys2Proof.Machine
end

