-- ==== Sys2Proof/Machine/Operands.lean ====
section
/-! DEFINITION. Operand assembly: the little-endian views of the header buffer (00_scope.md R11, 40_header_parser.md R94),
the padding arithmetic (41_row_aligner.md R111 to R114), the generated header (42_encoder.md R135), and the packing of the
words the block gives the host (30_encoding.md R76, R77). -/

namespace Sys2Proof.Machine

/-! ### The deserializer's views -/

/-- HDR[i]; the buffer has no byte 54 or above (log 10: such an index reads 0, in states no run reaches). -/
def hdrAt (h : Vector Byte 54) (i : Nat) : Byte := h[i]?.getD 0

/-- `u16le(i)` (R11). -/
def u16le (h : Vector Byte 54) (i : Nat) : Nat :=
  (hdrAt h i).toNat + 256 * (hdrAt h (i + 1)).toNat

/-- `u32le(i)` (R11). -/
def u32le (h : Vector Byte 54) (i : Nat) : Nat :=
  (hdrAt h i).toNat + 2 ^ 8 * (hdrAt h (i + 1)).toNat + 2 ^ 16 * (hdrAt h (i + 2)).toNat
    + 2 ^ 24 * (hdrAt h (i + 3)).toNat

/-- `s32(v)`: the two's-complement value of a 32-bit pattern (R10).  PRESUMED in the spec itself (G1, log 14). -/
def s32 (v : Nat) : Int := if v < 2 ^ 31 then (v : Int) else (v : Int) - 2 ^ 32

/-- `s32le(i)` (R11). -/
def s32le (h : Vector Byte 54) (i : Nat) : Int := s32 (u32le h i)

/-- SIG, bytes 0-1 (R94). -/
def hdrSig (h : Vector Byte 54) : Nat := u16le h 0
/-- FSIZE, bytes 2-5. -/
def hdrFsize (h : Vector Byte 54) : Nat := u32le h 2
/-- RSVD, bytes 6-9. -/
def hdrRsvd (h : Vector Byte 54) : Nat := u32le h 6
/-- OFFSET, bytes 10-13. -/
def hdrOffset (h : Vector Byte 54) : Nat := u32le h 10
/-- IHSIZE, bytes 14-17. -/
def hdrIhsize (h : Vector Byte 54) : Nat := u32le h 14
/-- WIDTH, bytes 18-21, signed. -/
def hdrWidth (h : Vector Byte 54) : Int := s32le h 18
/-- HEIGHT, bytes 22-25, signed. -/
def hdrHeight (h : Vector Byte 54) : Int := s32le h 22
/-- PLANES, bytes 26-27. -/
def hdrPlanes (h : Vector Byte 54) : Nat := u16le h 26
/-- BPP, bytes 28-29. -/
def hdrBpp (h : Vector Byte 54) : Nat := u16le h 28
/-- COMPR, bytes 30-33. -/
def hdrCompr (h : Vector Byte 54) : Nat := u32le h 30
/-- IMGSIZE, bytes 34-37. -/
def hdrImgsize (h : Vector Byte 54) : Nat := u32le h 34
/-- XRES, bytes 38-41. -/
def hdrXres (h : Vector Byte 54) : Nat := u32le h 38
/-- YRES, bytes 42-45. -/
def hdrYres (h : Vector Byte 54) : Nat := u32le h 42
/-- CLRUSED, bytes 46-49. -/
def hdrClrused (h : Vector Byte 54) : Nat := u32le h 46
/-- CLRIMP, bytes 50-53. -/
def hdrClrimp (h : Vector Byte 54) : Nat := u32le h 50

/-! ### The padding function and the sizes -/

/-- `PAD(w)` (R111). -/
def padOf (w : Nat) : Nat := (Config.rowAlign - (w * 3) % Config.rowAlign) % Config.rowAlign

/-- ROWBYTES of a width (R113). -/
def rowBytesOf (w : Nat) : Nat := 3 * w + padOf w

/-- FSIZE of a geometry (42_encoder.md R134). -/
def fileSizeOf (w h : Nat) : Nat := Config.hdrBytes + rowBytesOf w * h

/-- PAD(GW) of the latched geometry (R22). -/
def Block.pad (b : Block) : Nat := padOf b.gw.toNat

/-- ROWBYTES of the latched geometry (R22). -/
def Block.rowBytes (b : Block) : Nat := rowBytesOf b.gw.toNat

/-- FSIZE of the latched geometry (R134). -/
def Block.fileSize (b : Block) : Nat := fileSizeOf b.gw.toNat b.gh.toNat

/-! ### The header generator's bytes (R135) -/

/-- The 54 bytes of a generated header: the fields of 30_encoding.md R67 in file order, each little-endian. -/
def genHeaderBytes (cfg : Config) (w h : Nat) : List Byte :=
  [Config.sig0, Config.sig1]                  -- 0-1   signature
  ++ leBytes 4 (fileSizeOf w h)               -- 2-5   file size
  ++ leBytes 4 0                              -- 6-9   reserved
  ++ leBytes 4 Config.encPixelOffset          -- 10-13 pixel-data offset
  ++ leBytes 4 Config.ihSizeReq               -- 14-17 info-header size
  ++ leBytes 4 w                              -- 18-21 width
  ++ leBytes 4 h                              -- 22-25 height
  ++ leBytes 2 Config.encPlanes               -- 26-27 planes
  ++ leBytes 2 Config.bppReq                  -- 28-29 bits per pixel
  ++ leBytes 4 Config.comprReq                -- 30-33 compression
  ++ leBytes 4 0                              -- 34-37 image size
  ++ leBytes 4 Config.encRes                  -- 38-41 horizontal resolution
  ++ leBytes 4 Config.encRes                  -- 42-45 vertical resolution
  ++ leBytes 4 cfg.clrUsedEnc.toNat           -- 46-49 colors used
  ++ leBytes 4 0                              -- 50-53 important colors

theorem length_leBytes (n v : Nat) : (leBytes n v).length = n := by simp [leBytes]

theorem length_genHeaderBytes (cfg : Config) (w h : Nat) : (genHeaderBytes cfg w h).length = 54 := by
  simp [genHeaderBytes, length_leBytes]

/-- `GenerateHeader` (R135): all 54 bytes of HDR. -/
def genHeader (cfg : Config) (w h : Nat) : Vector Byte 54 :=
  ⟨(genHeaderBytes cfg w h).toArray, by simp [length_genHeaderBytes]⟩

/-! ### The words the block gives the host -/

/-- The 96-bit POUT word: {VROW, COL, 7'b0, LAST, B, G, R} (R76). -/
def PoutWord.pack (p : PoutWord) : BitVec 96 :=
  p.vrow ++ p.col ++ 0#7 ++ BitVec.ofBool p.last ++ p.b ++ p.g ++ p.r

/-- The 9-bit BOUT word: {LAST, DATA} (R77). -/
def boutWord (last : Bool) (data : Byte) : BitVec 9 := BitVec.ofBool last ++ data

end Sys2Proof.Machine
end

