-- ==== Sys2Proof/Machine/Flags.lean ====
section
/-! DEFINITION. The flags.  BHPA's only flags are the STATUS bits (10_state.md R37): functions of the state, but for IGN and
HV.  The numeric codes of the phases (R20), error codes (30_encoding.md R74) and stages (R78), the readiness conditions of the
channels (20_memory.md R47), and the STATUS and ERR words (R72, R73). -/

namespace Sys2Proof.Machine

/-- The phase codes of R20, read in STATUS[11:8]. -/
def Phase.code : Phase → BitVec 4
  | .idle => 0
  | .dHdr => 1
  | .dSkip => 2
  | .dPix => 3
  | .dPad => 4
  | .dDrain => 5
  | .eHdr => 6
  | .ePix => 7
  | .ePad => 8
  | .done => 9
  | .error => 10

/-- Busy (00_scope.md R14, R20): a command is running. -/
def Phase.busy : Phase → Bool
  | .dHdr | .dSkip | .dPix | .dPad | .dDrain | .eHdr | .ePix | .ePad => true
  | .idle | .done | .error => false

/-- The numeric codes of R74. -/
def ErrCode.code : ErrCode → BitVec 4
  | .none => 0
  | .truncated => 1
  | .badSignature => 2
  | .unsupportedVariant => 3
  | .emptyImage => 4
  | .badCommand => 5
  | .tooLarge => 6
  | .aborted => 7

/-- The numeric stages of R78. -/
def Stage.code : Stage → BitVec 2
  | .none => 0
  | .header => 1
  | .pixel => 2
  | .command => 3

/-- The block would take an IN word now (R47). -/
def Block.inReady (b : Block) : Bool :=
  match b.phase with
  | .dHdr | .dSkip => true
  | .dPix | .dPad => b.rpos.toNat == 54 && b.pout.isNone
  | .idle | .dDrain | .eHdr | .ePix | .ePad | .done | .error => false

/-- The block would take a PIN word now (R47). -/
def Block.pinReady (b : Block) : Bool := b.phase == .ePix && b.en == 0

/-- The block offers a BOUT byte now (R47). -/
def Block.boutValid (b : Block) : Bool :=
  match b.phase with
  | .eHdr | .ePad => true
  | .ePix => b.en != 0
  | .idle | .dHdr | .dSkip | .dPix | .dPad | .dDrain | .done | .error => false

/-- The replay step is enabled (41_row_aligner.md R118). -/
def Block.replayReady (b : Block) : Bool :=
  (b.phase == .dPix || b.phase == .dPad) && decide (b.rpos.toNat < 54) && b.pout.isNone

/-- STATUS (R72): {19'b0, BOUT_VLD, PHASE, PIN_RDY, IN_RDY, POUT_FULL, HV, IGN, ERROR, DONE, BUSY}. -/
def Block.status (b : Block) : Word :=
  0#19 ++ BitVec.ofBool b.boutValid ++ b.phase.code ++ BitVec.ofBool b.pinReady ++ BitVec.ofBool b.inReady
    ++ BitVec.ofBool b.pout.isSome ++ BitVec.ofBool b.hv ++ BitVec.ofBool b.ign
    ++ BitVec.ofBool (b.phase == .error) ++ BitVec.ofBool (b.phase == .done) ++ BitVec.ofBool b.phase.busy

/-- ERR (R73): {22'b0, STAGE, VCAUSE, CODE}. -/
def Block.err (b : Block) : Word := 0#22 ++ b.errStage.code ++ b.errVcause ++ b.errCode.code

/-- VROW (20_memory.md R50): the grid row of the row in progress, else 0. -/
def Block.vrow (b : Block) : Word :=
  match b.phase with
  | .dSkip | .dPix | .dPad | .ePix | .ePad => if b.j.toNat < b.gh.toNat then b.gh - 1 - b.j else 0
  | .idle | .dHdr | .dDrain | .eHdr | .done | .error => 0

end Sys2Proof.Machine
end

