-- ==== Sys2Proof/Machine/Ops.lean ====
section
/-! DEFINITION. The shared operations over the block and over the host's side: entering an error, starting a command, the
validator, the seek, the consumption of a data byte, the replay step, the encoder's steps, the register map, the CTRL
dispatch, and the host's queues. -/

namespace Sys2Proof.Machine

/-! ### Errors and command start -/

/-- `raise Error(code, stage)` (60_exceptions.md R167): the one operation that enters an error.  There is no return from it;
ERROR is left by the next command, an idle ABORT or reset (R171). -/
def Block.raiseError (code : ErrCode) (stage : Stage) (b : Block) : Block :=
  { b with errCode := code, errStage := stage, pout := none, phase := .error }

/-- `CommandStart(op)` (43_control.md R148): every state element but HDR, ENC_W, ENC_H and the phase.  pb and ebuf stand in
no line of its pseudocode; by its prose and D25 they are cleared too (DEDUCED, log 9). -/
def Block.commandStart (op : BitVec 4) (b : Block) : Block :=
  { b with
    op := op
    errCode := .none, errVcause := 0, errStage := .none
    ign := false
    hv := false
    gw := 0, gh := 0
    pos := 0
    hpos := 0, skip := 0, rpos := 0, j := 0, k := 0, n := 0, en := 0
    pb := #v[0, 0], ebuf := #v[0, 0, 0]
    pout := none }

/-- A command other than NOP and ABORT (R147, R152): while busy it only sets IGN, otherwise it starts. -/
def Block.whenIdle (start : Block → Block) (b : Block) : Block :=
  if b.phase.busy then { b with ign := true } else start b

/-- `StartDecodeFamily(op)` (R150). -/
def Block.startDecodeFamily (op : BitVec 4) (b : Block) : Block :=
  { b.commandStart op with phase := .dHdr }

/-- `BadCommand(op)` (R153). -/
def Block.badCommand (op : BitVec 4) (b : Block) : Block :=
  (b.commandStart op).raiseError .badCommand .command

/-- The stage an ABORT records (R151, 30_encoding.md R78). -/
def Phase.abortStage : Phase → Stage
  | .dHdr => .header
  | .dSkip | .dPix | .dPad | .dDrain => .pixel
  | .eHdr | .ePix | .ePad => .command
  | .idle | .done | .error => .none

/-- `Abort()` (R151). -/
def Block.abort (b : Block) : Block :=
  if b.phase.busy then
    ({ b with op := 0xF }).raiseError .aborted b.phase.abortStage
  else
    { b with op := 0xF, errCode := .none, errVcause := 0, errStage := .none, ign := false, phase := .idle }

/-! ### The validator and the seek -/

/-- The variant and sign checks that fail, one bit each (40_header_parser.md R99, R100, R101, R104). -/
def variantCause (h : Vector Byte 54) : BitVec 4 :=
  (if hdrIhsize h ≠ Config.ihSizeReq then 0b0001#4 else 0)
    ||| (if hdrBpp h ≠ Config.bppReq then 0b0010#4 else 0)
    ||| (if hdrCompr h ≠ Config.comprReq then 0b0100#4 else 0)
    ||| (if hdrWidth h < 0 ∨ hdrHeight h < 0 then 0b1000#4 else 0)

/-- The signature check (R98): the two bytes are compared, not a field. -/
def signatureOk (h : Vector Byte 54) : Bool := hdrAt h 0 == Config.sig0 && hdrAt h 1 == Config.sig1

/-- `PixelStart()`: the seek (41_row_aligner.md R116). -/
def Block.pixelStart (b : Block) : Block :=
  let b := { b with j := 0, k := 0, n := 0 }
  if b.rowBytes * b.gh.toNat = 0 then { b with phase := .done }
  else if 54 ≤ hdrOffset b.hdr then
    let skip := hdrOffset b.hdr - 54
    { b with rpos := 54, skip := BitVec.ofNat 32 skip, phase := if 0 < skip then .dSkip else .dPix }
  else { b with rpos := BitVec.ofNat 6 (hdrOffset b.hdr), skip := 0, phase := .dPix }

/-- Validation success (R103). -/
def Block.validated (b : Block) : Block :=
  let b := { b with hv := true, gw := BitVec.ofNat 32 (u32le b.hdr 18), gh := BitVec.ofNat 32 (u32le b.hdr 22) }
  if b.op = 0x1 then { b with phase := .done } else b.pixelStart

/-- `validate()` (R104): the signature before the variant checks, every failed variant check recorded. -/
def Block.validate (b : Block) : Block :=
  if signatureOk b.hdr then
    let vc := variantCause b.hdr
    if vc = 0 then b.validated
    else ({ b with errVcause := vc }).raiseError .unsupportedVariant .header
  else b.raiseError .badSignature .header

/-! ### The decode direction's data bytes -/

/-- A header byte taken in D_HDR (R95); the 54th runs the validator in the same step. -/
def Block.headerByte (x : Byte) (b : Block) : Block :=
  let b := { b with hdr := b.hdr.setIfInBounds b.hpos.toNat x, hpos := b.hpos + 1, pos := b.pos + 1 }
  if b.hpos.toNat = 54 then b.validate else b

/-- A gap byte taken in D_SKIP (R119): discarded unexamined. -/
def Block.gapByte (b : Block) : Block :=
  let b := { b with pos := b.pos + 1, skip := b.skip - 1 }
  if b.skip = 0 then { b with phase := .dPix } else b

/-- `RowEnd()` (R122). -/
def Block.rowEnd (b : Block) : Block :=
  let b := { b with j := b.j + 1, k := 0 }
  if b.j = b.gh then { b with phase := if b.pout.isSome then .dDrain else .done }
  else { b with phase := .dPix }

/-- The POUT word of a pixel whose red byte is `x` and whose column is `c` (R120, 30_encoding.md R76, R86). -/
def Block.pixelWord (x : Byte) (c : Nat) (b : Block) : PoutWord where
  r := x
  g := b.pb[1]
  b := b.pb[0]
  last := decide (b.j.toNat + 1 = b.gh.toNat) && decide (c + 1 = b.gw.toNat)
  col := BitVec.ofNat 32 c
  vrow := b.gh - 1 - b.j

/-- `Consume_D_PIX(x)` (R120): blue, green, then red, which completes the pixel. -/
def Block.consumePix (x : Byte) (b : Block) : Block :=
  let c := b.k.toNat / 3
  if b.n.toNat < 2 then
    { b with k := b.k + 1, pb := b.pb.setIfInBounds b.n.toNat x, n := b.n + 1 }
  else
    let b := { b with k := b.k + 1, pout := some (b.pixelWord x c), n := 0 }
    if b.k.toNat = 3 * b.gw.toNat then
      if 0 < b.pad then { b with phase := .dPad } else b.rowEnd
    else b

/-- `Consume_D_PAD(x)` (R121): the padding byte is discarded, whatever it is. -/
def Block.consumePad (b : Block) : Block :=
  let b := { b with k := b.k + 1 }
  if b.k.toNat = b.rowBytes then b.rowEnd else b

/-- `Consume(x)` in the pixel phase (R117, R118): by R120 in D_PIX, by R121 in D_PAD. -/
def Block.consume (x : Byte) (b : Block) : Block :=
  if b.phase = .dPad then b.consumePad else b.consumePix x

/-- Replay (R118), the block's only internal step: serve a data byte below index 54 from HDR. -/
def Block.replay (b : Block) : Block :=
  ({ b with rpos := b.rpos + 1 }).consume (hdrAt b.hdr b.rpos.toNat)

/-- A data byte the block takes from IN when it is ready (R95, R119, R120, R121). -/
def Block.takeByte (x : Byte) (b : Block) : Block :=
  match b.phase with
  | .dHdr => b.headerByte x
  | .dSkip => b.gapByte
  | .dPix | .dPad => ({ b with pos := b.pos + 1 }).consume x
  | .idle | .dDrain | .eHdr | .ePix | .ePad | .done | .error => b

/-- An EOS word the block takes from IN when it is ready (R96, R125). -/
def Block.takeEos (b : Block) : Block :=
  match b.phase with
  | .dHdr => b.raiseError .truncated .header
  | .dSkip | .dPix | .dPad => b.raiseError .truncated .pixel
  | .idle | .dDrain | .eHdr | .ePix | .ePad | .done | .error => b

/-- The host's take of the POUT word (R126). -/
def Block.poutTaken (b : Block) : Block :=
  { b with pout := none, phase := if b.phase = .dDrain then .done else b.phase }

/-! ### The encode direction -/

/-- ENCODE's acceptance (42_encoder.md R132, R133). -/
def Block.acceptEncode (cfg : Config) (b : Block) : Block :=
  let w := b.encW.toNat
  let h := b.encH.toNat
  let b' := b.commandStart 0x3
  if h = 0 then b'.raiseError .emptyImage .command
  else if 2 ^ 31 ≤ w ∨ 2 ^ 31 ≤ h ∨ 2 ^ 32 ≤ fileSizeOf w h then b'.raiseError .tooLarge .command
  else
    { b' with gw := b.encW, gh := b.encH, hdr := genHeader cfg w h, hv := true, hpos := 0, phase := .eHdr }

/-- A pixel taken from PIN (R138, 30_encoding.md R86): its bytes on disk are blue, green, red. -/
def Block.takePixel (r g bl : Byte) (b : Block) : Block :=
  { b with ebuf := #v[bl, g, r], en := 3 }

/-- `ERowEnd()` (R141). -/
def Block.eRowEnd (b : Block) : Block :=
  let b := { b with j := b.j + 1, k := 0 }
  { b with phase := if b.j = b.gh then .done else .ePix }

/-- The byte the block offers on BOUT (R136, R139, R140). -/
def Block.boutData (b : Block) : Byte :=
  match b.phase with
  | .eHdr => hdrAt b.hdr b.hpos.toNat
  | .ePix => b.ebuf[3 - b.en.toNat]?.getD 0
  | .idle | .dHdr | .dSkip | .dPix | .dPad | .dDrain | .ePad | .done | .error => 0

/-- The BOUT word the block offers: LAST is 1 on output position FSIZE-1 only (30_encoding.md R77, R142). -/
def Block.boutOffer (b : Block) : BitVec 9 :=
  boutWord (decide (b.pos.toNat + 1 = b.fileSize)) b.boutData

/-- The host's take of the BOUT byte (R136 in E_HDR, R139 in E_PIX, R140 in E_PAD). -/
def Block.boutTaken (b : Block) : Block :=
  match b.phase with
  | .eHdr =>
    let b := { b with pos := b.pos + 1, hpos := b.hpos + 1 }
    if b.hpos.toNat = 54 then
      { b with j := 0, k := 0, en := 0, phase := if b.gw = 0 then .done else .ePix }
    else b
  | .ePix =>
    let b := { b with pos := b.pos + 1, k := b.k + 1, en := b.en - 1 }
    if b.en = 0 ∧ b.k.toNat = 3 * b.gw.toNat then
      if 0 < b.pad then { b with phase := .ePad } else b.eRowEnd
    else b
  | .ePad =>
    let b := { b with pos := b.pos + 1, k := b.k + 1 }
    if b.k.toNat = b.rowBytes then b.eRowEnd else b
  | .idle | .dHdr | .dSkip | .dPix | .dPad | .dDrain | .done | .error => b

/-! ### Register access -/

/-- The register map (20_memory.md R50): the value of each aligned address; a reserved address reads 0 (R51). -/
def Block.regAt (b : Block) (a : Byte) : Word :=
  match a.toNat with
  | 0x00 => b.op.setWidth 32
  | 0x04 => b.status
  | 0x08 => b.err
  | 0x0C => b.pos.extractLsb' 0 32
  | 0x10 => b.pos.extractLsb' 32 32
  | 0x14 => b.j
  | 0x18 => b.vrow
  | 0x1C => b.gw
  | 0x20 => b.gh
  | 0x24 => BitVec.ofNat 32 b.pad
  | 0x28 => BitVec.ofNat 32 b.rowBytes
  | 0x2C => BitVec.ofNat 32 (b.rowBytes / 2 ^ 32 % 2)
  | 0x30 => b.encW
  | 0x34 => b.encH
  | 0x40 => BitVec.ofNat 32 (hdrSig b.hdr)
  | 0x44 => BitVec.ofNat 32 (hdrFsize b.hdr)
  | 0x48 => BitVec.ofNat 32 (hdrRsvd b.hdr)
  | 0x4C => BitVec.ofNat 32 (hdrOffset b.hdr)
  | 0x50 => BitVec.ofNat 32 (hdrIhsize b.hdr)
  | 0x54 => BitVec.ofNat 32 (u32le b.hdr 18)
  | 0x58 => BitVec.ofNat 32 (u32le b.hdr 22)
  | 0x5C => BitVec.ofNat 32 (hdrPlanes b.hdr)
  | 0x60 => BitVec.ofNat 32 (hdrBpp b.hdr)
  | 0x64 => BitVec.ofNat 32 (hdrCompr b.hdr)
  | 0x68 => BitVec.ofNat 32 (hdrImgsize b.hdr)
  | 0x6C => BitVec.ofNat 32 (hdrXres b.hdr)
  | 0x70 => BitVec.ofNat 32 (hdrYres b.hdr)
  | 0x74 => BitVec.ofNat 32 (hdrClrused b.hdr)
  | 0x78 => BitVec.ofNat 32 (hdrClrimp b.hdr)
  | _ => 0

/-- A register access is aligned when addr[1:0] = 0 (20_memory.md R52). -/
def aligned (a : Byte) : Bool := a.extractLsb' 0 2 == 0#2

/-- Register read (43_control.md R155): a misaligned read returns 0. -/
def Block.readReg (b : Block) (a : Byte) : Word := if aligned a then b.regAt a else 0

/-- The CTRL write dispatch (R147) for the 4-bit opcode field of the value written. -/
def Block.ctrlWrite (cfg : Config) (op : BitVec 4) (b : Block) : Block :=
  if op = 0x0 then b
  else if op = 0xF then b.abort
  else if op = 0x1 ∨ op = 0x2 then b.whenIdle (Block.startDecodeFamily op)
  else if op = 0x3 then b.whenIdle (Block.acceptEncode cfg)
  else b.whenIdle (Block.badCommand op)

/-- Register write (R154). -/
def Block.writeReg (cfg : Config) (a : Byte) (v : Word) (b : Block) : Block :=
  if aligned a then
    if a = ctrlAddr then b.ctrlWrite cfg (cmdOp v)
    else if a = 0x30 then { b with encW := v }
    else if a = 0x34 then { b with encH := v }
    else b
  else b

/-! ### The host's side -/

/-- `take IN`: the block has accepted the word at the head of the IN queue (20_memory.md R48). -/
def Env.takeIn (e : Env) : Env := { e with inp := e.inp.tail }

/-- `take PIN`: the block has accepted the word at the head of the PIN queue. -/
def Env.takePin (e : Env) : Env := { e with pin := e.pin.tail }

/-- A register read has returned `v` to the host. -/
def Env.giveRead (v : Word) (e : Env) : Env := { e with readBack := e.readBack ++ [v] }

/-- The host has taken a POUT word. -/
def Env.givePixel (w : BitVec 96) (e : Env) : Env := { e with pixelsOut := e.pixelsOut ++ [w] }

/-- The host has taken a BOUT word. -/
def Env.giveByte (w : BitVec 9) (e : Env) : Env := { e with bytesOut := e.bytesOut ++ [w] }

/-- A step that changes the block alone. -/
def State.onBlock (f : Block → Block) (s : State) : State := { s with blk := f s.blk }

/-- Reset (70_reset_and_hazards.md R179): every element of R16 at its reset value; the host's words stay with the host. -/
def State.applyReset (s : State) : State := { s with blk := Block.reset }

/-- The block's own turn (43_control.md R158): a replay step if one is enabled, else no step. -/
def State.internalStep (s : State) : State := if s.blk.replayReady then s.onBlock Block.replay else s

/-- What the host presents on an interface, with the state in which the block sees it: a bus request is always accepted
(R158), so it leaves its queue here; an IN or PIN word leaves its queue only when the meaning takes it (R48); a take carries
nothing.  `none` where the host offers nothing. -/
def State.presented (p : Port) (s : State) : Option (Wire × State) :=
  match p with
  | .bus =>
    match s.env.bus with
    | [] => none
    | r :: rest => some (.bus r, { s with env := { s.env with bus := rest } })
  | .inp =>
    match s.env.inp with
    | [] => none
    | w :: _ => some (.inWord w, s)
  | .pin =>
    match s.env.pin with
    | [] => none
    | w :: _ => some (.pinWord w, s)
  | .pout => some (.poutTake, s)
  | .bout => some (.boutTake, s)

/-- Put a host word where the next step finds it: at the head of its interface's queue, with that interface's turn next. -/
def State.present (w : Wire) (s : State) : State :=
  match w with
  | .bus r => { s with env := { s.env with bus := r :: s.env.bus, turns := .port .bus :: s.env.turns } }
  | .inWord x => { s with env := { s.env with inp := x :: s.env.inp, turns := .port .inp :: s.env.turns } }
  | .pinWord x => { s with env := { s.env with pin := x :: s.env.pin, turns := .port .pin :: s.env.turns } }
  | .poutTake => { s with env := { s.env with turns := .port .pout :: s.env.turns } }
  | .boutTake => { s with env := { s.env with turns := .port .bout :: s.env.turns } }

end Sys2Proof.Machine
end

