-- ==== Sys2Proof/Machine/Channels.lean ====
section
/-! DEFINITION. The meanings of the channel transfers (formats IN, PIN, POUT, BOUT).  A transfer the other side is not ready
for does not happen: no state changes and the word stays offered (20_memory.md R48, 43_control.md R156). -/

namespace Sys2Proof.Machine

/-- IN.BYTE (40_header_parser.md R95 in D_HDR, 41_row_aligner.md R119 in D_SKIP, R120 in D_PIX, R121 in D_PAD). -/
def execInByte (x : Byte) (s : State) : Host.Outcome State Fault Refusal :=
  .next (if s.blk.inReady then { s with blk := s.blk.takeByte x, env := s.env.takeIn } else s)

/-- IN.EOS (R96 in D_HDR, R125 in D_SKIP, D_PIX and D_PAD): TRUNCATED. -/
def execInEos (_x : Byte) (s : State) : Host.Outcome State Fault Refusal :=
  .next (if s.blk.inReady then { s with blk := s.blk.takeEos, env := s.env.takeIn } else s)

/-- PIN (42_encoder.md R138): loads ebuf. -/
def execPin (_x bl g r : Byte) (s : State) : Host.Outcome State Fault Refusal :=
  .next (if s.blk.pinReady then { s with blk := s.blk.takePixel r g bl, env := s.env.takePin } else s)

/-- POUT.TAKE (R126): the host receives the 96-bit word and POUT is emptied. -/
def execPoutTake (s : State) : Host.Outcome State Fault Refusal :=
  .next (match s.blk.pout with
    | some p => { s with blk := s.blk.poutTaken, env := s.env.givePixel p.pack }
    | none => s)

/-- BOUT.TAKE (R136, R139, R140): the host receives the byte offered and the encoder advances. -/
def execBoutTake (s : State) : Host.Outcome State Fault Refusal :=
  .next (if s.blk.boutValid then { s with blk := s.blk.boutTaken, env := s.env.giveByte s.blk.boutOffer } else s)

end Sys2Proof.Machine
end

