-- ==== Sys2Proof/Machine/Commands.lean ====
section
/-! DEFINITION. The meanings of the command rows (format CMD): a write to CTRL with the row's opcode (43_control.md R147).
The ignored bits of the CMD word have no effect (30_encoding.md R82). -/

namespace Sys2Proof.Machine

/-- NOP (R149): the step changes no state, busy or not. -/
def execNop (_x : BitVec 28) (s : State) : Host.Outcome State Fault Refusal := .next s

/-- PARSE (40_header_parser.md R105, R150): starts the header phase. -/
def execParse (_x : BitVec 28) (s : State) : Host.Outcome State Fault Refusal :=
  .next (s.onBlock (Block.whenIdle (Block.startDecodeFamily 0x1)))

/-- DECODE (41_row_aligner.md R127, R150): starts the header phase. -/
def execDecode (_x : BitVec 28) (s : State) : Host.Outcome State Fault Refusal :=
  .next (s.onBlock (Block.whenIdle (Block.startDecodeFamily 0x2)))

/-- ENCODE (42_encoder.md R143, R132): acceptance, with EMPTY_IMAGE and TOO_LARGE raised in this step. -/
def execEncode (_x : BitVec 28) (s : State) : Host.Outcome State Fault Refusal :=
  .next (s.onBlock (Block.whenIdle (Block.acceptEncode s.cfg)))

/-- Reserved opcode 4 (R153). -/
def execRsvd4 (_x : BitVec 28) (s : State) : Host.Outcome State Fault Refusal :=
  .next (s.onBlock (Block.whenIdle (Block.badCommand 0x4)))

/-- Reserved opcode 5 (R153). -/
def execRsvd5 (_x : BitVec 28) (s : State) : Host.Outcome State Fault Refusal :=
  .next (s.onBlock (Block.whenIdle (Block.badCommand 0x5)))

/-- Reserved opcode 6 (R153). -/
def execRsvd6 (_x : BitVec 28) (s : State) : Host.Outcome State Fault Refusal :=
  .next (s.onBlock (Block.whenIdle (Block.badCommand 0x6)))

/-- Reserved opcode 7 (R153). -/
def execRsvd7 (_x : BitVec 28) (s : State) : Host.Outcome State Fault Refusal :=
  .next (s.onBlock (Block.whenIdle (Block.badCommand 0x7)))

/-- Reserved opcode 8 (R153). -/
def execRsvd8 (_x : BitVec 28) (s : State) : Host.Outcome State Fault Refusal :=
  .next (s.onBlock (Block.whenIdle (Block.badCommand 0x8)))

/-- Reserved opcode 9 (R153). -/
def execRsvd9 (_x : BitVec 28) (s : State) : Host.Outcome State Fault Refusal :=
  .next (s.onBlock (Block.whenIdle (Block.badCommand 0x9)))

/-- Reserved opcode A (R153). -/
def execRsvdA (_x : BitVec 28) (s : State) : Host.Outcome State Fault Refusal :=
  .next (s.onBlock (Block.whenIdle (Block.badCommand 0xA)))

/-- Reserved opcode B (R153). -/
def execRsvdB (_x : BitVec 28) (s : State) : Host.Outcome State Fault Refusal :=
  .next (s.onBlock (Block.whenIdle (Block.badCommand 0xB)))

/-- Reserved opcode C (R153). -/
def execRsvdC (_x : BitVec 28) (s : State) : Host.Outcome State Fault Refusal :=
  .next (s.onBlock (Block.whenIdle (Block.badCommand 0xC)))

/-- Reserved opcode D (R153). -/
def execRsvdD (_x : BitVec 28) (s : State) : Host.Outcome State Fault Refusal :=
  .next (s.onBlock (Block.whenIdle (Block.badCommand 0xD)))

/-- Reserved opcode E (R153). -/
def execRsvdE (_x : BitVec 28) (s : State) : Host.Outcome State Fault Refusal :=
  .next (s.onBlock (Block.whenIdle (Block.badCommand 0xE)))

/-- ABORT (R151): the only command that acts while another is running. -/
def execAbort (_x : BitVec 28) (s : State) : Host.Outcome State Fault Refusal :=
  .next (s.onBlock Block.abort)

end Sys2Proof.Machine
end

