-- ==== Sys2Proof/Machine/Registers.lean ====
section
/-! DEFINITION. The meanings of the register accesses (format REG, 43_control.md R154, R155). -/

namespace Sys2Proof.Machine

/-- REG.WR (R154): CTRL, ENC_W and ENC_H take the value; a misaligned, read-only or reserved address ignores it. -/
def execRegWr (a : Byte) (v : Word) (s : State) : Host.Outcome State Fault Refusal :=
  .next (s.onBlock (Block.writeReg s.cfg a v))

/-- REG.RD (R155): the value goes to the host; the block does not change (20_memory.md R55). -/
def execRegRd (a : Byte) (s : State) : Host.Outcome State Fault Refusal :=
  .next { s with env := s.env.giveRead (s.blk.readReg a) }

end Sys2Proof.Machine
end

