-- ==== Sys2Proof/Machine/Dispatch.lean ====
section
/-! DEFINITION. One arm per constructor of Instr. -/

namespace Sys2Proof.Machine

def exec (i : Instr) (s : State) : Host.Outcome State Fault Refusal :=
  match i with
  | .nop x => Sys2Proof.Machine.execNop x s
  | .parse x => Sys2Proof.Machine.execParse x s
  | .decodeCmd x => Sys2Proof.Machine.execDecode x s
  | .encodeCmd x => Sys2Proof.Machine.execEncode x s
  | .rsvd4 x => Sys2Proof.Machine.execRsvd4 x s
  | .rsvd5 x => Sys2Proof.Machine.execRsvd5 x s
  | .rsvd6 x => Sys2Proof.Machine.execRsvd6 x s
  | .rsvd7 x => Sys2Proof.Machine.execRsvd7 x s
  | .rsvd8 x => Sys2Proof.Machine.execRsvd8 x s
  | .rsvd9 x => Sys2Proof.Machine.execRsvd9 x s
  | .rsvdA x => Sys2Proof.Machine.execRsvdA x s
  | .rsvdB x => Sys2Proof.Machine.execRsvdB x s
  | .rsvdC x => Sys2Proof.Machine.execRsvdC x s
  | .rsvdD x => Sys2Proof.Machine.execRsvdD x s
  | .rsvdE x => Sys2Proof.Machine.execRsvdE x s
  | .abort x => Sys2Proof.Machine.execAbort x s
  | .regWr a v => Sys2Proof.Machine.execRegWr a v s
  | .regRd a => Sys2Proof.Machine.execRegRd a s
  | .inByte d => Sys2Proof.Machine.execInByte d s
  | .inEos x => Sys2Proof.Machine.execInEos x s
  | .pin x b g r => Sys2Proof.Machine.execPin x b g r s
  | .poutTake => Sys2Proof.Machine.execPoutTake s
  | .boutTake => Sys2Proof.Machine.execBoutTake s

end Sys2Proof.Machine
end

