-- ==== Sys2Proof/Machine/Step.lean ====
section
/-! DEFINITION. One step of the machine: the next turn of the single total order of steps (20_memory.md R57, 43_control.md
R158).  When no turn is left the host does nothing more and only the block's internal step can happen. -/

namespace Sys2Proof.Machine

/-- The step.  DESIGN CHOICE (log 21): a replay step and the host's next action happen in the order of the turns, each by its
own rule, so an ABORT or a command written just before the replay step that ends a run meets a busy phase, and just after it
meets DONE.  R159 says that replay timing never changes the final phase or ERR; R118, R147 and R151 give these two outcomes,
and the model follows them. -/
def step (s : State) : Host.Outcome State Fault Refusal :=
  match s.env.turns with
  | [] => .next s.internalStep
  | t :: rest =>
    let s' : State := { s with env := { s.env with turns := rest } }
    match t with
    | .reset => .next s'.applyReset
    | .block => .next s'.internalStep
    | .port p =>
      match s'.presented p with
      | none => .next s'
      | some (w, s'') => exec (decode w) s''

/-- `s` with the instruction of a table word presented by the host as its next action (log 3). -/
def State.withFetchWord (s : State) (nbits w : Nat) : State :=
  match tableWire nbits w with
  | some x => s.present x
  | none => s

end Sys2Proof.Machine
end

