-- ==== Sys2Proof/Machine/Reference.lean ====
section
/-! DEFINITION. The spec's functional references: the pure functions of the source bytes, or of the grid, that PARSE, DECODE
and ENCODE compute (40_header_parser.md R106, 41_row_aligner.md R128, 42_encoder.md R144), and the words the host exchanges
with the block when it feeds a source, a grid, or takes a result (R107, R129, R137, R145).  No step calls them: they are what
a run is compared with. -/

namespace Sys2Proof.Machine

/-- A pixel of the grid, in the document's red-green-blue order (00_scope.md R12). -/
structure Pixel where
  r : Byte
  g : Byte
  b : Byte
  deriving DecidableEq, Repr

/-- The PixelGrid: its rows from the top, each row's pixels from the left (00_scope.md R14). -/
abbrev Grid := List (List Pixel)

/-- The error a reference returns: the kinds of 60_exceptions.md R161 a run can end in without an ABORT. -/
inductive FormatError where
  | truncated
  | badSignature
  | unsupportedVariant (cause : BitVec 4)
  | emptyImage
  | tooLarge
  deriving DecidableEq, Repr

/-- ERR.CODE of a reference's error (30_encoding.md R74). -/
def FormatError.code : FormatError → ErrCode
  | .truncated => .truncated
  | .badSignature => .badSignature
  | .unsupportedVariant _ => .unsupportedVariant
  | .emptyImage => .emptyImage
  | .tooLarge => .tooLarge

/-- ERR.VCAUSE of a reference's error (R101). -/
def FormatError.vcause : FormatError → BitVec 4
  | .unsupportedVariant c => c
  | .truncated | .badSignature | .emptyImage | .tooLarge => 0

/-- src[a]; used only at indices the reference has checked to be below the length. -/
def srcAt (src : List Byte) (a : Nat) : Byte := src.getD a 0

/-- src[0..53] as a header buffer. -/
def headerOf (src : List Byte) : Vector Byte 54 := Vector.ofFn fun i : Fin 54 => srcAt src i

/-- `parseHeader(src)` (R106). -/
def parseHeader (src : List Byte) : Except FormatError (Vector Byte 54) :=
  if src.length < 54 then .error .truncated
  else
    let h := headerOf src
    if signatureOk h then
      let vc := variantCause h
      if vc = 0 then .ok h else .error (.unsupportedVariant vc)
    else .error .badSignature

/-- T of a header: the bytes its pixel data occupies (R114). -/
def pixelBytes (h : Vector Byte 54) : Nat := rowBytesOf (u32le h 18) * u32le h 22

/-- The pixel whose blue byte is src[base] (R128). -/
def pixelAt (src : List Byte) (base : Nat) : Pixel :=
  { r := srcAt src (base + 2), g := srcAt src (base + 1), b := srcAt src base }

/-- The grid of an accepted source: grid row H-1-j is stored row j (R115, R128). -/
def gridOf (src : List Byte) (h : Vector Byte 54) : Grid :=
  let w := u32le h 18
  let ht := u32le h 22
  (List.range ht).map fun row =>
    (List.range w).map fun c => pixelAt src (hdrOffset h + (ht - 1 - row) * rowBytesOf w + 3 * c)

/-- `decodeImage(src)` (R128). -/
def decodeImage (src : List Byte) : Except FormatError Grid :=
  match parseHeader src with
  | .error e => .error e
  | .ok h =>
    if pixelBytes h = 0 then .ok (gridOf src h)
    else if src.length < hdrOffset h + pixelBytes h then .error .truncated
    else .ok (gridOf src h)

/-- A grid of `h` rows of `w` pixels each: what the document requires of a PixelGrid (R144). -/
def Grid.hasSize (g : Grid) (w h : Nat) : Prop := g.length = h ∧ ∀ row ∈ g, row.length = w

/-- The bytes of one stored row: each pixel blue, green, red, then the zero padding (R144, 30_encoding.md R70). -/
def rowBytesOut (w : Nat) (row : List Pixel) : List Byte :=
  row.flatMap (fun p => [p.b, p.g, p.r]) ++ List.replicate (padOf w) 0

/-- `encodeImage(W, H, g)` (R144): the header, then the stored rows, bottom grid row first. -/
def encodeImage (cfg : Config) (w h : Nat) (g : Grid) : Except FormatError (List Byte) :=
  if h = 0 then .error .emptyImage
  else if 2 ^ 31 ≤ w ∨ 2 ^ 31 ≤ h ∨ 2 ^ 32 ≤ fileSizeOf w h then .error .tooLarge
  else .ok (genHeaderBytes cfg w h ++ g.reverse.flatMap (rowBytesOut w))

/-! ### What the host exchanges -/

/-- The IN word of a source byte (R75). -/
def byteWord (x : Byte) : BitVec 9 := 0#1 ++ x

/-- The pixel a PIN word carries (R77). -/
def pixelOfPin (w : Word) : Pixel :=
  { r := w.extractLsb' 0 8, g := w.extractLsb' 8 8, b := w.extractLsb' 16 8 }

/-- The POUT word of stored row `j`, column `c` of a decoded grid (R76, R129). -/
def gridWord (g : Grid) (w h j c : Nat) : BitVec 96 :=
  let p := (g.getD (h - 1 - j) []).getD c ⟨0, 0, 0⟩
  PoutWord.pack
    { r := p.r, g := p.g, b := p.b, last := decide (j + 1 = h) && decide (c + 1 = w),
      col := BitVec.ofNat 32 c, vrow := BitVec.ofNat 32 (h - 1 - j) }

/-- The POUT words of a whole decoded grid in stored order: j ascending, then c ascending (R129). -/
def gridWords (g : Grid) (w h : Nat) : List (BitVec 96) :=
  (List.range h).flatMap fun j => (List.range w).map fun c => gridWord g w h j c

/-- The BOUT words of an encoded file: LAST on the final byte only (R142). -/
def fileWords (out : List Byte) : List (BitVec 9) :=
  out.mapIdx fun i x => boutWord (decide (i + 1 = out.length)) x

end Sys2Proof.Machine
end

