-- ==== Sys2Proof/Safety.lean ====
section
/-! DEFINITION. What claims are stated in: the invariant of the block, the graph of its phases, and the kinds of schedule a
run is quantified over. -/

namespace Sys2Proof.Machine

/-- The source index of the next pixel-data byte in the pixel phase: OFFSET + j*ROWBYTES + k (20_memory.md R53, R116). -/
def Block.sourceIndex (b : Block) : Nat := hdrOffset b.hdr + b.j.toNat * b.rowBytes + b.k.toNat

/-- The header in HDR passes every check and is the one whose geometry is latched (10_state.md R25). -/
def Block.headerValid (b : Block) : Prop :=
  signatureOk b.hdr = true ∧ variantCause b.hdr = 0
    ∧ u32le b.hdr 18 = b.gw.toNat ∧ u32le b.hdr 22 = b.gh.toNat

/-- Where each phase stands in its command (10_state.md R27 to R35): the ranges of the position tuple and its relation to
POS, phase by phase. -/
def Block.positionOk (b : Block) : Prop :=
  match b.phase with
  | .idle | .done | .error => True
  | .dHdr =>
    b.hpos.toNat < 54 ∧ b.pos.toNat = b.hpos.toNat ∧ b.gw = 0 ∧ b.gh = 0 ∧ b.hv = false
      ∧ (b.op = 0x1 ∨ b.op = 0x2)
  | .dSkip =>
    b.j = 0 ∧ b.k = 0 ∧ b.n = 0 ∧ b.gw ≠ 0 ∧ b.gh ≠ 0 ∧ b.rpos.toNat = 54 ∧ b.skip ≠ 0
      ∧ b.pos.toNat + b.skip.toNat = hdrOffset b.hdr ∧ 54 ≤ b.pos.toNat ∧ b.op = 0x2
  | .dPix =>
    b.j.toNat < b.gh.toNat ∧ b.k.toNat < 3 * b.gw.toNat ∧ b.n.toNat = b.k.toNat % 3
      ∧ b.rpos.toNat = min 54 b.sourceIndex ∧ b.pos.toNat = max 54 b.sourceIndex ∧ b.op = 0x2
  | .dPad =>
    b.j.toNat < b.gh.toNat ∧ 3 * b.gw.toNat ≤ b.k.toNat ∧ b.k.toNat < b.rowBytes ∧ b.n = 0
      ∧ b.rpos.toNat = min 54 b.sourceIndex ∧ b.pos.toNat = max 54 b.sourceIndex ∧ b.op = 0x2
  | .dDrain =>
    b.j = b.gh ∧ b.k = 0 ∧ b.n = 0 ∧ b.pad = 0 ∧ b.pout.isSome = true
      ∧ b.pos.toNat = max 54 b.sourceIndex ∧ b.op = 0x2
  | .eHdr =>
    b.hpos.toNat < 54 ∧ b.pos.toNat = b.hpos.toNat ∧ b.gh ≠ 0 ∧ b.en = 0 ∧ b.fileSize < 2 ^ 32 ∧ b.op = 0x3
  | .ePix =>
    b.j.toNat < b.gh.toNat ∧ b.k.toNat < 3 * b.gw.toNat ∧ (b.k.toNat + b.en.toNat) % 3 = 0
      ∧ b.k.toNat + b.en.toNat ≤ 3 * b.gw.toNat
      ∧ b.pos.toNat = 54 + b.j.toNat * b.rowBytes + b.k.toNat ∧ b.fileSize < 2 ^ 32 ∧ b.op = 0x3
  | .ePad =>
    b.j.toNat < b.gh.toNat ∧ 3 * b.gw.toNat ≤ b.k.toNat ∧ b.k.toNat < b.rowBytes ∧ b.en = 0
      ∧ b.pos.toNat = 54 + b.j.toNat * b.rowBytes + b.k.toNat ∧ b.fileSize < 2 ^ 32 ∧ b.op = 0x3

/-- The error record: ERR is nonzero exactly in ERROR, VCAUSE exactly for UNSUPPORTED_VARIANT (30_encoding.md R73, R78,
60_exceptions.md R172). -/
def Block.errorOk (b : Block) : Prop :=
  (b.phase = .error ↔ b.errCode ≠ .none) ∧ (b.errCode = .none ↔ b.errStage = .none)
    ∧ (b.errVcause ≠ 0 ↔ b.errCode = .unsupportedVariant)

/-- The invariant of the block: what 10_state.md says of its elements together. -/
structure Block.Inv (b : Block) : Prop where
  /-- R21: the latched geometry is below 2^31. -/
  gw_lt : b.gw.toNat < 2 ^ 31
  /-- R21: the latched geometry is below 2^31. -/
  gh_lt : b.gh.toNat < 2 ^ 31
  /-- R28: hpos ranges over 0..54. -/
  hpos_le : b.hpos.toNat ≤ 54
  /-- R29, R36: skip does not pass the largest gap. -/
  skip_le : b.skip.toNat ≤ 2 ^ 32 - 55
  /-- R30: rpos does not pass 54. -/
  rpos_le : b.rpos.toNat ≤ 54
  /-- R31: j does not pass GH. -/
  j_le : b.j.toNat ≤ b.gh.toNat
  /-- R32: k does not pass ROWBYTES. -/
  k_le : b.k.toNat ≤ b.rowBytes
  /-- R33: n ranges over 0..2. -/
  n_le : b.n.toNat ≤ 2
  /-- R25: HV says the header is valid. -/
  hv_valid : b.hv = true → b.headerValid
  /-- R25: past the header phase, and in DONE, HV is 1. -/
  hv_phase : b.phase ≠ .idle → b.phase ≠ .dHdr → b.phase ≠ .error → b.hv = true
  /-- R126: POUT can be valid only in D_PIX, D_PAD and D_DRAIN. -/
  pout_phase : b.pout.isSome = true → b.phase = .dPix ∨ b.phase = .dPad ∨ b.phase = .dDrain
  /-- R26, R36: POS never passes the bound that keeps it from wrapping. -/
  pos_lt : b.pos.toNat < 2 ^ 32 + 3 * 2 ^ 62
  /-- R27 to R35: the position tuple. -/
  position : b.positionOk
  /-- R73, R78, R172: the error record. -/
  error : b.errorOk

/-- The edges of the phase graph (10_state.md R27): the phases a step other than a reset may lead to. -/
def Phase.next : Phase → List Phase
  | .idle => [.dHdr, .eHdr, .error, .idle]
  | .done => [.dHdr, .eHdr, .error, .idle]
  | .error => [.dHdr, .eHdr, .error, .idle]
  | .dHdr => [.error, .done, .dSkip, .dPix]
  | .dSkip => [.dPix, .error]
  | .dPix => [.dPad, .dPix, .dDrain, .error]
  | .dPad => [.dPix, .done, .error]
  | .dDrain => [.done, .error]
  | .eHdr => [.done, .ePix, .error]
  | .ePix => [.ePad, .ePix, .done, .error]
  | .ePad => [.ePix, .done, .error]

/-- The host of R107 and R129: the block is not busy, the first bus request is a CTRL write with opcode `op`, the IN words
offered are the source bytes and then an EOS, and after the CTRL write the turns are `ts`. -/
structure FeedsSource (s : State) (op : BitVec 4) (src : List Byte) (ts : List Turn) : Prop where
  notBusy : s.blk.phase.busy = false
  command : ∃ v rest, s.env.bus = .write ctrlAddr v :: rest ∧ cmdOp v = op
  source : ∃ eos rest, s.env.inp = src.map byteWord ++ eos :: rest ∧ eos.getLsbD 8 = true
  turns : s.env.turns = .port .bus :: ts

/-- The host of R145: the block is not busy, the host writes ENC_W and ENC_H and then ENCODE, and offers the pixels of a grid
of that size on PIN, bottom row first (R137); after the three writes the turns are `ts`. -/
structure FeedsGrid (s : State) (w h : Word) (g : Grid) (ts : List Turn) : Prop where
  notBusy : s.blk.phase.busy = false
  size : g.hasSize w.toNat h.toNat
  command : ∃ v rest, s.env.bus = .write 0x30 w :: .write 0x34 h :: .write ctrlAddr v :: rest ∧ cmdOp v = 0x3
  pixels : ∃ ws rest, s.env.pin = ws ++ rest ∧ ws.map pixelOfPin = g.reverse.flatten
  turns : s.env.turns = .port .bus :: .port .bus :: .port .bus :: ts

/-- A schedule on which the host makes no register access and does not reset: the channels and the block in any order. -/
def channelsOnly (ts : List Turn) : Prop := ∀ t ∈ ts, t ≠ .port .bus ∧ t ≠ .reset

/-- `n` rounds in which the block, then the host's take on POUT, then the host's offer on IN each have a turn. -/
def decodeRounds (n : Nat) : List Turn := (List.replicate n [.block, .port .pout, .port .inp]).flatten

/-- `n` rounds in which the host's offer on PIN, then its take on BOUT each have a turn. -/
def encodeRounds (n : Nat) : List Turn := (List.replicate n [.port .pin, .port .bout]).flatten

end Sys2Proof.Machine
end

