-- ==== Sys2Proof/Certificates/Slice0/Obligations.lean ====
section
/-! DEFINITION. The statements for the provers. -/

open Sys2Proof Sys2Proof.Machine

/-! ### Encodings -/

/-- Decoding the word of a well-formed instruction gives the instruction back, with every operand and ignored bit. -/
def Obligations.DecodeOfEncode : Prop :=
  ∀ i : Instr, i.wellFormed = true → decode (encode i) = i

/-- Every host word is the word of a well-formed instruction (R82: no word BHPA can receive is illegal). -/
def Obligations.EncodeOfDecode : Prop :=
  ∀ w : Wire, (decode w).wellFormed = true ∧ encode (decode w) = w

/-- The byte layer (log 5): the bytes of a well-formed instruction decode to it, a string of another length is rejected by
name, and a string of the right length is rejected only where an IN word has a bit above its nine. -/
def Obligations.ByteDecodingIsTotal : Prop :=
  (∀ i : Instr, i.wellFormed = true → decodeBytes (encodeBytes i).1 (encodeBytes i).2 = .ok i)
  ∧ (∀ f bs, bs.length ≠ formatBytes f → decodeBytes f bs = .error .wrongLength)
  ∧ (∀ f bs, bs.length = formatBytes f →
      (f = .inWord ∧ 512 ≤ leNat bs ∧ decodeBytes f bs = .error .bitAboveFormat)
      ∨ ((f ≠ .inWord ∨ leNat bs < 512) ∧ ∃ i, decodeBytes f bs = .ok i ∧ i.wellFormed = true))

/-- R79, R80: the low four bits of the value written to CTRL name the command, whatever the other 28 bits are. -/
def Obligations.CommandOpcodeSelectsRow : Prop :=
  ∀ v : Word, ∃ x : BitVec 28,
    (v &&& 0xF = 0x0 → decode (.bus (.write 0x00 v)) = .nop x)
    ∧ (v &&& 0xF = 0x1 → decode (.bus (.write 0x00 v)) = .parse x)
    ∧ (v &&& 0xF = 0x2 → decode (.bus (.write 0x00 v)) = .decodeCmd x)
    ∧ (v &&& 0xF = 0x3 → decode (.bus (.write 0x00 v)) = .encodeCmd x)
    ∧ (v &&& 0xF = 0x4 → decode (.bus (.write 0x00 v)) = .rsvd4 x)
    ∧ (v &&& 0xF = 0x5 → decode (.bus (.write 0x00 v)) = .rsvd5 x)
    ∧ (v &&& 0xF = 0x6 → decode (.bus (.write 0x00 v)) = .rsvd6 x)
    ∧ (v &&& 0xF = 0x7 → decode (.bus (.write 0x00 v)) = .rsvd7 x)
    ∧ (v &&& 0xF = 0x8 → decode (.bus (.write 0x00 v)) = .rsvd8 x)
    ∧ (v &&& 0xF = 0x9 → decode (.bus (.write 0x00 v)) = .rsvd9 x)
    ∧ (v &&& 0xF = 0xA → decode (.bus (.write 0x00 v)) = .rsvdA x)
    ∧ (v &&& 0xF = 0xB → decode (.bus (.write 0x00 v)) = .rsvdB x)
    ∧ (v &&& 0xF = 0xC → decode (.bus (.write 0x00 v)) = .rsvdC x)
    ∧ (v &&& 0xF = 0xD → decode (.bus (.write 0x00 v)) = .rsvdD x)
    ∧ (v &&& 0xF = 0xE → decode (.bus (.write 0x00 v)) = .rsvdE x)
    ∧ (v &&& 0xF = 0xF → decode (.bus (.write 0x00 v)) = .abort x)

/-- A few host words, written out from the spec's encodings, and what they are. -/
def Obligations.SampleWordsDecode : Prop :=
  decode (.bus (.write 0x00 0x00000012)) = .decodeCmd 1
  ∧ decode (.bus (.write 0x00 0x0000000F)) = .abort 0
  ∧ decode (.bus (.write 0x30 0x00000007)) = .regWr 0x30 7
  ∧ decode (.bus (.read 0x04)) = .regRd 0x04
  ∧ decode (.inWord 0x042) = .inByte 0x42
  ∧ decode (.inWord 0x100) = .inEos 0x00
  ∧ decode (.pinWord 0x001E140A) = .pin 0x00 30 20 10

/-- R76, R77: the fields of the 96-bit POUT word and of the 9-bit BOUT word. -/
def Obligations.ChannelWordFields : Prop :=
  (∀ p : PoutWord,
    p.pack.extractLsb' 0 8 = p.r ∧ p.pack.extractLsb' 8 8 = p.g ∧ p.pack.extractLsb' 16 8 = p.b
    ∧ p.pack.getLsbD 24 = p.last ∧ p.pack.extractLsb' 25 7 = 0
    ∧ p.pack.extractLsb' 32 32 = p.col ∧ p.pack.extractLsb' 64 32 = p.vrow)
  ∧ (∀ (l : Bool) (d : Byte), (boutWord l d).extractLsb' 0 8 = d ∧ (boutWord l d).getLsbD 8 = l)

/-! ### Header fields and the padding function -/

/-- R44, R67: the fifteen fields, each little-endian at its own width, are the 54 header bytes, none twice and none left
out. -/
def Obligations.HeaderFieldsTileBuffer : Prop :=
  ∀ h : Vector Byte 54, h.toList =
    leBytes 2 (hdrSig h) ++ leBytes 4 (hdrFsize h) ++ leBytes 4 (hdrRsvd h) ++ leBytes 4 (hdrOffset h)
    ++ leBytes 4 (hdrIhsize h) ++ leBytes 4 (u32le h 18) ++ leBytes 4 (u32le h 22) ++ leBytes 2 (hdrPlanes h)
    ++ leBytes 2 (hdrBpp h) ++ leBytes 4 (hdrCompr h) ++ leBytes 4 (hdrImgsize h) ++ leBytes 4 (hdrXres h)
    ++ leBytes 4 (hdrYres h) ++ leBytes 4 (hdrClrused h) ++ leBytes 4 (hdrClrimp h)

/-- R98, R101: the signature check compares the two bytes, and each VCAUSE bit is its own check (a negative dimension is
bit 31 of its pattern, R100). -/
def Obligations.ValidatorChecks : Prop :=
  ∀ h : Vector Byte 54,
    (signatureOk h = true ↔ hdrAt h 0 = 0x42 ∧ hdrAt h 1 = 0x4D)
    ∧ ((variantCause h).getLsbD 0 = true ↔ hdrIhsize h ≠ 40)
    ∧ ((variantCause h).getLsbD 1 = true ↔ hdrBpp h ≠ 24)
    ∧ ((variantCause h).getLsbD 2 = true ↔ hdrCompr h ≠ 0)
    ∧ ((variantCause h).getLsbD 3 = true ↔ hdrWidth h < 0 ∨ hdrHeight h < 0)
    ∧ (hdrWidth h < 0 ↔ (hdrAt h 21).getLsbD 7 = true)
    ∧ (hdrHeight h < 0 ↔ (hdrAt h 25).getLsbD 7 = true)

/-- R102: FSIZE, RSVD, OFFSET, PLANES, IMGSIZE, XRES, YRES, CLRUSED and CLRIMP are not checked: headers that agree on the
other bytes are judged alike. -/
def Obligations.UncheckedFieldsAreIgnored : Prop :=
  ∀ h h' : Vector Byte 54,
    (∀ i, i < 54 → i < 2 ∨ (14 ≤ i ∧ i < 26) ∨ (28 ≤ i ∧ i < 34) → hdrAt h i = hdrAt h' i) →
    signatureOk h = signatureOk h' ∧ variantCause h = variantCause h'

/-- R112: the padding is at most 3, makes the row a multiple of 4, is the least number that does, and is w mod 4 (R111). -/
def Obligations.PaddingIsLeast : Prop :=
  ∀ w : Nat, padOf w ≤ 3 ∧ (3 * w + padOf w) % 4 = 0 ∧ (∀ p, (3 * w + p) % 4 = 0 → padOf w ≤ p) ∧ padOf w = w % 4

/-- R113, R114: ROWBYTES is a multiple of 4 and below 2^33 for an accepted width, and the pixel data is empty exactly for an
empty geometry. -/
def Obligations.RowBytesBounds : Prop :=
  ∀ w h : Nat, rowBytesOf w % 4 = 0 ∧ (w < 2 ^ 31 → rowBytesOf w < 2 ^ 33)
    ∧ (rowBytesOf w * h = 0 ↔ w = 0 ∨ h = 0)

/-- R135: a generated header holds the values of R67 in its fields and passes every check of the validator. -/
def Obligations.GeneratedHeaderFields : Prop :=
  ∀ (cfg : Config) (w h : Nat), w < 2 ^ 31 → h < 2 ^ 31 → fileSizeOf w h < 2 ^ 32 →
    let d := genHeader cfg w h
    hdrAt d 0 = 0x42 ∧ hdrAt d 1 = 0x4D ∧ hdrFsize d = 54 + rowBytesOf w * h ∧ hdrRsvd d = 0 ∧ hdrOffset d = 54
    ∧ hdrIhsize d = 40 ∧ hdrWidth d = w ∧ hdrHeight d = h ∧ u32le d 18 = w ∧ u32le d 22 = h ∧ hdrPlanes d = 1
    ∧ hdrBpp d = 24 ∧ hdrCompr d = 0 ∧ hdrImgsize d = 0 ∧ hdrXres d = 100 ∧ hdrYres d = 100
    ∧ hdrClrused d = cfg.clrUsedEnc.toNat ∧ hdrClrimp d = 0
    ∧ signatureOk d = true ∧ variantCause d = 0

/-! ### Registers and flags -/

/-- R72: every bit of STATUS, PHASE with the codes of R20 written out, and that BUSY, DONE and ERROR exclude each other and are
all 0 only in IDLE. -/
def Obligations.StatusBits : Prop :=
  ∀ b : Block,
    (b.status.getLsbD 0 = true ↔ b.phase ∈ [.dHdr, .dSkip, .dPix, .dPad, .dDrain, .eHdr, .ePix, .ePad])
    ∧ (b.status.getLsbD 1 = true ↔ b.phase = .done)
    ∧ (b.status.getLsbD 2 = true ↔ b.phase = .error)
    ∧ b.status.getLsbD 3 = b.ign ∧ b.status.getLsbD 4 = b.hv ∧ b.status.getLsbD 5 = b.pout.isSome
    ∧ (b.status.getLsbD 6 = true ↔ b.phase = .dHdr ∨ b.phase = .dSkip
        ∨ ((b.phase = .dPix ∨ b.phase = .dPad) ∧ b.rpos = 54 ∧ b.pout = none))
    ∧ (b.status.getLsbD 7 = true ↔ b.phase = .ePix ∧ b.en = 0)
    ∧ b.status.extractLsb' 8 4 = (match b.phase with
        | .idle => 0#4 | .dHdr => 1 | .dSkip => 2 | .dPix => 3 | .dPad => 4 | .dDrain => 5 | .eHdr => 6 | .ePix => 7
        | .ePad => 8 | .done => 9 | .error => 10)
    ∧ (b.status.getLsbD 12 = true ↔ b.phase = .eHdr ∨ (b.phase = .ePix ∧ b.en ≠ 0) ∨ b.phase = .ePad)
    ∧ b.status.extractLsb' 13 19 = 0
    ∧ (b.status.extractLsb' 0 3 = 0 ∨ b.status.extractLsb' 0 3 = 1 ∨ b.status.extractLsb' 0 3 = 2
        ∨ b.status.extractLsb' 0 3 = 4)
    ∧ (b.status.extractLsb' 0 3 = 0 ↔ b.phase = .idle)

/-- R73: the fields of ERR, with the codes of R74 and the stages of R78 written out, and that VCAUSE is nonzero only for
code 3. -/
def Obligations.ErrFields : Prop :=
  ∀ b : Block,
    b.err.extractLsb' 0 4 = (match b.errCode with
        | .none => 0#4 | .truncated => 1 | .badSignature => 2 | .unsupportedVariant => 3 | .emptyImage => 4
        | .badCommand => 5 | .tooLarge => 6 | .aborted => 7)
    ∧ b.err.extractLsb' 4 4 = b.errVcause
    ∧ b.err.extractLsb' 8 2 = (match b.errStage with | .none => 0#2 | .header => 1 | .pixel => 2 | .command => 3)
    ∧ b.err.extractLsb' 10 22 = 0
    ∧ (b.Inv → b.err.extractLsb' 4 4 ≠ 0 → b.err.extractLsb' 0 4 = 3)
    ∧ (b.Inv → (b.err = 0 ↔ b.phase ≠ .error))

/-- R155, R50: a read of each register returns its value to the host and changes nothing else. -/
def Obligations.RegisterReadReturnsValue : Prop :=
  ∀ s : State, ∀ p ∈ ([
      (0x00, s.blk.op.setWidth 32), (0x04, s.blk.status), (0x08, s.blk.err),
      (0x0C, s.blk.pos.extractLsb' 0 32), (0x10, s.blk.pos.extractLsb' 32 32),
      (0x14, s.blk.j),
      (0x18, if s.blk.phase ∈ [.dSkip, .dPix, .dPad, .ePix, .ePad] ∧ s.blk.j.toNat < s.blk.gh.toNat
             then s.blk.gh - 1 - s.blk.j else 0),
      (0x1C, s.blk.gw), (0x20, s.blk.gh), (0x24, BitVec.ofNat 32 (padOf s.blk.gw.toNat)),
      (0x28, BitVec.ofNat 32 (rowBytesOf s.blk.gw.toNat)),
      (0x2C, BitVec.ofNat 32 (rowBytesOf s.blk.gw.toNat / 2 ^ 32 % 2)),
      (0x30, s.blk.encW), (0x34, s.blk.encH)] ++ [
      (0x40, BitVec.ofNat 32 (u16le s.blk.hdr 0)), (0x44, BitVec.ofNat 32 (u32le s.blk.hdr 2)),
      (0x48, BitVec.ofNat 32 (u32le s.blk.hdr 6)), (0x4C, BitVec.ofNat 32 (u32le s.blk.hdr 10)),
      (0x50, BitVec.ofNat 32 (u32le s.blk.hdr 14)), (0x54, BitVec.ofNat 32 (u32le s.blk.hdr 18)),
      (0x58, BitVec.ofNat 32 (u32le s.blk.hdr 22)), (0x5C, BitVec.ofNat 32 (u16le s.blk.hdr 26)),
      (0x60, BitVec.ofNat 32 (u16le s.blk.hdr 28)), (0x64, BitVec.ofNat 32 (u32le s.blk.hdr 30)),
      (0x68, BitVec.ofNat 32 (u32le s.blk.hdr 34)), (0x6C, BitVec.ofNat 32 (u32le s.blk.hdr 38)),
      (0x70, BitVec.ofNat 32 (u32le s.blk.hdr 42)), (0x74, BitVec.ofNat 32 (u32le s.blk.hdr 46)),
      (0x78, BitVec.ofNat 32 (u32le s.blk.hdr 50))] : List (Byte × Word)),
    exec (.regRd p.1) s = .next { s with env := { s.env with readBack := s.env.readBack ++ [p.2] } }

/-- R51, R52: a reserved or misaligned read returns 0 and a reserved or misaligned write is ignored, and neither raises an
error. -/
def Obligations.ReservedAndMisalignedAccesses : Prop :=
  ∀ (s : State) (a : Byte) (v : Word),
    a.toNat % 4 ≠ 0 ∨ a = 0x38 ∨ a = 0x3C ∨ 0x7C ≤ a.toNat →
    exec (.regRd a) s = .next { s with env := { s.env with readBack := s.env.readBack ++ [0] } }
    ∧ exec (.regWr a v) s = .next s

/-- R154: ENC_W and ENC_H take the value in any phase, CTRL acts as the command of the value, and a write to any other
address changes nothing. -/
def Obligations.RegisterWriteEffect : Prop :=
  ∀ (s : State) (a : Byte) (v : Word),
    exec (.regWr 0x30 v) s = .next { s with blk := { s.blk with encW := v } }
    ∧ exec (.regWr 0x34 v) s = .next { s with blk := { s.blk with encH := v } }
    ∧ exec (.regWr 0x00 v) s = exec (decode (.bus (.write 0x00 v))) s
    ∧ (a ≠ 0x00 → a ≠ 0x30 → a ≠ 0x34 → exec (.regWr a v) s = .next s)

/-! ### Commands -/

/-- R149: NOP changes no state, busy or not, whatever its ignored bits are. -/
def Obligations.NopChangesNothing : Prop :=
  ∀ (x : BitVec 28) (s : State), exec (.nop x) s = .next s

/-- R150 with R148: PARSE and DECODE, written while not busy, clear the run's state and wait in D_HDR for IN.  That pb and ebuf
are cleared to zero bytes is read from R148's prose and D25 (DEDUCED, log 9). -/
def Obligations.ParseAndDecodeStart : Prop :=
  ∀ (x : BitVec 28) (s : State), s.blk.phase.busy = false →
    ∀ p ∈ ([(.parse x, 0x1), (.decodeCmd x, 0x2)] : List (Instr × BitVec 4)),
      ∃ t, exec p.1 s = .next t ∧ t.blk.inReady = true ∧ t = { s with blk := { s.blk with
        op := p.2, errCode := .none, errVcause := 0, errStage := .none, ign := false, hv := false, gw := 0, gh := 0,
        pos := 0, hpos := 0, skip := 0, rpos := 0, j := 0, k := 0, pb := #v[0, 0], n := 0, pout := none,
        ebuf := #v[0, 0, 0], en := 0, phase := .dHdr } }

/-- R132, R133: ENCODE while not busy.  EMPTY_IMAGE is tested first, then TOO_LARGE; an accepted ENCODE latches the geometry
and the generated header and offers its first byte.  That pb and ebuf are cleared to zero bytes is read from R148's prose and
D25 (DEDUCED, log 9). -/
def Obligations.EncodeAcceptance : Prop :=
  ∀ (x : BitVec 28) (s : State), s.blk.phase.busy = false →
    let w := s.blk.encW.toNat
    let h := s.blk.encH.toNat
    let b : Block := { s.blk with
      op := 0x3, errCode := .none, errVcause := 0, errStage := .none, ign := false, hv := false, gw := 0, gh := 0,
      pos := 0, hpos := 0, skip := 0, rpos := 0, j := 0, k := 0, pb := #v[0, 0], n := 0, pout := none,
      ebuf := #v[0, 0, 0], en := 0 }
    let tooLarge := 2 ^ 31 ≤ w ∨ 2 ^ 31 ≤ h ∨ 2 ^ 32 ≤ 54 + (3 * w + padOf w) * h
    (h = 0 → exec (.encodeCmd x) s =
      .next { s with blk := { b with errCode := .emptyImage, errStage := .command, phase := .error } })
    ∧ (h ≠ 0 → tooLarge → exec (.encodeCmd x) s =
      .next { s with blk := { b with errCode := .tooLarge, errStage := .command, phase := .error } })
    ∧ (h ≠ 0 → ¬ tooLarge → exec (.encodeCmd x) s =
      .next { s with blk := { b with
        gw := s.blk.encW, gh := s.blk.encH, hdr := genHeader s.cfg w h, hv := true, phase := .eHdr } })

/-- R153: a reserved opcode, written while not busy, ends in ERROR with BAD_COMMAND and records itself in OP.  That pb and
ebuf are cleared to zero bytes is read from R148's prose and D25 (DEDUCED, log 9). -/
def Obligations.ReservedOpcodesAreBadCommands : Prop :=
  ∀ (x : BitVec 28) (s : State), s.blk.phase.busy = false →
    ∀ p ∈ ([(.rsvd4 x, 0x4), (.rsvd5 x, 0x5), (.rsvd6 x, 0x6), (.rsvd7 x, 0x7), (.rsvd8 x, 0x8), (.rsvd9 x, 0x9),
        (.rsvdA x, 0xA), (.rsvdB x, 0xB), (.rsvdC x, 0xC), (.rsvdD x, 0xD), (.rsvdE x, 0xE)] : List (Instr × BitVec 4)),
      exec p.1 s = .next { s with blk := { s.blk with
        op := p.2, errCode := .badCommand, errVcause := 0, errStage := .command, ign := false, hv := false,
        gw := 0, gh := 0, pos := 0, hpos := 0, skip := 0, rpos := 0, j := 0, k := 0, pb := #v[0, 0], n := 0,
        pout := none, ebuf := #v[0, 0, 0], en := 0, phase := .error } }

/-- R152: while busy, every command but NOP and ABORT changes nothing but IGN. -/
def Obligations.CommandsWhileBusySetIgn : Prop :=
  ∀ (x : BitVec 28) (s : State), s.blk.phase.busy = true →
    ∀ i ∈ ([.parse x, .decodeCmd x, .encodeCmd x, .rsvd4 x, .rsvd5 x, .rsvd6 x, .rsvd7 x, .rsvd8 x, .rsvd9 x, .rsvdA x,
        .rsvdB x, .rsvdC x, .rsvdD x, .rsvdE x] : List Instr),
      exec i s = .next { s with blk := { s.blk with ign := true } }

/-- R151: ABORT while busy ends the run in ERROR with the stage of the interrupted phase and withdraws POUT; while not busy
it returns to IDLE and clears the outcome.  Everything else is kept for diagnosis. -/
def Obligations.AbortEndsRun : Prop :=
  ∀ (x : BitVec 28) (s : State),
    (s.blk.phase = .dHdr → exec (.abort x) s = .next { s with blk := { s.blk with
      op := 0xF, errCode := .aborted, errStage := .header, pout := none, phase := .error } })
    ∧ (s.blk.phase ∈ [.dSkip, .dPix, .dPad, .dDrain] → exec (.abort x) s = .next { s with blk := { s.blk with
      op := 0xF, errCode := .aborted, errStage := .pixel, pout := none, phase := .error } })
    ∧ (s.blk.phase ∈ [.eHdr, .ePix, .ePad] → exec (.abort x) s = .next { s with blk := { s.blk with
      op := 0xF, errCode := .aborted, errStage := .command, pout := none, phase := .error } })
    ∧ (s.blk.phase.busy = false → exec (.abort x) s = .next { s with blk := { s.blk with
      op := 0xF, errCode := .none, errVcause := 0, errStage := .none, ign := false, phase := .idle } })

/-! ### The decode direction's transfers -/

/-- R95: a header byte other than the 54th is stored at hpos and counted, and nothing else changes. -/
def Obligations.HeaderByteIsStored : Prop :=
  ∀ (x : Byte) (s : State), s.blk.phase = .dHdr → (hp : s.blk.hpos.toNat < 53) →
    exec (.inByte x) s = .next { s with
      blk := { s.blk with
        hdr := s.blk.hdr.set s.blk.hpos.toNat x (by omega), hpos := s.blk.hpos + 1, pos := s.blk.pos + 1 },
      env := { s.env with inp := s.env.inp.tail } }

/-- R104: the 54th header byte runs the validator in its own step.  A bad signature wins over every variant cause; otherwise
every failed variant check is recorded; the header stays in HDR and HV, GW and GH are not set. -/
def Obligations.LastHeaderByteRejects : Prop :=
  ∀ (x : Byte) (s : State), s.blk.phase = .dHdr → s.blk.hpos = 53 →
    let h := s.blk.hdr.set 53 x
    let b : Block := { s.blk with hdr := h, hpos := 54, pos := s.blk.pos + 1 }
    let e : Env := { s.env with inp := s.env.inp.tail }
    (signatureOk h = false → exec (.inByte x) s = .next { s with
      blk := { b with errCode := .badSignature, errStage := .header, pout := none, phase := .error }, env := e })
    ∧ (signatureOk h = true → variantCause h ≠ 0 → exec (.inByte x) s = .next { s with
      blk := { b with
        errCode := .unsupportedVariant, errVcause := variantCause h, errStage := .header, pout := none, phase := .error },
      env := e })

/-- R103, R116: a header that passes sets HV and the geometry.  PARSE is done; DECODE seeks: it is done at once when there is
no pixel data, discards a gap when OFFSET > 54, and replays header bytes when OFFSET < 54. -/
def Obligations.LastHeaderByteAccepts : Prop :=
  ∀ (x : Byte) (s : State), s.blk.phase = .dHdr → s.blk.hpos = 53 →
    let h := s.blk.hdr.set 53 x
    let w := u32le h 18
    let ht := u32le h 22
    let b : Block := { s.blk with
      hdr := h, hpos := 54, pos := s.blk.pos + 1, hv := true, gw := BitVec.ofNat 32 w, gh := BitVec.ofNat 32 ht }
    let e : Env := { s.env with inp := s.env.inp.tail }
    let seek : Block := { b with j := 0, k := 0, n := 0 }
    signatureOk h = true → variantCause h = 0 →
    w < 2 ^ 31 ∧ ht < 2 ^ 31
    ∧ (s.blk.op = 0x1 → exec (.inByte x) s = .next { s with blk := { b with phase := .done }, env := e })
    ∧ (s.blk.op = 0x2 → w = 0 ∨ ht = 0 →
        exec (.inByte x) s = .next { s with blk := { seek with phase := .done }, env := e })
    ∧ (s.blk.op = 0x2 → w ≠ 0 → ht ≠ 0 → hdrOffset h = 54 →
        exec (.inByte x) s = .next { s with blk := { seek with rpos := 54, skip := 0, phase := .dPix }, env := e })
    ∧ (s.blk.op = 0x2 → w ≠ 0 → ht ≠ 0 → 54 < hdrOffset h →
        exec (.inByte x) s = .next { s with
          blk := { seek with rpos := 54, skip := BitVec.ofNat 32 (hdrOffset h - 54), phase := .dSkip }, env := e })
    ∧ (s.blk.op = 0x2 → w ≠ 0 → ht ≠ 0 → hdrOffset h < 54 →
        exec (.inByte x) s = .next { s with
          blk := { seek with rpos := BitVec.ofNat 6 (hdrOffset h), skip := 0, phase := .dPix }, env := e })

/-- R119: a gap byte is counted and discarded unexamined; the last one starts the pixel data. -/
def Obligations.GapByteIsDiscarded : Prop :=
  ∀ (x : Byte) (s : State), s.blk.phase = .dSkip →
    exec (.inByte x) s = .next { s with
      blk := { s.blk with
        pos := s.blk.pos + 1, skip := s.blk.skip - 1,
        phase := if s.blk.skip = 1 then .dPix else .dSkip },
      env := { s.env with inp := s.env.inp.tail } }

/-- R120: blue and green are held in pb; the red byte completes the pixel in POUT with its column and grid row; the row's last
pixel leads to the padding, the next row, or D_DRAIN. -/
def Obligations.PixelByteIsConsumed : Prop :=
  ∀ (x : Byte) (s : State), s.blk.phase = .dPix → s.blk.rpos = 54 → s.blk.pout = none →
    s.blk.k.toNat < 3 * s.blk.gw.toNat →
    let e : Env := { s.env with inp := s.env.inp.tail }
    let b : Block := { s.blk with pos := s.blk.pos + 1, k := s.blk.k + 1 }
    let p : PoutWord :=
      { r := x, g := s.blk.pb[1], b := s.blk.pb[0],
        last := decide (s.blk.j.toNat + 1 = s.blk.gh.toNat ∧ s.blk.k.toNat / 3 + 1 = s.blk.gw.toNat),
        col := BitVec.ofNat 32 (s.blk.k.toNat / 3), vrow := s.blk.gh - 1 - s.blk.j }
    let full : Block := { b with pout := some p, n := 0 }
    let rowDone := s.blk.k.toNat + 1 = 3 * s.blk.gw.toNat
    (s.blk.n = 0 → exec (.inByte x) s = .next { s with blk := { b with pb := b.pb.set 0 x, n := 1 }, env := e })
    ∧ (s.blk.n = 1 → exec (.inByte x) s = .next { s with blk := { b with pb := b.pb.set 1 x, n := 2 }, env := e })
    ∧ (s.blk.n = 2 → ¬ rowDone → exec (.inByte x) s = .next { s with blk := full, env := e })
    ∧ (s.blk.n = 2 → rowDone → padOf s.blk.gw.toNat ≠ 0 →
        exec (.inByte x) s = .next { s with blk := { full with phase := .dPad }, env := e })
    ∧ (s.blk.n = 2 → rowDone → padOf s.blk.gw.toNat = 0 →
        exec (.inByte x) s = .next { s with
          blk := { full with
            j := s.blk.j + 1, k := 0,
            phase := if s.blk.j + 1 = s.blk.gh then .dDrain else .dPix },
          env := e })

/-- R121, R122: a padding byte is counted and discarded, whatever it is; the row's last one ends the row, and the last row's
ends the command. -/
def Obligations.PaddingByteIsDiscarded : Prop :=
  ∀ (x : Byte) (s : State), s.blk.phase = .dPad → s.blk.rpos = 54 → s.blk.pout = none →
    s.blk.k.toNat < rowBytesOf s.blk.gw.toNat →
    let e : Env := { s.env with inp := s.env.inp.tail }
    (s.blk.k.toNat + 1 ≠ rowBytesOf s.blk.gw.toNat → exec (.inByte x) s = .next { s with
      blk := { s.blk with pos := s.blk.pos + 1, k := s.blk.k + 1 }, env := e })
    ∧ (s.blk.k.toNat + 1 = rowBytesOf s.blk.gw.toNat → exec (.inByte x) s = .next { s with
      blk := { s.blk with
        pos := s.blk.pos + 1, k := 0, j := s.blk.j + 1,
        phase := if s.blk.j + 1 = s.blk.gh then .done else .dPix },
      env := e })

/-- R96, R125: an EOS the block takes ends the run in ERROR with TRUNCATED, at stage HEADER in D_HDR and PIXEL after it; POS
is not incremented and a pixel in POUT is withdrawn. -/
def Obligations.EosTruncates : Prop :=
  ∀ (x : Byte) (s : State),
    let e : Env := { s.env with inp := s.env.inp.tail }
    (s.blk.phase = .dHdr → exec (.inEos x) s = .next { s with
      blk := { s.blk with errCode := .truncated, errStage := .header, pout := none, phase := .error }, env := e })
    ∧ (s.blk.phase = .dSkip ∨ ((s.blk.phase = .dPix ∨ s.blk.phase = .dPad) ∧ s.blk.rpos = 54 ∧ s.blk.pout = none) →
      exec (.inEos x) s = .next { s with
        blk := { s.blk with errCode := .truncated, errStage := .pixel, pout := none, phase := .error }, env := e })

/-- R126: the host's take of a POUT word gives it the word, empties POUT, and ends the command in D_DRAIN. -/
def Obligations.PoutTakeGivesPixel : Prop :=
  ∀ (s : State) (p : PoutWord), s.blk.pout = some p →
    exec .poutTake s = .next { s with
      blk := { s.blk with pout := none, phase := if s.blk.phase = .dDrain then .done else s.blk.phase },
      env := { s.env with pixelsOut := s.env.pixelsOut ++ [p.pack] } }

/-- R118: with no turn left, or on the block's own turn, an enabled replay step serves HDR[rpos] as the next data byte.  It
has the effect the byte would have from IN (with rpos at 54), but for rpos and for POS, which does not change. -/
def Obligations.ReplayServesHeaderByte : Prop :=
  ∀ (s : State), s.blk.phase = .dPix ∨ s.blk.phase = .dPad → (hr : s.blk.rpos.toNat < 54) → s.blk.pout = none →
    ∃ t t' : State,
      step { s with env := { s.env with turns := [] } } = .next { t with env := { t.env with turns := [] } }
      ∧ (∀ ts, step { s with env := { s.env with turns := .block :: ts } }
          = .next { t with env := { t.env with turns := ts } })
      ∧ exec (.inByte s.blk.hdr[s.blk.rpos.toNat]) { s with blk := { s.blk with rpos := 54 } } = .next t'
      ∧ t = { s with blk := { t'.blk with rpos := s.blk.rpos + 1, pos := s.blk.pos } }

/-- R156: a transfer the block is not ready for does not happen.  A take where nothing is offered does not either (R47, R126,
R158).  That such an attempt then answers the same state is the model's reading (DEDUCED, log 16). -/
def Obligations.UnreadyTransferDoesNotHappen : Prop :=
  ∀ (s : State) (x bl g r : Byte),
    (s.blk.inReady = false → exec (.inByte x) s = .next s ∧ exec (.inEos x) s = .next s)
    ∧ (s.blk.pinReady = false → exec (.pin x bl g r) s = .next s)
    ∧ (s.blk.pout = none → exec .poutTake s = .next s)
    ∧ (s.blk.boutValid = false → exec .boutTake s = .next s)

/-! ### The encode direction's transfers -/

/-- R138: a pixel taken from PIN loads ebuf with its bytes in on-disk order, blue, green, red, whatever the word's bits 31:24
are; BOUT is then valid and PIN not ready, and no further word is taken while a byte of it is left. -/
def Obligations.PinLoadsPixel : Prop :=
  ∀ (s : State) (x bl g r : Byte), s.blk.phase = .ePix →
    let b : Block := { s.blk with ebuf := #v[bl, g, r], en := 3 }
    (s.blk.en = 0 →
      exec (.pin x bl g r) s = .next { s with blk := b, env := { s.env with pin := s.env.pin.tail } }
      ∧ b.pinReady = false ∧ b.boutValid = true)
    ∧ (s.blk.en ≠ 0 → exec (.pin x bl g r) s = .next s)

/-- R136: in E_HDR the host takes HDR[hpos]; the 54th take starts the pixels, or ends the command when GW = 0. -/
def Obligations.HeaderByteIsEmitted : Prop :=
  ∀ s : State, s.blk.phase = .eHdr → (hp : s.blk.hpos.toNat < 54) →
    let e : Env := { s.env with bytesOut := s.env.bytesOut ++
      [boutWord (decide (s.blk.pos.toNat + 1 = 54 + rowBytesOf s.blk.gw.toNat * s.blk.gh.toNat))
        s.blk.hdr[s.blk.hpos.toNat]] }
    (s.blk.hpos.toNat < 53 → exec .boutTake s = .next { s with
      blk := { s.blk with pos := s.blk.pos + 1, hpos := s.blk.hpos + 1 }, env := e })
    ∧ (s.blk.hpos.toNat = 53 → exec .boutTake s = .next { s with
      blk := { s.blk with
        pos := s.blk.pos + 1, hpos := 54, j := 0, k := 0, en := 0,
        phase := if s.blk.gw = 0 then .done else .ePix },
      env := e })

/-- R139, R141: in E_PIX the host takes ebuf[3-en]; the last byte of the row's last pixel leads to the padding, the next row,
or DONE. -/
def Obligations.PixelByteIsEmitted : Prop :=
  ∀ s : State, s.blk.phase = .ePix → (hn : s.blk.en ≠ 0) → s.blk.k.toNat < 3 * s.blk.gw.toNat →
    let e : Env := { s.env with bytesOut := s.env.bytesOut ++
      [boutWord (decide (s.blk.pos.toNat + 1 = 54 + rowBytesOf s.blk.gw.toNat * s.blk.gh.toNat))
        (s.blk.ebuf.toList.getD (3 - s.blk.en.toNat) 0)] }
    let b : Block := { s.blk with pos := s.blk.pos + 1, k := s.blk.k + 1, en := s.blk.en - 1 }
    let rowDone := s.blk.en = 1 ∧ s.blk.k.toNat + 1 = 3 * s.blk.gw.toNat
    (¬ rowDone → exec .boutTake s = .next { s with blk := b, env := e })
    ∧ (rowDone → padOf s.blk.gw.toNat ≠ 0 → exec .boutTake s = .next { s with blk := { b with phase := .ePad }, env := e })
    ∧ (rowDone → padOf s.blk.gw.toNat = 0 → exec .boutTake s = .next { s with
        blk := { b with j := s.blk.j + 1, k := 0, phase := if s.blk.j + 1 = s.blk.gh then .done else .ePix },
        env := e })

/-- R140, R141: in E_PAD the host takes a zero byte; the row's last one ends the row, and the last row's ends the command. -/
def Obligations.PaddingByteIsEmitted : Prop :=
  ∀ s : State, s.blk.phase = .ePad → s.blk.k.toNat < rowBytesOf s.blk.gw.toNat →
    let e : Env := { s.env with bytesOut := s.env.bytesOut ++
      [boutWord (decide (s.blk.pos.toNat + 1 = 54 + rowBytesOf s.blk.gw.toNat * s.blk.gh.toNat)) 0x00] }
    (s.blk.k.toNat + 1 ≠ rowBytesOf s.blk.gw.toNat → exec .boutTake s = .next { s with
      blk := { s.blk with pos := s.blk.pos + 1, k := s.blk.k + 1 }, env := e })
    ∧ (s.blk.k.toNat + 1 = rowBytesOf s.blk.gw.toNat → exec .boutTake s = .next { s with
      blk := { s.blk with
        pos := s.blk.pos + 1, k := 0, j := s.blk.j + 1,
        phase := if s.blk.j + 1 = s.blk.gh then .done else .ePix },
      env := e })

/-! ### Frames -/

/-- What a channel transfer leaves alone: the registers the host writes, OP, IGN, the error record unless an error is entered,
and every header byte but the one an IN byte stores at hpos in D_HDR. -/
def Obligations.TransferFrame : Prop :=
  ∀ (s t : State) (x y bl g r : Byte),
    (∀ i ∈ ([.inByte y, .inEos y, .pin x bl g r, .poutTake, .boutTake] : List Instr), exec i s = .next t →
      t.cfg = s.cfg ∧ t.blk.encW = s.blk.encW ∧ t.blk.encH = s.blk.encH ∧ t.blk.op = s.blk.op ∧ t.blk.ign = s.blk.ign
      ∧ t.env.bus = s.env.bus ∧ t.env.turns = s.env.turns ∧ t.env.readBack = s.env.readBack
      ∧ (t.blk.phase ≠ .error →
          t.blk.errCode = s.blk.errCode ∧ t.blk.errVcause = s.blk.errVcause ∧ t.blk.errStage = s.blk.errStage))
    ∧ (∀ i ∈ ([.inByte y, .inEos y] : List Instr), exec i s = .next t →
      t.blk.ebuf = s.blk.ebuf ∧ t.blk.en = s.blk.en ∧ t.env.pin = s.env.pin ∧ t.env.pixelsOut = s.env.pixelsOut
      ∧ t.env.bytesOut = s.env.bytesOut
      ∧ (∀ a, a < 54 → ¬ (i = .inByte y ∧ s.blk.phase = .dHdr ∧ a = s.blk.hpos.toNat) →
          hdrAt t.blk.hdr a = hdrAt s.blk.hdr a))
    ∧ (exec (.pin x bl g r) s = .next t →
      t = { s with blk := { s.blk with ebuf := t.blk.ebuf, en := t.blk.en }, env := { s.env with pin := t.env.pin } })
    ∧ (exec .poutTake s = .next t →
      t = { s with blk := { s.blk with pout := none, phase := t.blk.phase },
                   env := { s.env with pixelsOut := t.env.pixelsOut } })
    ∧ (exec .boutTake s = .next t →
      t = { s with
        blk := { s.blk with
          pos := t.blk.pos, hpos := t.blk.hpos, j := t.blk.j, k := t.blk.k, en := t.blk.en, phase := t.blk.phase },
        env := { s.env with bytesOut := t.env.bytesOut } })

/-- What a command leaves alone: the host's side, ENC_W and ENC_H, every header byte unless it is an ENCODE that is accepted,
and pb and ebuf unless it starts (NOP and ABORT do not start, and nothing starts while busy). -/
def Obligations.CommandFrame : Prop :=
  ∀ (s t : State) (x : BitVec 28),
    ∀ i ∈ ([.nop x, .parse x, .decodeCmd x, .encodeCmd x, .rsvd4 x, .rsvd5 x, .rsvd6 x, .rsvd7 x, .rsvd8 x, .rsvd9 x,
        .rsvdA x, .rsvdB x, .rsvdC x, .rsvdD x, .rsvdE x, .abort x] : List Instr), exec i s = .next t →
      t.env = s.env ∧ t.cfg = s.cfg ∧ t.blk.encW = s.blk.encW ∧ t.blk.encH = s.blk.encH
      ∧ (i = .nop x ∨ i = .abort x ∨ s.blk.phase.busy = true → t.blk.pb = s.blk.pb ∧ t.blk.ebuf = s.blk.ebuf)
      ∧ (∀ a, a < 54 → i ≠ .encodeCmd x ∨ t.blk.phase ≠ .eHdr ∨ s.blk.phase.busy = true →
          hdrAt t.blk.hdr a = hdrAt s.blk.hdr a)

/-! ### The step -/

/-- A step on an interface runs the instruction the host's word there decodes to: on the bus the request has left its queue,
on IN and PIN the word is still offered (the meaning takes it), and a take carries no word. -/
def Obligations.StepRunsPresentedInstruction : Prop :=
  ∀ (s : State) (ts : List Turn),
    let at' : State := { s with env := { s.env with turns := ts } }
    (∀ r rest, s.env.turns = .port .bus :: ts → s.env.bus = r :: rest →
      step s = exec (decode (.bus r)) { s with env := { s.env with turns := ts, bus := rest } })
    ∧ (∀ w rest, s.env.turns = .port .inp :: ts → s.env.inp = w :: rest → step s = exec (decode (.inWord w)) at')
    ∧ (∀ w rest, s.env.turns = .port .pin :: ts → s.env.pin = w :: rest → step s = exec (decode (.pinWord w)) at')
    ∧ (s.env.turns = .port .pout :: ts → step s = exec .poutTake at')
    ∧ (s.env.turns = .port .bout :: ts → step s = exec .boutTake at')

/-- The host's table-word entry (log 3, log 4): the next step after `withFetchWord` runs exactly the decoded instruction. -/
def Obligations.FetchWordRunsNext : Prop :=
  ∀ (s : State) (nbits w : Nat) (i : Instr), decodeTableWord nbits w = some i →
    (nbits ≠ 16 → step (s.withFetchWord nbits w) = exec i s)
    ∧ (nbits = 16 → ∃ u : BitVec 9, u.toNat = w ∧
        step (s.withFetchWord nbits w) = exec i { s with env := { s.env with inp := u :: s.env.inp } })

/-- R179: a reset step puts every element at its reset value in any phase, and leaves the host's words with the host. -/
def Obligations.ResetStep : Prop :=
  ∀ (s : State) (ts : List Turn), s.env.turns = .reset :: ts →
    ∃ t, step s = .next t ∧ t.cfg = s.cfg ∧ t.env = { s.env with turns := ts }
      ∧ (∀ a, a < 54 → hdrAt t.blk.hdr a = 0)
      ∧ t.blk.encW = 0 ∧ t.blk.encH = 0 ∧ t.blk.op = 0 ∧ t.blk.phase = .idle ∧ t.blk.gw = 0 ∧ t.blk.gh = 0
      ∧ t.blk.errCode = .none ∧ t.blk.errVcause = 0 ∧ t.blk.errStage = .none ∧ t.blk.ign = false ∧ t.blk.hv = false
      ∧ t.blk.pos = 0 ∧ t.blk.hpos = 0 ∧ t.blk.skip = 0 ∧ t.blk.rpos = 0 ∧ t.blk.j = 0 ∧ t.blk.k = 0
      ∧ t.blk.pb = #v[0, 0] ∧ t.blk.n = 0 ∧ t.blk.pout = none ∧ t.blk.ebuf = #v[0, 0, 0] ∧ t.blk.en = 0
      ∧ t.blk.inReady = false ∧ t.blk.pinReady = false ∧ t.blk.boutValid = false

/-- R180: after reset every address of the register space reads 0. -/
def Obligations.ResetRegistersReadZero : Prop :=
  ∀ a : Byte, exec (.regRd a) State.reset =
    .next { State.reset with env := { State.reset.env with readBack := State.reset.env.readBack ++ [0] } }

/-- R62, R54: a step changes the block only where the hold is lifted: by the host's bus access, by reset, or by the one
transfer or internal step the phase waits for; in IDLE, DONE and ERROR by nothing else.  The internal step has the block's turn,
or a step with no turn left (log 2). -/
def Obligations.HoldLiftedOnlyBy : Prop :=
  ∀ s t : State, s.blk.Inv → step s = .next t → t.blk ≠ s.blk →
    let u := s.env.turns.head?
    u = some .reset ∨ u = some (.port .bus)
    ∨ ((s.blk.phase = .dHdr ∨ s.blk.phase = .dSkip) ∧ u = some (.port .inp))
    ∨ ((s.blk.phase = .dPix ∨ s.blk.phase = .dPad) ∧ s.blk.pout = none ∧ s.blk.rpos = 54 ∧ u = some (.port .inp))
    ∨ ((s.blk.phase = .dPix ∨ s.blk.phase = .dPad) ∧ s.blk.pout = none ∧ s.blk.rpos.toNat < 54
        ∧ (u = some .block ∨ u = none))
    ∨ ((s.blk.phase = .dPix ∨ s.blk.phase = .dPad) ∧ s.blk.pout.isSome = true ∧ u = some (.port .pout))
    ∨ (s.blk.phase = .dDrain ∧ u = some (.port .pout))
    ∨ ((s.blk.phase = .eHdr ∨ s.blk.phase = .ePad) ∧ u = some (.port .bout))
    ∨ (s.blk.phase = .ePix ∧ s.blk.en ≠ 0 ∧ u = some (.port .bout))
    ∨ (s.blk.phase = .ePix ∧ s.blk.en = 0 ∧ u = some (.port .pin))

/-! ### The whole machine -/

/-- The invariant holds right after reset. -/
def Obligations.ResetMeetsInv : Prop := State.reset.blk.Inv

/-- Every step keeps the invariant, from every state that meets it and on every turn. -/
def Obligations.StepKeepsInv : Prop :=
  ∀ s t : State, s.blk.Inv → step s = .next t → t.blk.Inv

/-- R36: no counter wraps.  In every state that meets the invariant each counter is within its range, and in the pixel phase
POS is within the bound the header gives. -/
def Obligations.CountersStayInRange : Prop :=
  ∀ b : Block, b.Inv →
    b.hpos.toNat ≤ 54 ∧ b.skip.toNat ≤ 2 ^ 32 - 55 ∧ b.j.toNat ≤ b.gh.toNat ∧ b.gh.toNat < 2 ^ 31
    ∧ b.k.toNat ≤ rowBytesOf b.gw.toNat ∧ rowBytesOf b.gw.toNat < 2 ^ 33 ∧ b.pos.toNat + 1 < 2 ^ 64
    ∧ (b.phase ∈ [.dSkip, .dPix, .dPad, .dDrain] →
        (54 ≤ hdrOffset b.hdr → b.pos.toNat ≤ hdrOffset b.hdr + rowBytesOf b.gw.toNat * b.gh.toNat)
        ∧ (hdrOffset b.hdr < 54 → b.pos.toNat ≤ 54 + rowBytesOf b.gw.toNat * b.gh.toNat))

/-- R27: a step other than a reset keeps the phase or takes an edge of the phase graph, and a reset leads to IDLE. -/
def Obligations.PhaseGraph : Prop :=
  ∀ s t : State, step s = .next t →
    (s.env.turns.head? = some .reset → t.blk.phase = .idle)
    ∧ (s.env.turns.head? ≠ some .reset → t.blk.phase = s.blk.phase ∨ t.blk.phase ∈ s.blk.phase.next)

/-- R191: once IN_RDY is 1, no step but an IN transfer, an ABORT or a reset changes it, and once PIN_RDY is 1, none but a PIN
transfer, an ABORT or a reset. -/
def Obligations.InReadyPersists : Prop :=
  ∀ s t : State, step s = .next t →
    let u := s.env.turns.head?
    let abort := u = some (.port .bus) ∧ ∃ v, s.env.bus.head? = some (.write 0x00 v) ∧ cmdOp v = 0xF
    (s.blk.inReady = true → t.blk.inReady = true
      ∨ (u = some (.port .inp) ∧ s.env.inp ≠ []) ∨ abort ∨ u = some .reset)
    ∧ (s.blk.pinReady = true → t.blk.pinReady = true
      ∨ (u = some (.port .pin) ∧ s.env.pin ≠ []) ∨ abort ∨ u = some .reset)

/-- R18, R193: from states that differ only in ENC_W and ENC_H, a channel transfer or an internal step leads to states that
differ only in the same way.  So does every bus request and reset, but for the value it puts in the two itself, unless it is an
ENCODE that starts or a host's read of one of the two: PARSE, DECODE, the reserved opcodes, ABORT, NOP, an ENCODE while busy,
and every other register access read neither. -/
def Obligations.TransfersIgnoreEncodeRegisters : Prop :=
  ∀ (s t : State) (w h : Word), step s = .next t →
    let u := s.env.turns.head?
    let s' : State := { s with blk := { s.blk with encW := w, encH := h } }
    (u ≠ some (.port .bus) → u ≠ some .reset →
      step s' = .next { t with blk := { t.blk with encW := w, encH := h } })
    ∧ ((u = some (.port .bus) →
          s.env.bus.head? ≠ some (.read 0x30) ∧ s.env.bus.head? ≠ some (.read 0x34)
          ∧ ∀ v, s.env.bus.head? = some (.write 0x00 v) → cmdOp v = 0x3 → s.blk.phase.busy = true) →
        ∃ w' h', (w' = w ∨ w' = t.blk.encW) ∧ (h' = h ∨ h' = t.blk.encH)
          ∧ step s' = .next { t with blk := { t.blk with encW := w', encH := h' } })

/-- R48: no channel loses, repeats or reorders a word.  On IN and PIN, on the channel's turn with the block ready and a word
offered, the head of the queue leaves it and the block takes that word; on every other step the queue stays, and on the
channel's own turn the block too.  On POUT and BOUT, on the host's take of a word the block offers, the host receives that word
once and the block no longer holds it; on every other step the host receives none.  An offered word stays until it is taken,
and only an ABORT or a reset withdraws it. -/
def Obligations.ChannelsLoseNothing : Prop :=
  ∀ s t : State, s.blk.Inv → step s = .next t →
    let u := s.env.turns.head?
    let withdrawn := u = some .reset
      ∨ (u = some (.port .bus) ∧ ∃ v, s.env.bus.head? = some (.write 0x00 v) ∧ cmdOp v = 0xF)
    ((u = some (.port .inp) ∧ s.blk.inReady = true ∧ ∃ w, s.env.inp = w :: t.env.inp
        ∧ (w.getLsbD 8 = false → t.blk = s.blk.takeByte (w.extractLsb' 0 8) ∧ t.blk.pos = s.blk.pos + 1)
        ∧ (w.getLsbD 8 = true → t.blk = s.blk.takeEos ∧ t.blk.phase = .error ∧ t.blk.errCode = .truncated))
      ∨ (t.env.inp = s.env.inp ∧ ¬ (u = some (.port .inp) ∧ s.blk.inReady = true ∧ s.env.inp ≠ [])
        ∧ (u = some (.port .inp) → t.blk = s.blk)))
    ∧ ((u = some (.port .pin) ∧ s.blk.pinReady = true ∧ ∃ w, s.env.pin = w :: t.env.pin
        ∧ t.blk = { s.blk with ebuf := #v[w.extractLsb' 16 8, w.extractLsb' 8 8, w.extractLsb' 0 8], en := 3 })
      ∨ (t.env.pin = s.env.pin ∧ ¬ (u = some (.port .pin) ∧ s.blk.pinReady = true ∧ s.env.pin ≠ [])
        ∧ (u = some (.port .pin) → t.blk = s.blk)))
    ∧ ((u = some (.port .pout) ∧ t.blk.pout = none
        ∧ ∃ p, s.blk.pout = some p ∧ t.env.pixelsOut = s.env.pixelsOut ++ [p.pack])
      ∨ (t.env.pixelsOut = s.env.pixelsOut ∧ ¬ (u = some (.port .pout) ∧ s.blk.pout.isSome = true)
        ∧ (u = some (.port .pout) → t.blk = s.blk)))
    ∧ ((u = some (.port .bout) ∧ s.blk.boutValid = true ∧ t.env.bytesOut = s.env.bytesOut ++ [s.blk.boutOffer]
        ∧ t.blk = s.blk.boutTaken ∧ t.blk.pos = s.blk.pos + 1)
      ∨ (t.env.bytesOut = s.env.bytesOut ∧ ¬ (u = some (.port .bout) ∧ s.blk.boutValid = true)
        ∧ (u = some (.port .bout) → t.blk = s.blk)))
    ∧ (∀ p, s.blk.pout = some p → t.blk.pout = some p ∨ u = some (.port .pout) ∨ withdrawn)
    ∧ (s.blk.boutValid = true →
        (t.blk.boutValid = true ∧ t.blk.boutOffer = s.blk.boutOffer) ∨ u = some (.port .bout) ∨ withdrawn)

/-- R9: no step changes what the build fixes. -/
def Obligations.StepKeepsConfig : Prop :=
  ∀ s t : State, step s = .next t → t.cfg = s.cfg

/-! ### Whole commands -/

/-- R107: on every schedule of the channels that gives IN enough turns, PARSE of a source ends as `parseHeader` says: in DONE
with the header latched after exactly 54 bytes, or in ERROR with its kind, cause, stage HEADER and position. -/
def Obligations.ParseRefinesParseHeader : Prop :=
  ∀ (s : State) (src : List Byte) (ts : List Turn), FeedsSource s 0x1 src ts → channelsOnly ts →
    min (src.length + 1) 54 ≤ ts.count (.port .inp) →
    ∃ t, core.run (ts.length + 1) s = .next t
      ∧ t.env.pixelsOut = s.env.pixelsOut ∧ t.env.bytesOut = s.env.bytesOut
      ∧ (∀ h, parseHeader src = .ok h →
          t.blk.phase = .done ∧ t.blk.hdr = h ∧ t.blk.hv = true ∧ t.blk.gw.toNat = u32le h 18
          ∧ t.blk.gh.toNat = u32le h 22 ∧ t.blk.pos = 54 ∧ t.env.inp = s.env.inp.drop 54)
      ∧ (∀ e, parseHeader src = .error e →
          t.blk.phase = .error ∧ t.blk.errCode = e.code ∧ t.blk.errVcause = e.vcause ∧ t.blk.errStage = .header
          ∧ t.blk.pos.toNat = min src.length 54 ∧ t.env.inp = s.env.inp.drop (min (src.length + 1) 54))

/-- R129: on every schedule of the channels, at every point of the run, DECODE of a source is still busy, or is in DONE having
given exactly the pixels of `decodeImage`'s grid in stored order, or is in ERROR with `decodeImage`'s error. -/
def Obligations.DecodeRefinesDecodeImage : Prop :=
  ∀ (s : State) (src : List Byte) (ts : List Turn), FeedsSource s 0x2 src ts → channelsOnly ts →
    ∀ n, ∃ t, core.run (n + 1) s = .next t
      ∧ t.env.bytesOut = s.env.bytesOut
      ∧ (t.blk.phase = .done ∨ t.blk.phase = .error ∨ t.blk.phase.busy = true)
      ∧ (t.blk.phase = .done → ∃ g, decodeImage src = .ok g
          ∧ t.env.pixelsOut = s.env.pixelsOut ++ gridWords g t.blk.gw.toNat t.blk.gh.toNat
          ∧ t.blk.gw.toNat = u32le (headerOf src) 18 ∧ t.blk.gh.toNat = u32le (headerOf src) 22
          ∧ t.blk.pos.toNat = (if pixelBytes (headerOf src) = 0 then 54
              else max 54 (hdrOffset (headerOf src) + pixelBytes (headerOf src)))
          ∧ t.env.inp = s.env.inp.drop t.blk.pos.toNat)
      ∧ (t.blk.phase = .error → ∃ e, decodeImage src = .error e
          ∧ t.blk.errCode = e.code ∧ t.blk.errVcause = e.vcause
          ∧ (∀ h, parseHeader src = .ok h → t.blk.errStage = .pixel ∧ t.blk.pos.toNat = src.length
              ∧ t.env.inp = s.env.inp.drop (src.length + 1))
          ∧ (∀ e', parseHeader src = .error e' → t.blk.errStage = .header
              ∧ t.blk.pos.toNat = min src.length 54))

/-- R129, R6: a host that keeps taking and offering sees DECODE end: after enough rounds the run is in DONE or ERROR. -/
def Obligations.DecodeEnds : Prop :=
  ∀ (s : State) (src : List Byte) (n : Nat), FeedsSource s 0x2 src (decodeRounds n) → 2 * (src.length + 60) ≤ n →
    ∃ t, core.run ((decodeRounds n).length + 1) s = .next t ∧ (t.blk.phase = .done ∨ t.blk.phase = .error)

/-- R145: on every schedule of the channels, at every point of the run, ENCODE is in ERROR with `encodeImage`'s error having
given no byte, or has given the first POS bytes of its file; in DONE it has given all of it, LAST on the final byte only, and
has taken exactly the grid's pixels. -/
def Obligations.EncodeRefinesEncodeImage : Prop :=
  ∀ (s : State) (w h : Word) (g : Grid) (ts : List Turn), FeedsGrid s w h g ts → channelsOnly ts →
    ∀ n, ∃ t, core.run (n + 3) s = .next t
      ∧ t.env.pixelsOut = s.env.pixelsOut
      ∧ (∀ e, encodeImage s.cfg w.toNat h.toNat g = .error e →
          t.blk.phase = .error ∧ t.blk.errCode = e.code ∧ t.blk.errStage = .command
          ∧ t.env.bytesOut = s.env.bytesOut ∧ t.env.pin = s.env.pin)
      ∧ (∀ out, encodeImage s.cfg w.toNat h.toNat g = .ok out →
          (t.blk.phase = .done ∨ t.blk.phase.busy = true)
          ∧ t.env.bytesOut = s.env.bytesOut ++ (fileWords out).take t.blk.pos.toNat
          ∧ (t.blk.phase = .done → t.env.bytesOut = s.env.bytesOut ++ fileWords out
              ∧ out.length = fileSizeOf w.toNat h.toNat
              ∧ t.env.pin = s.env.pin.drop (w.toNat * h.toNat)))

/-- R142, R61: a host that keeps offering and taking sees an accepted ENCODE end in DONE after one round for each byte of the
file. -/
def Obligations.EncodeEnds : Prop :=
  ∀ (s : State) (w h : Word) (g : Grid) (n : Nat) (out : List Byte), FeedsGrid s w h g (encodeRounds n) →
    encodeImage s.cfg w.toNat h.toNat g = .ok out → out.length ≤ n →
    ∃ t, core.run ((encodeRounds n).length + 3) s = .next t ∧ t.blk.phase = .done

/-- R145: decoding an encoded grid gives the grid back, for every geometry the checks accept. -/
def Obligations.DecodeOfEncodedGrid : Prop :=
  ∀ (cfg : Config) (w h : Nat) (g : Grid) (out : List Byte), g.hasSize w h →
    encodeImage cfg w h g = .ok out → decodeImage out = .ok g

/-- R148: the outcome of a command never depends on an earlier one.  From two states that are not busy and agree on ENC_W,
ENC_H, the build and the host, a PARSE, DECODE or ENCODE gives the host the same words on every schedule of the channels, and
every register but the HF_* views reads the same at every point, the HF_* views too once HV = 1. -/
def Obligations.CommandIgnoresHistory : Prop :=
  ∀ (s₁ s₂ : State) (v : Word) (rest : List BusReq) (ts : List Turn),
    s₁.blk.phase.busy = false → s₂.blk.phase.busy = false → s₁.env = s₂.env → s₁.cfg = s₂.cfg →
    s₁.blk.encW = s₂.blk.encW → s₁.blk.encH = s₂.blk.encH →
    s₁.env.bus = .write 0x00 v :: rest → cmdOp v ∈ [0x1#4, 0x2#4, 0x3#4] → s₁.env.turns = .port .bus :: ts → channelsOnly ts →
    ∀ n, ∃ t₁ t₂, core.run (n + 1) s₁ = .next t₁ ∧ core.run (n + 1) s₂ = .next t₂
      ∧ t₁.env = t₂.env
      ∧ (∀ a : Byte, a.toNat < 0x40 ∨ 0x7C ≤ a.toNat → t₁.blk.readReg a = t₂.blk.readReg a)
      ∧ (t₁.blk.hv = true → ∀ a : Byte, t₁.blk.readReg a = t₂.blk.readReg a)
end

