-- ==== Sys2Proof/Laws/Bytes.lean ====
section
/-! SUPPORT. Little-endian bytes, header views and the padding function: the small lemmas that later proofs cite instead of
unfolding `leBytes`, `u32le` and `padOf`. -/

namespace Sys2Proof

theorem leBytes_zero (v : Nat) : leBytes 0 v = [] := rfl

theorem leBytes_succ (n v : Nat) : leBytes (n + 1) v = BitVec.ofNat 8 v :: leBytes n (v / 256) := by
  simp only [leBytes, List.range_succ_eq_map, List.map_cons, List.map_map]
  refine congrArg₂ _ (by simp) (List.map_congr_left fun m _ => ?_)
  simp only [Function.comp]
  rw [show 8 * Nat.succ m = 8 + 8 * m by omega, Nat.shiftRight_add, Nat.shiftRight_eq_div_pow v 8]

theorem leNat_leBytes (n v : Nat) (h : v < 256 ^ n) : leNat (leBytes n v) = v := by
  induction n generalizing v with
  | zero => simp at h; subst h; rfl
  | succ n ih =>
    have hv : v / 256 < 256 ^ n := by rw [Nat.pow_succ] at h; omega
    rw [leBytes_succ, leNat, ih _ hv, BitVec.toNat_ofNat]
    omega

theorem leNat_lt (bs : List Byte) : leNat bs < 256 ^ bs.length := by
  induction bs with
  | nil => simp [leNat]
  | cons b bs ih =>
    have hb : b.toNat < 256 := b.isLt
    rw [leNat, List.length_cons, Nat.pow_succ]
    omega

theorem leBytes_leNat (bs : List Byte) : leBytes bs.length (leNat bs) = bs := by
  induction bs with
  | nil => rfl
  | cons b bs ih =>
    have hb : b.toNat < 256 := b.isLt
    rw [List.length_cons, leBytes_succ, leNat]
    congr 1
    · apply BitVec.eq_of_toNat_eq; rw [BitVec.toNat_ofNat]; omega
    · rw [show (b.toNat + 256 * leNat bs) / 256 = leNat bs by omega]; exact ih

namespace Machine

theorem u16le_lt (h : Vector Byte 54) (i : Nat) : u16le h i < 2 ^ 16 := by
  have h0 := (hdrAt h i).isLt; have h1 := (hdrAt h (i + 1)).isLt
  unfold u16le; omega

theorem u32le_lt (h : Vector Byte 54) (i : Nat) : u32le h i < 2 ^ 32 := by
  have h0 := (hdrAt h i).isLt; have h1 := (hdrAt h (i + 1)).isLt
  have h2 := (hdrAt h (i + 2)).isLt; have h3 := (hdrAt h (i + 3)).isLt
  unfold u32le; omega

theorem u16le_eq_leNat (h : Vector Byte 54) (i : Nat) : u16le h i = leNat [hdrAt h i, hdrAt h (i + 1)] := by
  simp [u16le, leNat]

theorem u32le_eq_leNat (h : Vector Byte 54) (i : Nat) :
    u32le h i = leNat [hdrAt h i, hdrAt h (i + 1), hdrAt h (i + 2), hdrAt h (i + 3)] := by
  simp only [u32le, leNat]; omega

/-- An in-range header byte is the vector's element. -/
theorem hdrAt_of_lt (h : Vector Byte 54) {i : Nat} (hi : i < 54) : hdrAt h i = h[i] := by
  simp [hdrAt, hi]

/-- Byte `i` of a generated header is byte `i` of its list. -/
theorem hdrAt_genHeader (cfg : Config) (w h i : Nat) : hdrAt (genHeader cfg w h) i = (genHeaderBytes cfg w h).getD i 0 := by
  simp [hdrAt, genHeader]

theorem s32_neg_iff {v : Nat} (h : v < 2 ^ 32) : s32 v < 0 ↔ 2 ^ 31 ≤ v := by
  unfold s32; split <;> omega

theorem padOf_eq (w : Nat) : padOf w = w % 4 := by
  unfold padOf Config.rowAlign; omega

theorem rowBytesOf_eq (w : Nat) : rowBytesOf w = 3 * w + w % 4 := by
  rw [rowBytesOf, padOf_eq]

theorem rowBytesOf_le {w : Nat} (h : w < 2 ^ 31) : rowBytesOf w ≤ 3 * 2 ^ 31 := by
  rw [rowBytesOf_eq]; omega

theorem rowBytesOf_pos {w : Nat} : 0 < rowBytesOf w ↔ w ≠ 0 := by
  rw [rowBytesOf_eq]; omega

end Machine

end Sys2Proof
end

