-- ==== Sys2Proof/Laws/State.lean ====
section
/-! SUPPORT. One lemma per field for each update that the meanings share, true by rfl, so that no proof unfolds a record
update: entering an error, starting a command, the host's take of a pixel, loading a pixel, and the host's queues. -/

namespace Sys2Proof.Machine

/-! ### `Block.raiseError` -/

@[simp] theorem Block.raiseError_hdr (c : ErrCode) (g : Stage) (b : Block) : (b.raiseError c g).hdr = b.hdr := rfl
@[simp] theorem Block.raiseError_encW (c : ErrCode) (g : Stage) (b : Block) : (b.raiseError c g).encW = b.encW := rfl
@[simp] theorem Block.raiseError_encH (c : ErrCode) (g : Stage) (b : Block) : (b.raiseError c g).encH = b.encH := rfl
@[simp] theorem Block.raiseError_op (c : ErrCode) (g : Stage) (b : Block) : (b.raiseError c g).op = b.op := rfl
@[simp] theorem Block.raiseError_phase (c : ErrCode) (g : Stage) (b : Block) : (b.raiseError c g).phase = .error := rfl
@[simp] theorem Block.raiseError_gw (c : ErrCode) (g : Stage) (b : Block) : (b.raiseError c g).gw = b.gw := rfl
@[simp] theorem Block.raiseError_gh (c : ErrCode) (g : Stage) (b : Block) : (b.raiseError c g).gh = b.gh := rfl
@[simp] theorem Block.raiseError_errCode (c : ErrCode) (g : Stage) (b : Block) : (b.raiseError c g).errCode = c := rfl
@[simp] theorem Block.raiseError_errVcause (c : ErrCode) (g : Stage) (b : Block) : (b.raiseError c g).errVcause = b.errVcause := rfl
@[simp] theorem Block.raiseError_errStage (c : ErrCode) (g : Stage) (b : Block) : (b.raiseError c g).errStage = g := rfl
@[simp] theorem Block.raiseError_ign (c : ErrCode) (g : Stage) (b : Block) : (b.raiseError c g).ign = b.ign := rfl
@[simp] theorem Block.raiseError_hv (c : ErrCode) (g : Stage) (b : Block) : (b.raiseError c g).hv = b.hv := rfl
@[simp] theorem Block.raiseError_pos (c : ErrCode) (g : Stage) (b : Block) : (b.raiseError c g).pos = b.pos := rfl
@[simp] theorem Block.raiseError_hpos (c : ErrCode) (g : Stage) (b : Block) : (b.raiseError c g).hpos = b.hpos := rfl
@[simp] theorem Block.raiseError_skip (c : ErrCode) (g : Stage) (b : Block) : (b.raiseError c g).skip = b.skip := rfl
@[simp] theorem Block.raiseError_rpos (c : ErrCode) (g : Stage) (b : Block) : (b.raiseError c g).rpos = b.rpos := rfl
@[simp] theorem Block.raiseError_j (c : ErrCode) (g : Stage) (b : Block) : (b.raiseError c g).j = b.j := rfl
@[simp] theorem Block.raiseError_k (c : ErrCode) (g : Stage) (b : Block) : (b.raiseError c g).k = b.k := rfl
@[simp] theorem Block.raiseError_pb (c : ErrCode) (g : Stage) (b : Block) : (b.raiseError c g).pb = b.pb := rfl
@[simp] theorem Block.raiseError_n (c : ErrCode) (g : Stage) (b : Block) : (b.raiseError c g).n = b.n := rfl
@[simp] theorem Block.raiseError_pout (c : ErrCode) (g : Stage) (b : Block) : (b.raiseError c g).pout = none := rfl
@[simp] theorem Block.raiseError_ebuf (c : ErrCode) (g : Stage) (b : Block) : (b.raiseError c g).ebuf = b.ebuf := rfl
@[simp] theorem Block.raiseError_en (c : ErrCode) (g : Stage) (b : Block) : (b.raiseError c g).en = b.en := rfl

/-! ### `Block.commandStart` -/

@[simp] theorem Block.commandStart_hdr (o : BitVec 4) (b : Block) : (b.commandStart o).hdr = b.hdr := rfl
@[simp] theorem Block.commandStart_encW (o : BitVec 4) (b : Block) : (b.commandStart o).encW = b.encW := rfl
@[simp] theorem Block.commandStart_encH (o : BitVec 4) (b : Block) : (b.commandStart o).encH = b.encH := rfl
@[simp] theorem Block.commandStart_op (o : BitVec 4) (b : Block) : (b.commandStart o).op = o := rfl
@[simp] theorem Block.commandStart_phase (o : BitVec 4) (b : Block) : (b.commandStart o).phase = b.phase := rfl
@[simp] theorem Block.commandStart_gw (o : BitVec 4) (b : Block) : (b.commandStart o).gw = 0 := rfl
@[simp] theorem Block.commandStart_gh (o : BitVec 4) (b : Block) : (b.commandStart o).gh = 0 := rfl
@[simp] theorem Block.commandStart_errCode (o : BitVec 4) (b : Block) : (b.commandStart o).errCode = .none := rfl
@[simp] theorem Block.commandStart_errVcause (o : BitVec 4) (b : Block) : (b.commandStart o).errVcause = 0 := rfl
@[simp] theorem Block.commandStart_errStage (o : BitVec 4) (b : Block) : (b.commandStart o).errStage = .none := rfl
@[simp] theorem Block.commandStart_ign (o : BitVec 4) (b : Block) : (b.commandStart o).ign = false := rfl
@[simp] theorem Block.commandStart_hv (o : BitVec 4) (b : Block) : (b.commandStart o).hv = false := rfl
@[simp] theorem Block.commandStart_pos (o : BitVec 4) (b : Block) : (b.commandStart o).pos = 0 := rfl
@[simp] theorem Block.commandStart_hpos (o : BitVec 4) (b : Block) : (b.commandStart o).hpos = 0 := rfl
@[simp] theorem Block.commandStart_skip (o : BitVec 4) (b : Block) : (b.commandStart o).skip = 0 := rfl
@[simp] theorem Block.commandStart_rpos (o : BitVec 4) (b : Block) : (b.commandStart o).rpos = 0 := rfl
@[simp] theorem Block.commandStart_j (o : BitVec 4) (b : Block) : (b.commandStart o).j = 0 := rfl
@[simp] theorem Block.commandStart_k (o : BitVec 4) (b : Block) : (b.commandStart o).k = 0 := rfl
@[simp] theorem Block.commandStart_pb (o : BitVec 4) (b : Block) : (b.commandStart o).pb = #v[0, 0] := rfl
@[simp] theorem Block.commandStart_n (o : BitVec 4) (b : Block) : (b.commandStart o).n = 0 := rfl
@[simp] theorem Block.commandStart_pout (o : BitVec 4) (b : Block) : (b.commandStart o).pout = none := rfl
@[simp] theorem Block.commandStart_ebuf (o : BitVec 4) (b : Block) : (b.commandStart o).ebuf = #v[0, 0, 0] := rfl
@[simp] theorem Block.commandStart_en (o : BitVec 4) (b : Block) : (b.commandStart o).en = 0 := rfl

/-! ### `Block.startDecodeFamily` -/

@[simp] theorem Block.startDecodeFamily_hdr (o : BitVec 4) (b : Block) : (b.startDecodeFamily o).hdr = b.hdr := rfl
@[simp] theorem Block.startDecodeFamily_encW (o : BitVec 4) (b : Block) : (b.startDecodeFamily o).encW = b.encW := rfl
@[simp] theorem Block.startDecodeFamily_encH (o : BitVec 4) (b : Block) : (b.startDecodeFamily o).encH = b.encH := rfl
@[simp] theorem Block.startDecodeFamily_op (o : BitVec 4) (b : Block) : (b.startDecodeFamily o).op = o := rfl
@[simp] theorem Block.startDecodeFamily_phase (o : BitVec 4) (b : Block) : (b.startDecodeFamily o).phase = .dHdr := rfl
@[simp] theorem Block.startDecodeFamily_gw (o : BitVec 4) (b : Block) : (b.startDecodeFamily o).gw = 0 := rfl
@[simp] theorem Block.startDecodeFamily_gh (o : BitVec 4) (b : Block) : (b.startDecodeFamily o).gh = 0 := rfl
@[simp] theorem Block.startDecodeFamily_errCode (o : BitVec 4) (b : Block) : (b.startDecodeFamily o).errCode = .none := rfl
@[simp] theorem Block.startDecodeFamily_errVcause (o : BitVec 4) (b : Block) : (b.startDecodeFamily o).errVcause = 0 := rfl
@[simp] theorem Block.startDecodeFamily_errStage (o : BitVec 4) (b : Block) : (b.startDecodeFamily o).errStage = .none := rfl
@[simp] theorem Block.startDecodeFamily_ign (o : BitVec 4) (b : Block) : (b.startDecodeFamily o).ign = false := rfl
@[simp] theorem Block.startDecodeFamily_hv (o : BitVec 4) (b : Block) : (b.startDecodeFamily o).hv = false := rfl
@[simp] theorem Block.startDecodeFamily_pos (o : BitVec 4) (b : Block) : (b.startDecodeFamily o).pos = 0 := rfl
@[simp] theorem Block.startDecodeFamily_hpos (o : BitVec 4) (b : Block) : (b.startDecodeFamily o).hpos = 0 := rfl
@[simp] theorem Block.startDecodeFamily_skip (o : BitVec 4) (b : Block) : (b.startDecodeFamily o).skip = 0 := rfl
@[simp] theorem Block.startDecodeFamily_rpos (o : BitVec 4) (b : Block) : (b.startDecodeFamily o).rpos = 0 := rfl
@[simp] theorem Block.startDecodeFamily_j (o : BitVec 4) (b : Block) : (b.startDecodeFamily o).j = 0 := rfl
@[simp] theorem Block.startDecodeFamily_k (o : BitVec 4) (b : Block) : (b.startDecodeFamily o).k = 0 := rfl
@[simp] theorem Block.startDecodeFamily_pb (o : BitVec 4) (b : Block) : (b.startDecodeFamily o).pb = #v[0, 0] := rfl
@[simp] theorem Block.startDecodeFamily_n (o : BitVec 4) (b : Block) : (b.startDecodeFamily o).n = 0 := rfl
@[simp] theorem Block.startDecodeFamily_pout (o : BitVec 4) (b : Block) : (b.startDecodeFamily o).pout = none := rfl
@[simp] theorem Block.startDecodeFamily_ebuf (o : BitVec 4) (b : Block) : (b.startDecodeFamily o).ebuf = #v[0, 0, 0] := rfl
@[simp] theorem Block.startDecodeFamily_en (o : BitVec 4) (b : Block) : (b.startDecodeFamily o).en = 0 := rfl

/-! ### `Block.badCommand` -/

@[simp] theorem Block.badCommand_hdr (o : BitVec 4) (b : Block) : (b.badCommand o).hdr = b.hdr := rfl
@[simp] theorem Block.badCommand_encW (o : BitVec 4) (b : Block) : (b.badCommand o).encW = b.encW := rfl
@[simp] theorem Block.badCommand_encH (o : BitVec 4) (b : Block) : (b.badCommand o).encH = b.encH := rfl
@[simp] theorem Block.badCommand_op (o : BitVec 4) (b : Block) : (b.badCommand o).op = o := rfl
@[simp] theorem Block.badCommand_phase (o : BitVec 4) (b : Block) : (b.badCommand o).phase = .error := rfl
@[simp] theorem Block.badCommand_gw (o : BitVec 4) (b : Block) : (b.badCommand o).gw = 0 := rfl
@[simp] theorem Block.badCommand_gh (o : BitVec 4) (b : Block) : (b.badCommand o).gh = 0 := rfl
@[simp] theorem Block.badCommand_errCode (o : BitVec 4) (b : Block) : (b.badCommand o).errCode = .badCommand := rfl
@[simp] theorem Block.badCommand_errVcause (o : BitVec 4) (b : Block) : (b.badCommand o).errVcause = 0 := rfl
@[simp] theorem Block.badCommand_errStage (o : BitVec 4) (b : Block) : (b.badCommand o).errStage = .command := rfl
@[simp] theorem Block.badCommand_ign (o : BitVec 4) (b : Block) : (b.badCommand o).ign = false := rfl
@[simp] theorem Block.badCommand_hv (o : BitVec 4) (b : Block) : (b.badCommand o).hv = false := rfl
@[simp] theorem Block.badCommand_pos (o : BitVec 4) (b : Block) : (b.badCommand o).pos = 0 := rfl
@[simp] theorem Block.badCommand_hpos (o : BitVec 4) (b : Block) : (b.badCommand o).hpos = 0 := rfl
@[simp] theorem Block.badCommand_skip (o : BitVec 4) (b : Block) : (b.badCommand o).skip = 0 := rfl
@[simp] theorem Block.badCommand_rpos (o : BitVec 4) (b : Block) : (b.badCommand o).rpos = 0 := rfl
@[simp] theorem Block.badCommand_j (o : BitVec 4) (b : Block) : (b.badCommand o).j = 0 := rfl
@[simp] theorem Block.badCommand_k (o : BitVec 4) (b : Block) : (b.badCommand o).k = 0 := rfl
@[simp] theorem Block.badCommand_pb (o : BitVec 4) (b : Block) : (b.badCommand o).pb = #v[0, 0] := rfl
@[simp] theorem Block.badCommand_n (o : BitVec 4) (b : Block) : (b.badCommand o).n = 0 := rfl
@[simp] theorem Block.badCommand_pout (o : BitVec 4) (b : Block) : (b.badCommand o).pout = none := rfl
@[simp] theorem Block.badCommand_ebuf (o : BitVec 4) (b : Block) : (b.badCommand o).ebuf = #v[0, 0, 0] := rfl
@[simp] theorem Block.badCommand_en (o : BitVec 4) (b : Block) : (b.badCommand o).en = 0 := rfl

/-! ### `Block.poutTaken` -/

@[simp] theorem Block.poutTaken_hdr (b : Block) : (b.poutTaken).hdr = b.hdr := rfl
@[simp] theorem Block.poutTaken_encW (b : Block) : (b.poutTaken).encW = b.encW := rfl
@[simp] theorem Block.poutTaken_encH (b : Block) : (b.poutTaken).encH = b.encH := rfl
@[simp] theorem Block.poutTaken_op (b : Block) : (b.poutTaken).op = b.op := rfl
@[simp] theorem Block.poutTaken_phase (b : Block) : (b.poutTaken).phase = if b.phase = .dDrain then .done else b.phase := rfl
@[simp] theorem Block.poutTaken_gw (b : Block) : (b.poutTaken).gw = b.gw := rfl
@[simp] theorem Block.poutTaken_gh (b : Block) : (b.poutTaken).gh = b.gh := rfl
@[simp] theorem Block.poutTaken_errCode (b : Block) : (b.poutTaken).errCode = b.errCode := rfl
@[simp] theorem Block.poutTaken_errVcause (b : Block) : (b.poutTaken).errVcause = b.errVcause := rfl
@[simp] theorem Block.poutTaken_errStage (b : Block) : (b.poutTaken).errStage = b.errStage := rfl
@[simp] theorem Block.poutTaken_ign (b : Block) : (b.poutTaken).ign = b.ign := rfl
@[simp] theorem Block.poutTaken_hv (b : Block) : (b.poutTaken).hv = b.hv := rfl
@[simp] theorem Block.poutTaken_pos (b : Block) : (b.poutTaken).pos = b.pos := rfl
@[simp] theorem Block.poutTaken_hpos (b : Block) : (b.poutTaken).hpos = b.hpos := rfl
@[simp] theorem Block.poutTaken_skip (b : Block) : (b.poutTaken).skip = b.skip := rfl
@[simp] theorem Block.poutTaken_rpos (b : Block) : (b.poutTaken).rpos = b.rpos := rfl
@[simp] theorem Block.poutTaken_j (b : Block) : (b.poutTaken).j = b.j := rfl
@[simp] theorem Block.poutTaken_k (b : Block) : (b.poutTaken).k = b.k := rfl
@[simp] theorem Block.poutTaken_pb (b : Block) : (b.poutTaken).pb = b.pb := rfl
@[simp] theorem Block.poutTaken_n (b : Block) : (b.poutTaken).n = b.n := rfl
@[simp] theorem Block.poutTaken_pout (b : Block) : (b.poutTaken).pout = none := rfl
@[simp] theorem Block.poutTaken_ebuf (b : Block) : (b.poutTaken).ebuf = b.ebuf := rfl
@[simp] theorem Block.poutTaken_en (b : Block) : (b.poutTaken).en = b.en := rfl

/-! ### `Block.takePixel` -/

@[simp] theorem Block.takePixel_hdr (r g bl : Byte) (b : Block) : (b.takePixel r g bl).hdr = b.hdr := rfl
@[simp] theorem Block.takePixel_encW (r g bl : Byte) (b : Block) : (b.takePixel r g bl).encW = b.encW := rfl
@[simp] theorem Block.takePixel_encH (r g bl : Byte) (b : Block) : (b.takePixel r g bl).encH = b.encH := rfl
@[simp] theorem Block.takePixel_op (r g bl : Byte) (b : Block) : (b.takePixel r g bl).op = b.op := rfl
@[simp] theorem Block.takePixel_phase (r g bl : Byte) (b : Block) : (b.takePixel r g bl).phase = b.phase := rfl
@[simp] theorem Block.takePixel_gw (r g bl : Byte) (b : Block) : (b.takePixel r g bl).gw = b.gw := rfl
@[simp] theorem Block.takePixel_gh (r g bl : Byte) (b : Block) : (b.takePixel r g bl).gh = b.gh := rfl
@[simp] theorem Block.takePixel_errCode (r g bl : Byte) (b : Block) : (b.takePixel r g bl).errCode = b.errCode := rfl
@[simp] theorem Block.takePixel_errVcause (r g bl : Byte) (b : Block) : (b.takePixel r g bl).errVcause = b.errVcause := rfl
@[simp] theorem Block.takePixel_errStage (r g bl : Byte) (b : Block) : (b.takePixel r g bl).errStage = b.errStage := rfl
@[simp] theorem Block.takePixel_ign (r g bl : Byte) (b : Block) : (b.takePixel r g bl).ign = b.ign := rfl
@[simp] theorem Block.takePixel_hv (r g bl : Byte) (b : Block) : (b.takePixel r g bl).hv = b.hv := rfl
@[simp] theorem Block.takePixel_pos (r g bl : Byte) (b : Block) : (b.takePixel r g bl).pos = b.pos := rfl
@[simp] theorem Block.takePixel_hpos (r g bl : Byte) (b : Block) : (b.takePixel r g bl).hpos = b.hpos := rfl
@[simp] theorem Block.takePixel_skip (r g bl : Byte) (b : Block) : (b.takePixel r g bl).skip = b.skip := rfl
@[simp] theorem Block.takePixel_rpos (r g bl : Byte) (b : Block) : (b.takePixel r g bl).rpos = b.rpos := rfl
@[simp] theorem Block.takePixel_j (r g bl : Byte) (b : Block) : (b.takePixel r g bl).j = b.j := rfl
@[simp] theorem Block.takePixel_k (r g bl : Byte) (b : Block) : (b.takePixel r g bl).k = b.k := rfl
@[simp] theorem Block.takePixel_pb (r g bl : Byte) (b : Block) : (b.takePixel r g bl).pb = b.pb := rfl
@[simp] theorem Block.takePixel_n (r g bl : Byte) (b : Block) : (b.takePixel r g bl).n = b.n := rfl
@[simp] theorem Block.takePixel_pout (r g bl : Byte) (b : Block) : (b.takePixel r g bl).pout = b.pout := rfl
@[simp] theorem Block.takePixel_ebuf (r g bl : Byte) (b : Block) : (b.takePixel r g bl).ebuf = #v[bl, g, r] := rfl
@[simp] theorem Block.takePixel_en (r g bl : Byte) (b : Block) : (b.takePixel r g bl).en = 3 := rfl

/-! ### `Env.takeIn` -/

@[simp] theorem Env.takeIn_bus (e : Env) : (e.takeIn).bus = e.bus := rfl
@[simp] theorem Env.takeIn_inp (e : Env) : (e.takeIn).inp = e.inp.tail := rfl
@[simp] theorem Env.takeIn_pin (e : Env) : (e.takeIn).pin = e.pin := rfl
@[simp] theorem Env.takeIn_turns (e : Env) : (e.takeIn).turns = e.turns := rfl
@[simp] theorem Env.takeIn_readBack (e : Env) : (e.takeIn).readBack = e.readBack := rfl
@[simp] theorem Env.takeIn_pixelsOut (e : Env) : (e.takeIn).pixelsOut = e.pixelsOut := rfl
@[simp] theorem Env.takeIn_bytesOut (e : Env) : (e.takeIn).bytesOut = e.bytesOut := rfl

/-! ### `Env.takePin` -/

@[simp] theorem Env.takePin_bus (e : Env) : (e.takePin).bus = e.bus := rfl
@[simp] theorem Env.takePin_inp (e : Env) : (e.takePin).inp = e.inp := rfl
@[simp] theorem Env.takePin_pin (e : Env) : (e.takePin).pin = e.pin.tail := rfl
@[simp] theorem Env.takePin_turns (e : Env) : (e.takePin).turns = e.turns := rfl
@[simp] theorem Env.takePin_readBack (e : Env) : (e.takePin).readBack = e.readBack := rfl
@[simp] theorem Env.takePin_pixelsOut (e : Env) : (e.takePin).pixelsOut = e.pixelsOut := rfl
@[simp] theorem Env.takePin_bytesOut (e : Env) : (e.takePin).bytesOut = e.bytesOut := rfl

/-! ### `Env.giveRead` -/

@[simp] theorem Env.giveRead_bus (v : Word) (e : Env) : (e.giveRead v).bus = e.bus := rfl
@[simp] theorem Env.giveRead_inp (v : Word) (e : Env) : (e.giveRead v).inp = e.inp := rfl
@[simp] theorem Env.giveRead_pin (v : Word) (e : Env) : (e.giveRead v).pin = e.pin := rfl
@[simp] theorem Env.giveRead_turns (v : Word) (e : Env) : (e.giveRead v).turns = e.turns := rfl
@[simp] theorem Env.giveRead_readBack (v : Word) (e : Env) : (e.giveRead v).readBack = e.readBack ++ [v] := rfl
@[simp] theorem Env.giveRead_pixelsOut (v : Word) (e : Env) : (e.giveRead v).pixelsOut = e.pixelsOut := rfl
@[simp] theorem Env.giveRead_bytesOut (v : Word) (e : Env) : (e.giveRead v).bytesOut = e.bytesOut := rfl

/-! ### `Env.givePixel` -/

@[simp] theorem Env.givePixel_bus (w : BitVec 96) (e : Env) : (e.givePixel w).bus = e.bus := rfl
@[simp] theorem Env.givePixel_inp (w : BitVec 96) (e : Env) : (e.givePixel w).inp = e.inp := rfl
@[simp] theorem Env.givePixel_pin (w : BitVec 96) (e : Env) : (e.givePixel w).pin = e.pin := rfl
@[simp] theorem Env.givePixel_turns (w : BitVec 96) (e : Env) : (e.givePixel w).turns = e.turns := rfl
@[simp] theorem Env.givePixel_readBack (w : BitVec 96) (e : Env) : (e.givePixel w).readBack = e.readBack := rfl
@[simp] theorem Env.givePixel_pixelsOut (w : BitVec 96) (e : Env) : (e.givePixel w).pixelsOut = e.pixelsOut ++ [w] := rfl
@[simp] theorem Env.givePixel_bytesOut (w : BitVec 96) (e : Env) : (e.givePixel w).bytesOut = e.bytesOut := rfl

/-! ### `Env.giveByte` -/

@[simp] theorem Env.giveByte_bus (w : BitVec 9) (e : Env) : (e.giveByte w).bus = e.bus := rfl
@[simp] theorem Env.giveByte_inp (w : BitVec 9) (e : Env) : (e.giveByte w).inp = e.inp := rfl
@[simp] theorem Env.giveByte_pin (w : BitVec 9) (e : Env) : (e.giveByte w).pin = e.pin := rfl
@[simp] theorem Env.giveByte_turns (w : BitVec 9) (e : Env) : (e.giveByte w).turns = e.turns := rfl
@[simp] theorem Env.giveByte_readBack (w : BitVec 9) (e : Env) : (e.giveByte w).readBack = e.readBack := rfl
@[simp] theorem Env.giveByte_pixelsOut (w : BitVec 9) (e : Env) : (e.giveByte w).pixelsOut = e.pixelsOut := rfl
@[simp] theorem Env.giveByte_bytesOut (w : BitVec 9) (e : Env) : (e.giveByte w).bytesOut = e.bytesOut ++ [w] := rfl

/-! ### `State` -/

@[simp] theorem State.onBlock_blk (f : Block → Block) (s : State) : (s.onBlock f).blk = f s.blk := rfl
@[simp] theorem State.onBlock_env (f : Block → Block) (s : State) : (s.onBlock f).env = s.env := rfl
@[simp] theorem State.onBlock_cfg (f : Block → Block) (s : State) : (s.onBlock f).cfg = s.cfg := rfl
@[simp] theorem State.applyReset_blk (s : State) : (s.applyReset).blk = Block.reset := rfl
@[simp] theorem State.applyReset_env (s : State) : (s.applyReset).env = s.env := rfl
@[simp] theorem State.applyReset_cfg (s : State) : (s.applyReset).cfg = s.cfg := rfl

end Sys2Proof.Machine
end

