-- ==== Sys2Proof/Laws/Step.lean ====
section
/-! SUPPORT. What a step can do, said once: the machine always answers a next state; the block changes only by one of ten
block operations, each under its own enabling condition; and the host's queues change as the operation says. -/

namespace Sys2Proof.Machine

/-- Every meaning answers a next state. -/
theorem exec_next (i : Instr) (s : State) : ∃ t, exec i s = .next t := by
  cases i <;> exact ⟨_, rfl⟩

/-- Every step answers a next state. -/
theorem step_next (s : State) : ∃ t, step s = .next t := by
  unfold step
  split
  · exact ⟨_, rfl⟩
  · dsimp only
    split
    · exact ⟨_, rfl⟩
    · exact ⟨_, rfl⟩
    · split
      · exact ⟨_, rfl⟩
      · exact exec_next _ _

/-- The state a step leads to. -/
def stepped (s : State) : State :=
  match step s with
  | .next t => t
  | .fault _ => s
  | .refused _ => s

/-- A step is its `stepped` state. -/
theorem step_eq (s : State) : step s = .next (stepped s) := by
  obtain ⟨t, ht⟩ := step_next s
  simp [stepped, ht]

/-- The state `n` steps lead to. -/
def ran : Nat → State → State
  | 0, s => s
  | n + 1, s => ran n (stepped s)

/-- A run is its `ran` state. -/
theorem run_eq (n : Nat) (s : State) : core.run n s = .next (ran n s) := by
  induction n generalizing s with
  | zero => rfl
  | succ n ih =>
    have h : core.step s = .next (stepped s) := step_eq s
    simp only [Host.Core.run, h, ran]
    exact ih (stepped s)

/-- Runs compose. -/
theorem ran_add (m n : Nat) (s : State) : ran (m + n) s = ran n (ran m s) := by
  induction m generalizing s with
  | zero => simp [ran]
  | succ m ih => rw [Nat.add_right_comm]; exact ih (stepped s)

/-- The step with no turn left. -/
theorem stepped_nil {s : State} (h : s.env.turns = []) : stepped s = s.internalStep := by
  simp [stepped, step, h]

/-- The step on the block's own turn. -/
theorem stepped_block {s : State} {ts : List Turn} (h : s.env.turns = .block :: ts) :
    stepped s = State.internalStep { s with env := { s.env with turns := ts } } := by
  simp [stepped, step, h]

/-- The step on a reset. -/
theorem stepped_reset {s : State} {ts : List Turn} (h : s.env.turns = .reset :: ts) :
    stepped s = { s with blk := Block.reset, env := { s.env with turns := ts } } := by
  simp [stepped, step, h, State.applyReset]

/-- The step on the bus with a request waiting. -/
theorem step_bus {s : State} {ts : List Turn} {r : BusReq} {rest : List BusReq}
    (h : s.env.turns = .port .bus :: ts) (hb : s.env.bus = r :: rest) :
    step s = exec (decodeBus r) { s with env := { s.env with turns := ts, bus := rest } } := by
  simp [step, h, State.presented, hb, decode]

/-- The step on the bus with no request waiting. -/
theorem stepped_bus_nil {s : State} {ts : List Turn} (h : s.env.turns = .port .bus :: ts) (hb : s.env.bus = []) :
    stepped s = { s with env := { s.env with turns := ts } } := by
  simp [stepped, step, h, State.presented, hb]

/-- The step on IN with no word offered. -/
theorem stepped_inp_nil {s : State} {ts : List Turn} (h : s.env.turns = .port .inp :: ts) (hb : s.env.inp = []) :
    stepped s = { s with env := { s.env with turns := ts } } := by
  simp [stepped, step, h, State.presented, hb]

/-- The step on IN with a word offered: taken as a byte or as an EOS if the block is ready, else left offered. -/
theorem stepped_inp {s : State} {ts : List Turn} {w : BitVec 9} {rest : List (BitVec 9)}
    (h : s.env.turns = .port .inp :: ts) (hb : s.env.inp = w :: rest) :
    stepped s =
      if s.blk.inReady then
        { s with
          blk := if w.getLsbD 8 then s.blk.takeEos else s.blk.takeByte (w.extractLsb' 0 8)
          env := { s.env with turns := ts, inp := rest } }
      else { s with env := { s.env with turns := ts } } := by
  have hd : step s = exec (decodeIn w) { s with env := { s.env with turns := ts } } := by
    simp [step, h, State.presented, hb, decode]
  have hs : stepped s = match exec (decodeIn w) { s with env := { s.env with turns := ts } } with
      | .next t => t | .fault _ => s | .refused _ => s := by rw [stepped, hd]
  rw [hs, decodeIn]
  cases hr : s.blk.inReady <;> cases hw : w.getLsbD 8 <;>
    simp only [if_true, if_false, Bool.false_eq_true, exec, execInByte, execInEos, hr, Env.takeIn, hb, List.tail_cons]

/-- The step on PIN with no word offered. -/
theorem stepped_pin_nil {s : State} {ts : List Turn} (h : s.env.turns = .port .pin :: ts) (hb : s.env.pin = []) :
    stepped s = { s with env := { s.env with turns := ts } } := by
  simp [stepped, step, h, State.presented, hb]

/-- The step on PIN with a word offered: taken if the block is ready, else left offered. -/
theorem stepped_pin {s : State} {ts : List Turn} {w : Word} {rest : List Word}
    (h : s.env.turns = .port .pin :: ts) (hb : s.env.pin = w :: rest) :
    stepped s =
      if s.blk.pinReady then
        { s with
          blk := s.blk.takePixel (w.extractLsb' 0 8) (w.extractLsb' 8 8) (w.extractLsb' 16 8)
          env := { s.env with turns := ts, pin := rest } }
      else { s with env := { s.env with turns := ts } } := by
  cases hr : s.blk.pinReady <;>
    simp [stepped, step, h, State.presented, hb, decode, decodePin, exec, execPin, hr, Env.takePin]

/-- The step on POUT. -/
theorem stepped_pout {s : State} {ts : List Turn} (h : s.env.turns = .port .pout :: ts) :
    stepped s =
      match s.blk.pout with
      | some p => { s with blk := s.blk.poutTaken, env := { s.env with turns := ts, pixelsOut := s.env.pixelsOut ++ [p.pack] } }
      | none => { s with env := { s.env with turns := ts } } := by
  cases hp : s.blk.pout <;>
    simp [stepped, step, h, State.presented, decode, exec, execPoutTake, hp, Env.givePixel]

/-- The step on BOUT. -/
theorem stepped_bout {s : State} {ts : List Turn} (h : s.env.turns = .port .bout :: ts) :
    stepped s =
      if s.blk.boutValid then
        { s with blk := s.blk.boutTaken, env := { s.env with turns := ts, bytesOut := s.env.bytesOut ++ [s.blk.boutOffer] } }
      else { s with env := { s.env with turns := ts } } := by
  cases hr : s.blk.boutValid <;>
    simp [stepped, step, h, State.presented, decode, exec, execBoutTake, hr, Env.giveByte]

/-- What a command row or a register write does to the block: one of the operations of the CTRL dispatch, or a write of ENC_W
or ENC_H (R147, R154). -/
inductive Block.BusEffect (cfg : Config) (b : Block) : Block → Prop where
  | same : BusEffect cfg b b
  | ignored : b.phase.busy = true → BusEffect cfg b { b with ign := true }
  | start (op : BitVec 4) : b.phase.busy = false → op = 0x1 ∨ op = 0x2 → BusEffect cfg b (b.startDecodeFamily op)
  | encode : b.phase.busy = false → BusEffect cfg b (b.acceptEncode cfg)
  | bad (op : BitVec 4) : b.phase.busy = false → BusEffect cfg b (b.badCommand op)
  | abort : BusEffect cfg b b.abort
  | encW (v : Word) : BusEffect cfg b { b with encW := v }
  | encH (v : Word) : BusEffect cfg b { b with encH := v }

/-- The CTRL dispatch is one of the bus effects. -/
theorem ctrlWrite_effect (cfg : Config) (op : BitVec 4) (b : Block) : b.BusEffect cfg (b.ctrlWrite cfg op) := by
  unfold Block.ctrlWrite Block.whenIdle
  cases hb : b.phase.busy <;> simp only [if_true, Bool.false_eq_true, if_false]
  · split_ifs with h1 h2 h3 h4
    · exact .same
    · exact .abort
    · exact .start op hb h3
    · exact .encode hb
    · exact .bad op hb
  · split_ifs with h1 h2 h3 h4
    · exact .same
    · exact .abort
    · exact .ignored hb
    · exact .ignored hb
    · exact .ignored hb

/-- The CTRL dispatch by the opcode of a value written is the meaning of the command row it decodes to (R80, R147). -/
theorem exec_decodeCmdWord (v : Word) (s : State) :
    exec (decodeCmdWord v) s = .next (s.onBlock (Block.ctrlWrite s.cfg (cmdOp v))) := by
  unfold decodeCmdWord
  generalize cmdIgnored v = x
  generalize cmdOp v = op
  have h : ∀ op : BitVec 4, op = 0 ∨ op = 1 ∨ op = 2 ∨ op = 3 ∨ op = 4 ∨ op = 5 ∨ op = 6 ∨ op = 7 ∨ op = 8 ∨ op = 9
      ∨ op = 10 ∨ op = 11 ∨ op = 12 ∨ op = 13 ∨ op = 14 ∨ op = 15 := by decide
  rcases h op with rfl | rfl | rfl | rfl | rfl | rfl | rfl | rfl | rfl | rfl | rfl | rfl | rfl | rfl | rfl | rfl <;> rfl

/-- What a request on the bus does: the block changes by a bus effect, or a read answers the host. -/
theorem exec_decodeBus_cases (r : BusReq) (s : State) :
    (∃ b, s.blk.BusEffect s.cfg b ∧ exec (decodeBus r) s = .next { s with blk := b })
    ∨ (∃ a, r = .read a ∧ exec (decodeBus r) s = .next { s with env := s.env.giveRead (s.blk.readReg a) }) := by
  cases r with
  | read a => exact .inr ⟨a, rfl, rfl⟩
  | write a v =>
    refine .inl ?_
    unfold decodeBus
    by_cases ha : a = ctrlAddr
    · simp only [ha, if_true, exec_decodeCmdWord]
      exact ⟨_, ctrlWrite_effect _ _ _, rfl⟩
    · simp only [ha, if_false, exec, execRegWr, State.onBlock, Block.writeReg]
      split_ifs
      · exact ⟨_, .encW v, rfl⟩
      · exact ⟨_, .encH v, rfl⟩
      · exact ⟨_, .same, rfl⟩
      · exact ⟨_, .same, rfl⟩

/-- While busy, a request on the bus other than ABORT changes nothing of the block but IGN, ENC_W and ENC_H (R152, R154). -/
theorem stepped_bus_busy {s : State} {ts : List Turn} {r : BusReq} {rest : List BusReq}
    (h : s.env.turns = .port .bus :: ts) (hb : s.env.bus = r :: rest) (hbusy : s.blk.phase.busy = true)
    (hr : ∀ v, r = .write ctrlAddr v → cmdOp v ≠ 0xF) :
    ∃ ign encW encH, (stepped s).blk = { s.blk with ign := ign, encW := encW, encH := encH } := by
  have q := step_bus h hb
  rw [step_eq] at q
  cases r with
  | read a => rw [Host.Outcome.next.inj q]; exact ⟨_, _, _, rfl⟩
  | write a v =>
    simp only [decodeBus] at q
    split at q
    · rename_i ha
      rw [exec_decodeCmdWord] at q
      have hv := hr v (by rw [ha])
      rw [Host.Outcome.next.inj q]
      simp only [State.onBlock, Block.ctrlWrite, hv, if_false, Block.whenIdle, hbusy, if_true]
      split_ifs <;> exact ⟨_, _, _, rfl⟩
    · rw [Host.Outcome.next.inj q]
      simp only [State.onBlock, Block.writeReg]
      split_ifs <;> exact ⟨_, _, _, rfl⟩

/-- What one step can do to the block, each case with its turn and its enabling condition. -/
inductive Block.StepEffect (cfg : Config) (b : Block) : Option Turn → Block → Prop where
  | same (u : Option Turn) : StepEffect cfg b u b
  | reset : StepEffect cfg b (some .reset) Block.reset
  | bus (b' : Block) : b.BusEffect cfg b' → StepEffect cfg b (some (.port .bus)) b'
  | replay (u : Option Turn) : u = none ∨ u = some .block → b.replayReady = true → StepEffect cfg b u b.replay
  | byte (x : Byte) : b.inReady = true → StepEffect cfg b (some (.port .inp)) (b.takeByte x)
  | eos : b.inReady = true → StepEffect cfg b (some (.port .inp)) b.takeEos
  | pixel (r g bl : Byte) : b.pinReady = true → StepEffect cfg b (some (.port .pin)) (b.takePixel r g bl)
  | pout (p : PoutWord) : b.pout = some p → StepEffect cfg b (some (.port .pout)) b.poutTaken
  | bout : b.boutValid = true → StepEffect cfg b (some (.port .bout)) b.boutTaken

/-- The block after the internal step. -/
theorem internalStep_blk (s : State) :
    s.internalStep.blk = if s.blk.replayReady then s.blk.replay else s.blk := by
  unfold State.internalStep; split <;> rfl

/-- The inversion of the step: the block changes by one of the step effects, the build never changes. -/
theorem step_effect {s t : State} (h : step s = .next t) :
    s.blk.StepEffect s.cfg s.env.turns.head? t.blk ∧ t.cfg = s.cfg := by
  have ht : t = stepped s := by rw [step_eq] at h; exact (Host.Outcome.next.inj h).symm
  cases hts : s.env.turns with
  | nil =>
    rw [stepped_nil hts] at ht; subst ht
    refine ⟨?_, by unfold State.internalStep; split <;> rfl⟩
    rw [internalStep_blk]
    split
    · exact .replay _ (.inl rfl) ‹_›
    · exact .same _
  | cons u ts =>
    rw [List.head?_cons]
    match u with
    | .block =>
      rw [stepped_block hts] at ht; subst ht
      refine ⟨?_, by unfold State.internalStep; split <;> rfl⟩
      rw [internalStep_blk]
      split
      · exact .replay _ (.inr rfl) ‹_›
      · exact .same _
    | .reset => rw [stepped_reset hts] at ht; subst ht; exact ⟨.reset, rfl⟩
    | .port .bus =>
      cases hb : s.env.bus with
      | nil => rw [stepped_bus_nil hts hb] at ht; subst ht; exact ⟨.same _, rfl⟩
      | cons r rest =>
        rw [step_bus hts hb] at h
        rcases exec_decodeBus_cases r { s with env := { s.env with turns := ts, bus := rest } } with
          ⟨b, hb', he⟩ | ⟨a, -, he⟩
        · rw [he] at h; cases h; exact ⟨.bus b hb', rfl⟩
        · rw [he] at h; cases h; exact ⟨.same _, rfl⟩
    | .port .inp =>
      cases hb : s.env.inp with
      | nil => rw [stepped_inp_nil hts hb] at ht; subst ht; exact ⟨.same _, rfl⟩
      | cons w rest =>
        rw [stepped_inp hts hb] at ht; subst ht
        split
        · refine ⟨?_, rfl⟩
          dsimp only
          split
          · exact .eos ‹_›
          · exact .byte _ ‹_›
        · exact ⟨.same _, rfl⟩
    | .port .pin =>
      cases hb : s.env.pin with
      | nil => rw [stepped_pin_nil hts hb] at ht; subst ht; exact ⟨.same _, rfl⟩
      | cons w rest =>
        rw [stepped_pin hts hb] at ht; subst ht
        split
        · exact ⟨.pixel _ _ _ ‹_›, rfl⟩
        · exact ⟨.same _, rfl⟩
    | .port .pout =>
      rw [stepped_pout hts] at ht; subst ht
      cases hp : s.blk.pout with
      | none => exact ⟨.same _, rfl⟩
      | some p => exact ⟨.pout p hp, rfl⟩
    | .port .bout =>
      rw [stepped_bout hts] at ht; subst ht
      split
      · exact ⟨.bout ‹_›, rfl⟩
      · exact ⟨.same _, rfl⟩

end Sys2Proof.Machine
end

