-- ==== Sys2Proof/Laws/Inv.lean ====
section
/-! SUPPORT. The invariant of the block, operation by operation: each block operation keeps `Block.Inv` (or establishes it)
under the condition that enables it. -/

namespace Sys2Proof.Machine

theorem Block.Inv.raiseError {b : Block} {c : ErrCode} {g : Stage} (h : b.Inv) (hc : c ≠ .none) (hg : g ≠ .none)
    (hv : b.errVcause ≠ 0 ↔ c = .unsupportedVariant) : (b.raiseError c g).Inv where
  gw_lt := h.gw_lt
  gh_lt := h.gh_lt
  hpos_le := h.hpos_le
  skip_le := h.skip_le
  rpos_le := h.rpos_le
  j_le := h.j_le
  k_le := h.k_le
  n_le := h.n_le
  hv_valid := h.hv_valid
  hv_phase := by simp
  pout_phase := by simp
  pos_lt := h.pos_lt
  position := by simp [Block.positionOk]
  error := ⟨by simp [hc], by simp [hc, hg], by simpa using hv⟩

theorem Block.Inv.commandStart (o : BitVec 4) (b : Block) {p : Phase}
    (hp : p = .idle ∨ (p = .dHdr ∧ (o = 1 ∨ o = 2))) : ({ b.commandStart o with phase := p }).Inv := by
  constructor <;> rcases hp with rfl | ⟨rfl, ho⟩ <;>
    simp_all [Block.positionOk, Block.errorOk, Block.rowBytes, Block.commandStart]

theorem Block.Inv.no_error {b : Block} (h : b.Inv) (hp : b.phase ≠ .error) :
    b.errCode = .none ∧ b.errStage = .none ∧ b.errVcause = 0 := by
  obtain ⟨h1, h2, h3⟩ := h.error
  have e1 : b.errCode = .none := by by_contra hc; exact hp (h1.2 hc)
  refine ⟨e1, h2.1 e1, ?_⟩
  by_contra hv
  rw [h3.1 hv] at e1; cases e1

theorem Block.Inv.abort {b : Block} (h : b.Inv) : b.abort.Inv := by
  unfold Block.abort
  split
  · rename_i hb
    obtain ⟨e1, e2, e3⟩ := h.no_error (by intro e; rw [e] at hb; cases hb)
    have hi := h.raiseError (c := .aborted) (g := b.phase.abortStage) (by simp)
      (by revert hb; cases b.phase <;> simp [Phase.busy, Phase.abortStage]) (by simp [e3])
    exact { hi with position := by simp [Block.positionOk] }
  · rename_i hb
    exact { h with
      hv_phase := by simp
      position := by simp [Block.positionOk]
      error := by simp [Block.errorOk]
      pout_phase := fun hp => by rcases h.pout_phase hp with e | e | e <;> simp [e, Phase.busy] at hb }

theorem Block.Inv.takeEos {b : Block} (h : b.Inv) : b.takeEos.Inv := by
  unfold Block.takeEos
  have key : b.phase ≠ .error → ∀ g, g ≠ Stage.none → (b.raiseError .truncated g).Inv := fun hp g hg =>
    h.raiseError (by simp) hg (by simp [(h.no_error hp).2.2])
  split
  all_goals first | exact h | exact key (by simp_all) _ (by simp)

theorem Block.Inv.poutTaken {b : Block} (h : b.Inv) : b.poutTaken.Inv := by
  have hpos := h.position
  have herr := h.error
  unfold Block.poutTaken
  by_cases hd : b.phase = .dDrain
  · simp only [hd, if_true]
    exact { h with
      hv_phase := fun _ _ _ => h.hv_phase (by simp [hd]) (by simp [hd]) (by simp [hd])
      pout_phase := by simp
      position := by simp [Block.positionOk]
      error := by simpa [Block.errorOk, hd] using herr }
  · simp only [hd, if_false]
    exact { h with
      pout_phase := by simp
      position := by
        unfold Block.positionOk at hpos ⊢
        dsimp only
        split <;> simp_all [Block.sourceIndex, Block.rowBytes, Block.fileSize] }

theorem Block.Inv.takePixel {b : Block} (r g bl : Byte) (h : b.Inv) (hr : b.pinReady = true) : (b.takePixel r g bl).Inv := by
  have hpos := h.position
  simp only [Block.pinReady, Bool.and_eq_true, beq_iff_eq] at hr
  obtain ⟨hp, hn⟩ := hr
  simp only [Block.positionOk, hp] at hpos
  obtain ⟨h1, h2, h3, h4, h5, h6, h7⟩ := hpos
  rw [hn] at h3
  exact { h with
    position := by
      simp only [Block.positionOk, Block.takePixel, hp]
      refine ⟨h1, h2, ?_, ?_, h5, h6, h7⟩
      · show (b.k.toNat + 3) % 3 = 0
        simp at h3; omega
      · show b.k.toNat + 3 ≤ _
        simp at h3; omega }

theorem Block.mul_row_le {b : Block} (hj : b.j.toNat < b.gh.toNat) :
    b.j.toNat * b.rowBytes + b.rowBytes ≤ b.rowBytes * b.gh.toNat := by
  have := Nat.mul_le_mul_right b.rowBytes hj
  rw [Nat.succ_mul, Nat.mul_comm b.gh.toNat] at this
  exact this

theorem Block.Inv.pixels_lt {b : Block} (h : b.Inv) : b.rowBytes * b.gh.toNat < 3 * 2 ^ 62 := by
  have h1 : b.rowBytes ≤ 3 * 2 ^ 31 := rowBytesOf_le h.gw_lt
  have h2 := h.gh_lt
  calc b.rowBytes * b.gh.toNat ≤ 3 * 2 ^ 31 * (2 ^ 31 - 1) := Nat.mul_le_mul h1 (by omega)
    _ < 3 * 2 ^ 62 := by norm_num

theorem add_one_toNat {n : Nat} {x : BitVec n} (h : x.toNat + 1 < 2 ^ n) : (x + 1).toNat = x.toNat + 1 := by
  rcases n with _ | n
  · simp at h
  · rw [BitVec.toNat_add, show (1 : BitVec (n+1)).toNat = 1 by simp, Nat.mod_eq_of_lt h]

theorem Block.Inv.gapByte {b : Block} (h : b.Inv) (hp : b.phase = .dSkip) : b.gapByte.Inv := by
  have hpos := h.position
  have hsk := h.skip_le
  simp only [Block.positionOk, hp] at hpos
  obtain ⟨h1, h2, h3, h4, h5, h6, h7, h8, h9, h10⟩ := hpos
  have hoff : hdrOffset b.hdr < 2 ^ 32 := u32le_lt _ _
  have hs0 : b.skip.toNat ≠ 0 := fun e => h7 (BitVec.eq_of_toNat_eq e)
  have hp1 : (b.pos + 1).toNat = b.pos.toNat + 1 := add_one_toNat (by omega)
  have hs1 : (b.skip - 1).toNat = b.skip.toNat - 1 := by
    rw [BitVec.toNat_sub]; simp; omega
  have hgw : b.gw.toNat ≠ 0 := fun e => h4 (BitVec.eq_of_toNat_eq e)
  have hgh : b.gh.toNat ≠ 0 := fun e => h5 (BitVec.eq_of_toNat_eq e)
  unfold Block.gapByte
  dsimp only
  split
  · rename_i hz
    have hz' : b.skip.toNat = 1 := by
      have := congrArg BitVec.toNat hz; rw [hs1] at this; simp at this; omega
    exact { h with
      skip_le := by simp only [hs1]; omega
      hv_phase := fun _ _ _ => h.hv_phase (by simp [hp]) (by simp [hp]) (by simp [hp])
      pout_phase := by simp
      pos_lt := by simp only [hp1]; omega
      position := by
        have hq : ∀ q, hdrOffset b.hdr + b.j.toNat * q + b.k.toNat = hdrOffset b.hdr := by
          intro q; simp [h1, h2]
        simp only [Block.positionOk, Block.sourceIndex, hp1, h3, hq]
        exact ⟨by simp [h1]; omega, by simp [h2]; omega, by simp [h2], by omega, by omega, h10⟩
      error := by simpa [Block.errorOk, hp] using h.error }
  · rename_i hz
    have hz' : b.skip - 1 ≠ 0 := hz
    exact { h with
      skip_le := by simp only [hs1]; omega
      pos_lt := by simp only [hp1]; omega
      position := by
        simp only [Block.positionOk, hp, hp1, hs1]
        exact ⟨h1, h2, h3, h4, h5, h6, hz', by omega, by omega, h10⟩ }

/-- A data byte is consumed with rpos and POS moved past it. -/
theorem Block.Inv.consume {b : Block} (h : b.Inv) (x : Byte) (hph : b.phase = .dPix ∨ b.phase = .dPad) (hpo : b.pout = none)
    (r : BitVec 6) (p : BitVec 64) (hr : r.toNat = min 54 (b.sourceIndex + 1))
    (hp : p.toNat = max 54 (b.sourceIndex + 1)) : (({ b with rpos := r, pos := p } : Block).consume x).Inv := by
  have hpos := h.position
  have hgw := h.gw_lt
  have hgh := h.gh_lt
  have hpx := h.pixels_lt
  have hoff : hdrOffset b.hdr < 2 ^ 32 := u32le_lt _ _
  have hrb : b.rowBytes = 3 * b.gw.toNat + b.gw.toNat % 4 := rowBytesOf_eq _
  have hpad : b.pad = b.gw.toNat % 4 := padOf_eq _
  have hrow : ∀ k : Nat, b.j.toNat < b.gh.toNat → k ≤ b.rowBytes → hdrOffset b.hdr + b.j.toNat * b.rowBytes + k < 2 ^ 32 + 3 * 2 ^ 62 := by
    intro k hj hk
    have := b.mul_row_le hj; omega
  have hhv : b.hv = true := by rcases hph with e | e <;> exact h.hv_phase (by simp [e]) (by simp [e]) (by simp [e])
  have herr := h.no_error (by rcases hph with e | e <;> simp [e])
  have hsrc : b.sourceIndex = hdrOffset b.hdr + b.j.toNat * b.rowBytes + b.k.toNat := rfl
  -- what holds of the whole position tuple
  have hcom : b.j.toNat < b.gh.toNat ∧ b.k.toNat < b.rowBytes ∧ b.op = 0x2 := by
    rcases hph with e | e <;> simp only [Block.positionOk, e] at hpos
    · exact ⟨hpos.1, by omega, hpos.2.2.2.2.2⟩
    · exact ⟨hpos.1, hpos.2.2.1, hpos.2.2.2.2.2.2⟩
  obtain ⟨hj, hk, hop⟩ := hcom
  have hk1 : (b.k + 1).toNat = b.k.toNat + 1 := add_one_toNat (by omega)
  have hj1 : (b.j + 1).toNat = b.j.toNat + 1 := add_one_toNat (by omega)
  have hnext := hrow (b.k.toNat + 1) hj (by omega)
  have hjm : (b.j.toNat + 1) * b.rowBytes = b.j.toNat * b.rowBytes + b.rowBytes := by rw [Nat.add_mul, Nat.one_mul]
  have hje : (b.j + 1 = b.gh) ↔ b.j.toNat + 1 = b.gh.toNat := by
    rw [← hj1]; exact ⟨fun e => congrArg _ e, fun e => BitVec.eq_of_toNat_eq e⟩
  have hplt : p.toNat < 2 ^ 32 + 3 * 2 ^ 62 := by rw [hp, hsrc]; omega
  have hrle : r.toNat ≤ 54 := by omega
  -- the row's end, common to both phases
  have hend : ∀ (po : Option PoutWord) (pb : Vector Byte 2) (q : Phase), b.k.toNat + 1 = b.rowBytes → (po.isSome = true → b.pad = 0) →
      ({ b with rpos := r, pos := p, k := b.k + 1, pout := po, pb := pb, n := 0, phase := q } : Block).rowEnd.Inv := by
    intro po pb q hke hpo'
    unfold Block.rowEnd
    dsimp only
    have herr' : ∀ q' : Phase, q' ≠ .error → (({ b with rpos := r, pos := p, k := 0, j := b.j + 1, pout := po, pb := pb, n := 0, phase := q' }) : Block).errorOk := by
      intro q' hq'; simp [Block.errorOk, herr, hq']
    by_cases he : b.j + 1 = b.gh
    · simp only [he, if_true]
      cases po with
      | none =>
        simp only [Option.isSome_none, Bool.false_eq_true, if_false]
        exact { h with
          rpos_le := hrle
          j_le := by simp
          k_le := by simp
          n_le := by simp
          hv_phase := fun _ _ _ => hhv
          pout_phase := by simp
          pos_lt := hplt
          position := by simp [Block.positionOk]
          error := by simp [Block.errorOk, herr] }
      | some w =>
        simp only [Option.isSome_some, if_true]
        exact { h with
          rpos_le := hrle
          j_le := by simp
          k_le := by simp
          n_le := by simp
          hv_phase := fun _ _ _ => hhv
          pout_phase := by simp
          pos_lt := hplt
          position := by
            simp only [Block.positionOk, Block.sourceIndex]
            refine ⟨trivial, trivial, trivial, hpo' rfl, rfl, ?_, hop⟩
            show p.toNat = max 54 (hdrOffset b.hdr + b.gh.toNat * b.rowBytes + 0)
            rw [hp, hsrc, ← hje.1 he, hjm]; omega
          error := by simp [Block.errorOk, herr] }
    · simp only [he, if_false]
      have hlt : b.j.toNat + 1 < b.gh.toNat := by have := mt hje.2 he; omega
      have hg0 : b.gw.toNat ≠ 0 := by intro e; rw [hrb, e] at hke; omega
      exact { h with
        rpos_le := hrle
        j_le := by simp only [hj1]; omega
        k_le := by simp
        n_le := by simp
        hv_phase := fun _ _ _ => hhv
        pout_phase := by simp
        pos_lt := hplt
        position := by
          simp only [Block.positionOk, Block.sourceIndex, hj1]
          refine ⟨hlt, ?_, rfl, ?_, ?_, hop⟩
          · simp; omega
          · show r.toNat = min 54 (hdrOffset b.hdr + (b.j.toNat + 1) * b.rowBytes + 0)
            rw [hr, hsrc, hjm]; omega
          · show p.toNat = max 54 (hdrOffset b.hdr + (b.j.toNat + 1) * b.rowBytes + 0)
            rw [hp, hsrc, hjm]; omega
        error := by simp [Block.errorOk, herr] }
  rcases hph with e | e
  · -- D_PIX
    simp only [Block.positionOk, e] at hpos
    obtain ⟨-, hk3, hn, -, -, -⟩ := hpos
    have hne : ({ b with rpos := r, pos := p } : Block).phase ≠ .dPad := by simp [e]
    simp only [Block.consume, hne, if_false, Block.consumePix]
    split
    · rename_i hn2
      have hn1 : (b.n + 1).toNat = b.n.toNat + 1 := add_one_toNat (by omega)
      exact { h with
        rpos_le := hrle
        k_le := by show (b.k + 1).toNat ≤ b.rowBytes; omega
        n_le := by simp only [hn1]; omega
        pos_lt := hplt
        position := by
          simp only [Block.positionOk, Block.sourceIndex, e, hk1, hn1]
          refine ⟨hj, by omega, by omega, ?_, ?_, hop⟩
          · show r.toNat = min 54 (hdrOffset b.hdr + b.j.toNat * b.rowBytes + (b.k.toNat + 1)); rw [hr, hsrc]; omega
          · show p.toNat = max 54 (hdrOffset b.hdr + b.j.toNat * b.rowBytes + (b.k.toNat + 1)); rw [hp, hsrc]; omega }
    · rename_i hn2
      split
      · rename_i hkk
        have hkk' : b.k.toNat + 1 = 3 * b.gw.toNat := by rw [← hk1]; exact hkk
        split
        · rename_i hpd
          have hpd' : 0 < b.pad := hpd
          exact { h with
            rpos_le := hrle
            k_le := by show (b.k + 1).toNat ≤ b.rowBytes; omega
            n_le := by simp
            hv_phase := fun _ _ _ => hhv
            pout_phase := by simp
            pos_lt := hplt
            position := by
              simp only [Block.positionOk, Block.sourceIndex, hk1]
              refine ⟨hj, by omega, ?_, trivial, ?_, ?_, hop⟩
              · show b.k.toNat + 1 < b.rowBytes; omega
              · show r.toNat = min 54 (hdrOffset b.hdr + b.j.toNat * b.rowBytes + (b.k.toNat + 1)); rw [hr, hsrc]; omega
              · show p.toNat = max 54 (hdrOffset b.hdr + b.j.toNat * b.rowBytes + (b.k.toNat + 1)); rw [hp, hsrc]; omega
            error := by simp [Block.errorOk, herr] }
        · rename_i hpd
          have hpd' : b.pad = 0 := by have : ¬ 0 < b.pad := hpd; omega
          exact hend _ _ _ (by omega) (fun _ => hpd')
      · rename_i hkk
        have hkk' : b.k.toNat + 1 ≠ 3 * b.gw.toNat := by rw [← hk1]; exact hkk
        exact { h with
          rpos_le := hrle
          k_le := by show (b.k + 1).toNat ≤ b.rowBytes; omega
          n_le := by simp
          pout_phase := by simp [e]
          pos_lt := hplt
          position := by
            simp only [Block.positionOk, Block.sourceIndex, e, hk1]
            refine ⟨hj, by omega, ?_, ?_, ?_, hop⟩
            · show 0 = (b.k.toNat + 1) % 3; omega
            · show r.toNat = min 54 (hdrOffset b.hdr + b.j.toNat * b.rowBytes + (b.k.toNat + 1)); rw [hr, hsrc]; omega
            · show p.toNat = max 54 (hdrOffset b.hdr + b.j.toNat * b.rowBytes + (b.k.toNat + 1)); rw [hp, hsrc]; omega }
  · -- D_PAD
    simp only [Block.positionOk, e] at hpos
    obtain ⟨-, hk3, -, hn, -, -, -⟩ := hpos
    have hee : ({ b with rpos := r, pos := p } : Block).phase = .dPad := e
    rw [Block.consume, if_pos hee, Block.consumePad]
    dsimp only
    split
    · rename_i hkk
      have hkk' : b.k.toNat + 1 = b.rowBytes := by rw [← hk1]; exact hkk
      have := hend b.pout b.pb b.phase hkk' (by simp [hpo])
      rw [← hn] at this
      exact this
    · rename_i hkk
      have hkk' : b.k.toNat + 1 ≠ b.rowBytes := by rw [← hk1]; exact hkk
      exact { h with
        rpos_le := hrle
        k_le := by show (b.k + 1).toNat ≤ b.rowBytes; omega
        pos_lt := hplt
        position := by
          simp only [Block.positionOk, Block.sourceIndex, e, hk1]
          refine ⟨hj, by omega, ?_, hn, ?_, ?_, hop⟩
          · show b.k.toNat + 1 < b.rowBytes; omega
          · show r.toNat = min 54 (hdrOffset b.hdr + b.j.toNat * b.rowBytes + (b.k.toNat + 1)); rw [hr, hsrc]; omega
          · show p.toNat = max 54 (hdrOffset b.hdr + b.j.toNat * b.rowBytes + (b.k.toNat + 1)); rw [hp, hsrc]; omega }


theorem u32_bytes {v : Nat} (h : v < 2 ^ 32) :
    (BitVec.ofNat 8 v).toNat + 2 ^ 8 * (BitVec.ofNat 8 (v / 256)).toNat + 2 ^ 16 * (BitVec.ofNat 8 (v / 256 / 256)).toNat
      + 2 ^ 24 * (BitVec.ofNat 8 (v / 256 / 256 / 256)).toNat = v := by
  simp only [BitVec.toNat_ofNat]; omega

theorem genHeaderBytes_eq (cfg : Config) (w h : Nat) : genHeaderBytes cfg w h =
    [0x42, 0x4D] ++ leBytes 4 (fileSizeOf w h) ++ [0,0,0,0, 54,0,0,0, 40,0,0,0] ++ leBytes 4 w ++ leBytes 4 h
     ++ [1,0, 24,0, 0,0,0,0, 0,0,0,0, 100,0,0,0, 100,0,0,0] ++ leBytes 4 cfg.clrUsedEnc.toNat ++ [0,0,0,0] := by
  simp only [genHeaderBytes, Config.encPixelOffset, Config.ihSizeReq, Config.encPlanes, Config.bppReq, Config.comprReq, Config.encRes, Config.sig0, Config.sig1]
  simp [leBytes_succ, leBytes_zero]

theorem genHeader_u32 (cfg : Config) (w h : Nat) (hw : w < 2 ^ 31) (hh : h < 2 ^ 31) :
    u32le (genHeader cfg w h) 18 = w ∧ u32le (genHeader cfg w h) 22 = h ∧ signatureOk (genHeader cfg w h) = true
    ∧ variantCause (genHeader cfg w h) = 0 := by
  have h1 : u32le (genHeader cfg w h) 18 = w := by
    simp only [u32le, hdrAt_genHeader, genHeaderBytes_eq, leBytes_succ, leBytes_zero]
    exact u32_bytes (by omega)
  have h2 : u32le (genHeader cfg w h) 22 = h := by
    simp only [u32le, hdrAt_genHeader, genHeaderBytes_eq, leBytes_succ, leBytes_zero]
    exact u32_bytes (by omega)
  have h3 : hdrIhsize (genHeader cfg w h) = 40 := by
    simp only [hdrIhsize, u32le, hdrAt_genHeader, genHeaderBytes_eq, leBytes_succ, leBytes_zero]
    rfl
  have h4 : hdrBpp (genHeader cfg w h) = 24 := by
    simp only [hdrBpp, u16le, hdrAt_genHeader, genHeaderBytes_eq, leBytes_succ, leBytes_zero]
    rfl
  have h5 : hdrCompr (genHeader cfg w h) = 0 := by
    simp only [hdrCompr, u32le, hdrAt_genHeader, genHeaderBytes_eq, leBytes_succ, leBytes_zero]
    rfl
  refine ⟨h1, h2, ?_, ?_⟩
  · simp only [signatureOk, hdrAt_genHeader, genHeaderBytes_eq]
    rfl
  · have a : ¬ (hdrWidth (genHeader cfg w h) < 0 ∨ hdrHeight (genHeader cfg w h) < 0) := by
      simp only [hdrWidth, hdrHeight, s32le, h1, h2, s32_neg_iff (show w < 2^32 by omega), s32_neg_iff (show h < 2^32 by omega)]; omega
    simp [variantCause, h3, h4, h5, Config.ihSizeReq, Config.bppReq, Config.comprReq, a]

/-- an accepted header's dimensions are below 2^31 -/
theorem variantCause_dims {h : Vector Byte 54} (hv : variantCause h = 0) : u32le h 18 < 2 ^ 31 ∧ u32le h 22 < 2 ^ 31 := by
  by_contra hc
  have hneg : hdrWidth h < 0 ∨ hdrHeight h < 0 := by
    simp only [hdrWidth, hdrHeight, s32le, s32_neg_iff (u32le_lt h _)]; omega
  have h3 : (variantCause h).getLsbD 3 = true := by
    simp only [variantCause, hneg, if_true, BitVec.getLsbD_or]
    simp
  rw [hv] at h3; simp at h3

theorem Block.Inv.accepted {b : Block} (hph : b.phase = .dHdr) (h : b.Inv) (hd : Vector Byte 54) (hp : BitVec 6) (p : BitVec 64)
    (hhp : hp.toNat = 54) (hpp : p.toNat = 54) (hs : signatureOk hd = true) (hv : variantCause hd = 0) :
    (({ b with hdr := hd, hpos := hp, pos := p } : Block).validated).Inv := by
  have hpos := h.position
  have herr := h.no_error (by simp [hph])
  have hpo : b.pout = none := by
    by_contra hc
    have := h.pout_phase (by simpa [Option.isSome_iff_ne_none] using hc)
    simp [hph] at this
  obtain ⟨d1, d2⟩ := variantCause_dims hv
  have e1 : (BitVec.ofNat 32 (u32le hd 18)).toNat = u32le hd 18 := by rw [BitVec.toNat_ofNat]; omega
  have e2 : (BitVec.ofNat 32 (u32le hd 22)).toNat = u32le hd 22 := by rw [BitVec.toNat_ofNat]; omega
  have hoff : hdrOffset hd < 2 ^ 32 := u32le_lt _ _
  simp only [Block.positionOk, hph] at hpos
  obtain ⟨h1, h2, h3, h4, h5, h6⟩ := hpos
  have hj := h.j_le
  have hk := h.k_le
  have hkz : b.k = 0 := by
    rw [Block.rowBytes, h3, rowBytesOf_eq] at hk; exact BitVec.eq_of_toNat_eq (by simpa using hk)
  have hjz : b.j = 0 := by rw [h4] at hj; exact BitVec.eq_of_toNat_eq (by simpa using hj)
  unfold Block.validated
  dsimp only
  split
  · exact { h with
      gw_lt := by simp only [e1]; exact d1
      gh_lt := by simp only [e2]; exact d2
      hpos_le := by simp only [hhp]; omega
      j_le := by simp [hjz]
      k_le := by simp [hkz]
      hv_valid := fun _ => ⟨hs, hv, e1.symm, e2.symm⟩
      hv_phase := fun _ _ _ => rfl
      pout_phase := by simp [hpo]
      pos_lt := by simp only [hpp]; norm_num
      position := by simp [Block.positionOk]
      error := by simp [Block.errorOk, herr] }
  · rename_i hop
    have hop2 : b.op = 0x2 := by rcases h6 with e | e; exact absurd e hop; exact e
    unfold Block.pixelStart
    dsimp only
    have hb : ({ b with hdr := hd, hpos := hp, pos := p, hv := true, gw := BitVec.ofNat 32 (u32le hd 18), gh := BitVec.ofNat 32 (u32le hd 22), j := 0, k := 0, n := 0 } : Block).rowBytes = rowBytesOf (u32le hd 18) := by
      simp only [Block.rowBytes, e1]
    rw [hb, e2]
    split
    · exact { h with
        gw_lt := by simp only [e1]; exact d1
        gh_lt := by simp only [e2]; exact d2
        hpos_le := by simp only [hhp]; omega
        j_le := by simp
        k_le := by simp
        n_le := by simp
        hv_valid := fun _ => ⟨hs, hv, e1.symm, e2.symm⟩
        hv_phase := fun _ _ _ => rfl
        pout_phase := by simp [hpo]
        pos_lt := by simp only [hpp]; norm_num
        position := by simp [Block.positionOk]
        error := by simp [Block.errorOk, herr] }
    · rename_i hT
      have hw0 : u32le hd 18 ≠ 0 := by intro e; rw [e] at hT; simp [rowBytesOf_eq] at hT
      have hh0 : u32le hd 22 ≠ 0 := by intro e; rw [e] at hT; simp at hT
      have hw0' : BitVec.ofNat 32 (u32le hd 18) ≠ 0 := fun e => by rw [e] at e1; simp at e1; omega
      have hh0' : BitVec.ofNat 32 (u32le hd 22) ≠ 0 := fun e => by rw [e] at e2; simp at e2; omega
      split
      · rename_i ho
        have es : (BitVec.ofNat 32 (hdrOffset hd - 54)).toNat = hdrOffset hd - 54 := by rw [BitVec.toNat_ofNat]; omega
        by_cases hs0 : 0 < hdrOffset hd - 54
        · simp only [hs0, if_true]
          exact { h with
            gw_lt := by simp only [e1]; exact d1
            gh_lt := by simp only [e2]; exact d2
            hpos_le := by simp only [hhp]; omega
            skip_le := by simp only [es]; omega
            rpos_le := by simp
            j_le := by simp
            k_le := by simp
            n_le := by simp
            hv_valid := fun _ => ⟨hs, hv, e1.symm, e2.symm⟩
            hv_phase := fun _ _ _ => rfl
            pout_phase := by simp [hpo]
            pos_lt := by simp only [hpp]; norm_num
            position := by
              simp only [Block.positionOk, es, hpp]
              refine ⟨trivial, trivial, trivial, hw0', hh0', rfl, ?_, by omega, by omega, hop2⟩
              intro e; rw [e] at es; simp at es; omega
            error := by simp [Block.errorOk, herr] }
        · simp only [hs0, if_false]
          exact { h with
            gw_lt := by simp only [e1]; exact d1
            gh_lt := by simp only [e2]; exact d2
            hpos_le := by simp only [hhp]; omega
            skip_le := by simp only [es]; omega
            rpos_le := by simp
            j_le := by simp
            k_le := by simp
            n_le := by simp
            hv_valid := fun _ => ⟨hs, hv, e1.symm, e2.symm⟩
            hv_phase := fun _ _ _ => rfl
            pout_phase := by simp
            pos_lt := by simp only [hpp]; norm_num
            position := by
              simp only [Block.positionOk, Block.sourceIndex, e1, e2, hpp]
              refine ⟨?_, ?_, rfl, ?_, ?_, hop2⟩ <;> simp <;> omega
            error := by simp [Block.errorOk, herr] }
      · rename_i ho
        have es : (BitVec.ofNat 6 (hdrOffset hd)).toNat = hdrOffset hd := by rw [BitVec.toNat_ofNat]; omega
        exact { h with
            gw_lt := by simp only [e1]; exact d1
            gh_lt := by simp only [e2]; exact d2
            hpos_le := by simp only [hhp]; omega
            skip_le := by simp
            rpos_le := by simp only [es]; omega
            j_le := by simp
            k_le := by simp
            n_le := by simp
            hv_valid := fun _ => ⟨hs, hv, e1.symm, e2.symm⟩
            hv_phase := fun _ _ _ => rfl
            pout_phase := by simp
            pos_lt := by simp only [hpp]; norm_num
            position := by
              simp only [Block.positionOk, Block.sourceIndex, e1, e2, hpp, es]
              refine ⟨?_, ?_, rfl, ?_, ?_, hop2⟩ <;> simp <;> omega
            error := by simp [Block.errorOk, herr] }

theorem Block.Inv.headerByte {b : Block} (h : b.Inv) (hph : b.phase = .dHdr) (x : Byte) : (b.headerByte x).Inv := by
  have hpos := h.position
  have herr := h.no_error (by simp [hph])
  simp only [Block.positionOk, hph] at hpos
  obtain ⟨h1, h2, h3, h4, h5, h6⟩ := hpos
  have hp1 : (b.hpos + 1).toNat = b.hpos.toNat + 1 := add_one_toNat (by omega)
  have hq1 : (b.pos + 1).toNat = b.pos.toNat + 1 := add_one_toNat (by omega)
  have hstep : ∀ hd : Vector Byte 54, b.hpos.toNat + 1 ≤ 54 → (b.hpos.toNat + 1 < 54 ∨ True) → True := fun _ _ _ => trivial
  unfold Block.headerByte
  dsimp only
  split
  · rename_i he
    rw [hp1] at he
    unfold Block.validate
    dsimp only
    have hbase : ∀ (vc : BitVec 4) (c : ErrCode), c ≠ .none → (vc ≠ 0 ↔ c = .unsupportedVariant) →
        (({ b with hdr := b.hdr.setIfInBounds b.hpos.toNat x, hpos := b.hpos + 1, pos := b.pos + 1, errVcause := vc } : Block).raiseError c .header).Inv := by
      intro vc c hc hvc
      exact { h with
        hpos_le := by simp only [Block.raiseError, hp1]; omega
        hv_valid := fun e => by simp [Block.raiseError, h5] at e
        hv_phase := by simp
        pout_phase := by simp
        pos_lt := by simp only [Block.raiseError, hq1]; omega
        position := by simp [Block.positionOk]
        error := ⟨by simp [hc], by simp [hc], by simpa using hvc⟩ }
    split
    · split
      · exact Block.Inv.accepted hph h _ _ _ (by omega) (by omega) ‹_› ‹_›
      · rename_i hvc
        exact hbase _ _ (by simp) (by simpa using hvc)
    · have := hbase b.errVcause .badSignature (by simp) (by simp [herr])
      exact this
  · rename_i he
    rw [hp1] at he
    exact { h with
      hpos_le := by simp only [hp1]; omega
      hv_valid := fun e => by simp [h5] at e
      hv_phase := fun _ e => absurd hph e
      pos_lt := by simp only [hq1]; omega
      position := by
        simp only [Block.positionOk, hph, hp1, hq1]
        exact ⟨by omega, by omega, h3, h4, h5, h6⟩ }

theorem Block.Inv.replay {b : Block} (h : b.Inv) (hr : b.replayReady = true) : b.replay.Inv := by
  simp only [Block.replayReady, Bool.and_eq_true, Bool.or_eq_true, beq_iff_eq, decide_eq_true_eq, Option.isNone_iff_eq_none] at hr
  obtain ⟨⟨hph, hlt⟩, hpo⟩ := hr
  have hpos := h.position
  have hq : b.rpos.toNat = min 54 b.sourceIndex ∧ b.pos.toNat = max 54 b.sourceIndex := by
    rcases hph with e | e <;> simp only [Block.positionOk, e] at hpos
    · exact ⟨hpos.2.2.2.1, hpos.2.2.2.2.1⟩
    · exact ⟨hpos.2.2.2.2.1, hpos.2.2.2.2.2.1⟩
  have h1 : (b.rpos + 1).toNat = b.rpos.toNat + 1 := add_one_toNat (by omega)
  exact h.consume (hdrAt b.hdr b.rpos.toNat) hph hpo (b.rpos + 1) b.pos (by omega) (by omega)

theorem Block.Inv.takeByte {b : Block} (h : b.Inv) (x : Byte) (hr : b.inReady = true) : (b.takeByte x).Inv := by
  unfold Block.takeByte
  have hmid : b.phase = .dPix ∨ b.phase = .dPad → (({ b with pos := b.pos + 1 } : Block).consume x).Inv := by
    intro hph
    have hr' : b.rpos.toNat = 54 ∧ b.pout = none := by
      rcases hph with e | e <;> simpa [Block.inReady, e] using hr
    have hpos := h.position
    have hq : b.rpos.toNat = min 54 b.sourceIndex ∧ b.pos.toNat = max 54 b.sourceIndex := by
      rcases hph with e | e <;> simp only [Block.positionOk, e] at hpos
      · exact ⟨hpos.2.2.2.1, hpos.2.2.2.2.1⟩
      · exact ⟨hpos.2.2.2.2.1, hpos.2.2.2.2.2.1⟩
    have hlt := h.pos_lt
    have h1 : (b.pos + 1).toNat = b.pos.toNat + 1 := add_one_toNat (by omega)
    exact h.consume x hph hr'.2 b.rpos (b.pos + 1) (by omega) (by omega)
  split
  · exact h.headerByte ‹_› x
  · exact h.gapByte ‹_›
  · exact hmid (.inl ‹_›)
  · exact hmid (.inr ‹_›)
  all_goals exact h

theorem Block.Inv.boutTaken {b : Block} (h : b.Inv) (hr : b.boutValid = true) : b.boutTaken.Inv := by
  have hpos := h.position
  have hgw := h.gw_lt
  have hgh := h.gh_lt
  have hlt := h.pos_lt
  have hrb : b.rowBytes = 3 * b.gw.toNat + b.gw.toNat % 4 := rowBytesOf_eq _
  have hpad : b.pad = b.gw.toNat % 4 := padOf_eq _
  have hfs : b.fileSize = 54 + b.rowBytes * b.gh.toNat := rfl
  have hpo : b.phase = .eHdr ∨ b.phase = .ePix ∨ b.phase = .ePad → b.pout = none := by
    intro e
    by_contra hc
    have := h.pout_phase (by simpa [Option.isSome_iff_ne_none] using hc)
    rcases e with e | e | e <;> simp [e] at this
  have hend : ∀ (p : BitVec 64) (en : BitVec 2) (q : Phase) , (b.phase = .ePix ∨ b.phase = .ePad) → b.j.toNat < b.gh.toNat → en = 0 → b.op = 0x3 → b.fileSize < 2 ^ 32 → b.gw.toNat ≠ 0 →
      p.toNat = 54 + (b.j.toNat + 1) * b.rowBytes →
      ({ b with pos := p, k := b.k + 1, en := en, phase := q } : Block).eRowEnd.Inv := by
    intro p en q hph hj hen hop hf hg hp
    have hj1 : (b.j + 1).toNat = b.j.toNat + 1 := add_one_toNat (by omega)
    have hje : (b.j + 1 = b.gh) ↔ b.j.toNat + 1 = b.gh.toNat := by
      rw [← hj1]; exact ⟨fun e => congrArg _ e, fun e => BitVec.eq_of_toNat_eq e⟩
    have hm := b.mul_row_le hj
    have hm2 : (b.j.toNat + 1) * b.rowBytes = b.j.toNat * b.rowBytes + b.rowBytes := by rw [Nat.add_mul, Nat.one_mul]
    have hhv : b.hv = true := by rcases hph with e | e <;> exact h.hv_phase (by simp [e]) (by simp [e]) (by simp [e])
    have herr := h.no_error (by rcases hph with e | e <;> simp [e])
    have hpo' := hpo (.inr hph)
    unfold Block.eRowEnd
    dsimp only
    by_cases he : b.j + 1 = b.gh
    · simp only [he, if_true]
      exact { h with
        j_le := by simp
        k_le := by simp
        hv_phase := fun _ _ _ => hhv
        pout_phase := by simp [hpo']
        pos_lt := by simp only; omega
        position := by simp [Block.positionOk]
        error := by simp [Block.errorOk, herr] }
    · simp only [he, if_false]
      have hlt' : b.j.toNat + 1 < b.gh.toNat := by have := mt hje.2 he; omega
      exact { h with
        j_le := by simp only [hj1]; omega
        k_le := by simp
        hv_phase := fun _ _ _ => hhv
        pout_phase := by simp [hpo']
        pos_lt := by simp only; omega
        position := by
          simp only [Block.positionOk, hj1]
          refine ⟨hlt', ?_, ?_, ?_, ?_, hf, hop⟩
          · simp; omega
          · simp [hen]
          · simp [hen]
          · simp [hp]; rfl
        error := by simp [Block.errorOk, herr] }
  unfold Block.boutTaken
  split
  · -- E_HDR
    rename_i e
    have hpo' := hpo (.inl e)
    have hhv : b.hv = true := h.hv_phase (by simp [e]) (by simp [e]) (by simp [e])
    have herr := h.no_error (by simp [e])
    simp only [Block.positionOk, e] at hpos
    obtain ⟨h1, h2, h3, h4, h5, h6⟩ := hpos
    have hp1 : (b.hpos + 1).toNat = b.hpos.toNat + 1 := add_one_toNat (by omega)
    have hq1 : (b.pos + 1).toNat = b.pos.toNat + 1 := add_one_toNat (by omega)
    have hh0 : b.gh.toNat ≠ 0 := fun c => h3 (BitVec.eq_of_toNat_eq c)
    dsimp only
    split
    · rename_i he
      rw [hp1] at he
      by_cases hg : b.gw = 0
      · simp only [hg, if_true]
        exact { h with
          hpos_le := by simp only [hp1]; omega
          gw_lt := by simp
          j_le := by simp
          k_le := by simp
          hv_valid := fun e' => by have := h.hv_valid e'; simpa [Block.headerValid, hg] using this
          hv_phase := fun _ _ _ => hhv
          pout_phase := by simp [hpo']
          pos_lt := by simp only [hq1]; omega
          position := by simp [Block.positionOk]
          error := by simp [Block.errorOk, herr] }
      · simp only [hg, if_false]
        have hg' : b.gw.toNat ≠ 0 := fun c => hg (BitVec.eq_of_toNat_eq c)
        exact { h with
          hpos_le := by simp only [hp1]; omega
          j_le := by simp
          k_le := by simp
          hv_phase := fun _ _ _ => hhv
          pout_phase := by simp [hpo']
          pos_lt := by simp only [hq1]; omega
          position := by
            simp only [Block.positionOk, hq1]
            refine ⟨?_, ?_, ?_, ?_, ?_, h5, h6⟩ <;> simp <;> omega
          error := by simp [Block.errorOk, herr] }
    · rename_i he
      rw [hp1] at he
      exact { h with
        hpos_le := by simp only [hp1]; omega
        pos_lt := by simp only [hq1]; omega
        position := by
          simp only [Block.positionOk, e, hp1, hq1]
          exact ⟨by omega, by omega, h3, h4, h5, h6⟩ }
  · -- E_PIX
    rename_i e
    have hpo' := hpo (.inr (.inl e))
    have hhv : b.hv = true := h.hv_phase (by simp [e]) (by simp [e]) (by simp [e])
    have herr := h.no_error (by simp [e])
    have hen : b.en ≠ 0 := by simpa [Block.boutValid, e] using hr
    have hen' : b.en.toNat ≠ 0 := fun c => hen (BitVec.eq_of_toNat_eq c)
    simp only [Block.positionOk, e] at hpos
    obtain ⟨h1, h2, h3, h4, h5, h6, h7⟩ := hpos
    have hm := b.mul_row_le h1
    have hp1 : (b.k + 1).toNat = b.k.toNat + 1 := add_one_toNat (by omega)
    have hq1 : (b.pos + 1).toNat = b.pos.toNat + 1 := add_one_toNat (by omega)
    have he1 : (b.en - 1).toNat = b.en.toNat - 1 := by rw [BitVec.toNat_sub]; simp; omega
    have hm2 : (b.j.toNat + 1) * b.rowBytes = b.j.toNat * b.rowBytes + b.rowBytes := by rw [Nat.add_mul, Nat.one_mul]
    dsimp only
    split
    · rename_i hc
      obtain ⟨hc1, hc2⟩ := hc
      rw [hp1] at hc2
      split
      · rename_i hpd
        have hpd' : 0 < b.pad := hpd
        exact { h with
          k_le := by show (b.k + 1).toNat ≤ b.rowBytes; omega
          hv_phase := fun _ _ _ => hhv
          pout_phase := by simp [hpo']
          pos_lt := by simp only [hq1]; omega
          position := by
            simp only [Block.positionOk, hp1, hq1, hc1]
            refine ⟨h1, by omega, ?_, trivial, ?_, h6, h7⟩
            · show b.k.toNat + 1 < b.rowBytes; omega
            · show b.pos.toNat + 1 = 54 + b.j.toNat * b.rowBytes + (b.k.toNat + 1); omega
          error := by simp [Block.errorOk, herr] }
      · rename_i hpd
        have hpd' : b.pad = 0 := by have : ¬ 0 < b.pad := hpd; omega
        have := hend (b.pos + 1) (b.en - 1) b.phase (.inl e) h1 hc1 h7 h6 (by omega) (by omega)
        exact this
    · rename_i hc
      have hc' : ¬ (b.en.toNat = 1 ∧ b.k.toNat + 1 = 3 * b.gw.toNat) := by
        rintro ⟨c1, c2⟩
        refine hc ⟨BitVec.eq_of_toNat_eq (by rw [he1]; simp; omega), by rw [hp1]; exact c2⟩
      exact { h with
        k_le := by show (b.k + 1).toNat ≤ b.rowBytes; omega
        pos_lt := by simp only [hq1]; omega
        position := by
          simp only [Block.positionOk, e, hp1, hq1, he1]
          refine ⟨h1, by omega, by omega, by omega, ?_, h6, h7⟩
          show b.pos.toNat + 1 = 54 + b.j.toNat * b.rowBytes + (b.k.toNat + 1); omega }
  · -- E_PAD
    rename_i e
    have hpo' := hpo (.inr (.inr e))
    simp only [Block.positionOk, e] at hpos
    obtain ⟨h1, h2, h3, h4, h5, h6, h7⟩ := hpos
    have hm := b.mul_row_le h1
    have hp1 : (b.k + 1).toNat = b.k.toNat + 1 := add_one_toNat (by omega)
    have hq1 : (b.pos + 1).toNat = b.pos.toNat + 1 := add_one_toNat (by omega)
    have hm2 : (b.j.toNat + 1) * b.rowBytes = b.j.toNat * b.rowBytes + b.rowBytes := by rw [Nat.add_mul, Nat.one_mul]
    dsimp only
    split
    · rename_i hc
      have hc' : b.k.toNat + 1 = b.rowBytes := by rw [← hp1]; exact hc
      have := hend (b.pos + 1) b.en b.phase (.inr e) h1 h4 h7 h6 (by omega) (by omega)
      exact this
    · rename_i hc
      have hc' : b.k.toNat + 1 ≠ b.rowBytes := by rw [← hp1]; exact hc
      exact { h with
        k_le := by show (b.k + 1).toNat ≤ b.rowBytes; omega
        pos_lt := by simp only [hq1]; omega
        position := by
          simp only [Block.positionOk, e, hp1, hq1]
          refine ⟨h1, by omega, ?_, h4, ?_, h6, h7⟩
          · show b.k.toNat + 1 < b.rowBytes; omega
          · show b.pos.toNat + 1 = 54 + b.j.toNat * b.rowBytes + (b.k.toNat + 1); omega }
  all_goals exact h

theorem Block.Inv.badCommand (o : BitVec 4) (b : Block) : (b.badCommand o).Inv := by
  have h := Block.Inv.commandStart o b (p := .idle) (.inl rfl)
  have := h.raiseError (c := .badCommand) (g := .command) (by simp) (by simp) (by simp)
  exact this

theorem Block.Inv.acceptEncode (cfg : Config) (b : Block) : (b.acceptEncode cfg).Inv := by
  have h := Block.Inv.commandStart 0x3 b (p := .idle) (.inl rfl)
  unfold Block.acceptEncode
  dsimp only
  split
  · exact h.raiseError (c := .emptyImage) (g := .command) (by simp) (by simp) (by simp)
  · split
    · exact h.raiseError (c := .tooLarge) (g := .command) (by simp) (by simp) (by simp)
    · rename_i h0 h1
      have hw : b.encW.toNat < 2 ^ 31 := by omega
      have hh : b.encH.toNat < 2 ^ 31 := by omega
      obtain ⟨g1, g2, g3, g4⟩ := genHeader_u32 cfg b.encW.toNat b.encH.toNat hw hh
      exact { h with
        gw_lt := hw
        gh_lt := hh
        hpos_le := by simp
        j_le := by simp
        k_le := by simp
        hv_valid := fun _ => ⟨g3, g4, g1, g2⟩
        hv_phase := fun _ _ _ => rfl
        pout_phase := by simp
        position := by
          simp only [Block.positionOk, Block.fileSize]
          refine ⟨by simp, by simp, ?_, by simp, ?_, by simp⟩
          · intro e; rw [e] at h0; simp at h0
          · omega
        error := by simp [Block.errorOk] }

theorem Block.Inv.busEffect {cfg : Config} {b b' : Block} (h : b.Inv) (e : b.BusEffect cfg b') : b'.Inv := by
  cases e with
  | same => exact h
  | ignored _ => exact { h with }
  | start op _ ho => exact Block.Inv.commandStart op b (.inr ⟨rfl, ho⟩)
  | encode _ => exact Block.Inv.acceptEncode cfg b
  | bad op _ => exact Block.Inv.badCommand op b
  | abort => exact h.abort
  | encW v => exact { h with }
  | encH v => exact { h with }

end Sys2Proof.Machine
end

