-- ==== Sys2Proof/Laws/Ops.lean ====
section
/-! SUPPORT. What each shared operation can do, said once: the phase it may lead to, and its frame, an equation that names
every field it may change.  Later proofs cite these instead of unfolding the operation. -/

namespace Sys2Proof.Machine

/-! ### Phases -/

theorem Block.pixelStart_phase (b : Block) : b.pixelStart.phase ∈ [Phase.done, .dSkip, .dPix] := by
  unfold Block.pixelStart; dsimp only; split_ifs <;> simp

theorem Block.validated_phase (b : Block) : b.validated.phase ∈ [Phase.done, .dSkip, .dPix] := by
  unfold Block.validated; dsimp only; split
  · simp
  · exact Block.pixelStart_phase _

theorem Block.validate_phase (b : Block) : b.validate.phase ∈ [Phase.error, .done, .dSkip, .dPix] := by
  unfold Block.validate; dsimp only; split_ifs
  · exact List.mem_cons_of_mem _ b.validated_phase
  · simp [Block.raiseError]
  · simp [Block.raiseError]

theorem Block.headerByte_phase (x : Byte) (b : Block) :
    (b.headerByte x).phase = b.phase ∨ (b.headerByte x).phase ∈ [Phase.error, .done, .dSkip, .dPix] := by
  unfold Block.headerByte; dsimp only; split
  · exact .inr (Block.validate_phase _)
  · exact .inl rfl

theorem Block.gapByte_phase (b : Block) : b.gapByte.phase = b.phase ∨ b.gapByte.phase = .dPix := by
  unfold Block.gapByte; dsimp only; split
  · exact .inr rfl
  · exact .inl rfl

theorem Block.rowEnd_phase (b : Block) :
    b.rowEnd.phase = .dPix ∨ (b.pout.isSome = true ∧ b.rowEnd.phase = .dDrain) ∨ (b.pout = none ∧ b.rowEnd.phase = .done) := by
  unfold Block.rowEnd; cases b.pout <;> dsimp only <;> split <;> simp

theorem Block.consumePix_phase (x : Byte) (b : Block) :
    (b.consumePix x).phase = b.phase ∨ (b.consumePix x).phase ∈ [Phase.dPad, .dPix, .dDrain] := by
  unfold Block.consumePix; dsimp only; split_ifs
  · exact .inl rfl
  · simp
  · right
    generalize hq : some (Block.pixelWord x (b.k.toNat / 3) _) = q
    rcases Block.rowEnd_phase { b with k := b.k + 1, pout := q, n := 0 } with h | ⟨-, h⟩ | ⟨h, -⟩
    · rw [h]; simp
    · rw [h]; simp
    · subst hq; cases h
  · exact .inl rfl

theorem Block.consumePad_phase {b : Block} (h : b.pout = none) :
    b.consumePad.phase = b.phase ∨ b.consumePad.phase ∈ [Phase.dPix, .done] := by
  unfold Block.consumePad; dsimp only; split
  · right
    rcases Block.rowEnd_phase { b with k := b.k + 1 } with e | ⟨e, -⟩ | ⟨-, e⟩
    · rw [e]; simp
    · rw [h] at e; cases e
    · rw [e]; simp
  · exact .inl rfl

theorem Block.eRowEnd_phase (b : Block) : b.eRowEnd.phase ∈ [Phase.done, .ePix] := by
  unfold Block.eRowEnd; dsimp only; split <;> simp

/-! ### Frames -/

theorem Block.pixelStart_frame (b : Block) : b.pixelStart =
    { b with j := 0, k := 0, n := 0, rpos := b.pixelStart.rpos, skip := b.pixelStart.skip, phase := b.pixelStart.phase } := by
  unfold Block.pixelStart; dsimp only; split_ifs <;> rfl

theorem Block.validated_frame (b : Block) : b.validated =
    { b with
      hv := true, gw := BitVec.ofNat 32 (u32le b.hdr 18), gh := BitVec.ofNat 32 (u32le b.hdr 22),
      j := b.validated.j, k := b.validated.k, n := b.validated.n, rpos := b.validated.rpos, skip := b.validated.skip,
      phase := b.validated.phase } := by
  unfold Block.validated; dsimp only; split
  · rfl
  · rw [Block.pixelStart_frame]

theorem Block.validate_frame (b : Block) : b.validate =
    { b with
      hv := b.validate.hv, gw := b.validate.gw, gh := b.validate.gh,
      errCode := b.validate.errCode, errVcause := b.validate.errVcause, errStage := b.validate.errStage,
      j := b.validate.j, k := b.validate.k, n := b.validate.n, rpos := b.validate.rpos, skip := b.validate.skip,
      pout := b.validate.pout, phase := b.validate.phase } := by
  unfold Block.validate; dsimp only; split_ifs
  · rw [Block.validated_frame]
  · rfl
  · rfl

theorem Block.headerByte_frame (x : Byte) (b : Block) : b.headerByte x =
    { b.headerByte x with
      hdr := b.hdr.setIfInBounds b.hpos.toNat x, hpos := b.hpos + 1, pos := b.pos + 1,
      encW := b.encW, encH := b.encH, op := b.op, ign := b.ign, pb := b.pb, ebuf := b.ebuf, en := b.en } := by
  unfold Block.headerByte; dsimp only; split
  · rw [Block.validate_frame]
  · rfl

theorem Block.rowEnd_frame (b : Block) : b.rowEnd = { b with j := b.j + 1, k := 0, phase := b.rowEnd.phase } := by
  unfold Block.rowEnd; dsimp only; split_ifs <;> rfl

theorem Block.consume_frame (x : Byte) (b : Block) : b.consume x =
    { b with
      j := (b.consume x).j, k := (b.consume x).k, pb := (b.consume x).pb, n := (b.consume x).n,
      pout := (b.consume x).pout, phase := (b.consume x).phase } := by
  unfold Block.consume Block.consumePad Block.consumePix; dsimp only; split_ifs
  all_goals first | rfl | (rw [Block.rowEnd_frame])

theorem Block.boutTaken_frame (b : Block) : b.boutTaken =
    { b with
      pos := b.boutTaken.pos, hpos := b.boutTaken.hpos, j := b.boutTaken.j, k := b.boutTaken.k, en := b.boutTaken.en,
      phase := b.boutTaken.phase } := by
  unfold Block.boutTaken Block.eRowEnd; cases b.phase <;> dsimp only <;> (try split_ifs) <;> rfl

theorem Block.raiseError_frame (c : ErrCode) (g : Stage) (b : Block) : b.raiseError c g =
    { b with errCode := c, errStage := g, pout := none, phase := .error } := rfl

theorem Block.takeByte_frame (x : Byte) (b : Block) : b.takeByte x =
    { b.takeByte x with
      encW := b.encW, encH := b.encH, op := b.op, ign := b.ign, ebuf := b.ebuf, en := b.en } := by
  unfold Block.takeByte
  split
  · rw [Block.headerByte_frame]
  · unfold Block.gapByte; dsimp only; split <;> rfl
  · rw [Block.consume_frame]
  · rw [Block.consume_frame]
  all_goals rfl

theorem Block.takeByte_hdr (x : Byte) (b : Block) :
    (b.takeByte x).hdr = if b.phase = .dHdr then b.hdr.setIfInBounds b.hpos.toNat x else b.hdr := by
  unfold Block.takeByte
  split
  · rw [Block.headerByte_frame]; simp [*]
  · unfold Block.gapByte; dsimp only; split <;> simp [*]
  · rw [Block.consume_frame]; simp [*]
  · rw [Block.consume_frame]; simp [*]
  all_goals simp [*]

theorem Block.takeEos_frame (b : Block) : b.takeEos =
    { b with
      errCode := b.takeEos.errCode, errStage := b.takeEos.errStage, pout := b.takeEos.pout, phase := b.takeEos.phase } := by
  unfold Block.takeEos; split <;> rfl

theorem Block.poutTaken_frame (b : Block) : b.poutTaken = { b with pout := none, phase := b.poutTaken.phase } := rfl

theorem Block.takePixel_frame (r g bl : Byte) (b : Block) :
    b.takePixel r g bl = { b with ebuf := #v[bl, g, r], en := 3 } := rfl

theorem Block.replay_frame (b : Block) : b.replay =
    { b with
      rpos := b.rpos + 1, j := b.replay.j, k := b.replay.k, pb := b.replay.pb, n := b.replay.n, pout := b.replay.pout,
      phase := b.replay.phase } := by
  unfold Block.replay; rw [Block.consume_frame]

/-- A byte the block takes from IN is counted in POS, whatever the phase. -/
theorem Block.takeByte_pos (x : Byte) {b : Block} (h : b.inReady = true) : (b.takeByte x).pos = b.pos + 1 := by
  revert h; unfold Block.inReady Block.takeByte
  cases b.phase <;> simp
  · rw [Block.headerByte_frame]
    rfl
  · unfold Block.gapByte; dsimp only; split <;> rfl
  · intros; rw [Block.consume_frame]
  · intros; rw [Block.consume_frame]

/-- An EOS the block takes is an error: TRUNCATED. -/
theorem Block.takeEos_error {b : Block} (h : b.inReady = true) :
    b.takeEos.phase = .error ∧ b.takeEos.errCode = .truncated := by
  revert h; unfold Block.inReady Block.takeEos
  cases b.phase <;> simp

/-- A byte the host takes from BOUT is counted in POS, whatever the phase. -/
theorem Block.boutTaken_pos {b : Block} (h : b.boutValid = true) : b.boutTaken.pos = b.pos + 1 := by
  revert h; unfold Block.boutValid Block.boutTaken Block.eRowEnd
  cases b.phase <;> simp <;> (try split_ifs) <;> simp

/-- While busy, a command other than NOP and ABORT only sets IGN. -/
theorem Block.whenIdle_busy {b : Block} (f : Block → Block) (h : b.phase.busy = true) :
    b.whenIdle f = { b with ign := true } := by simp [Block.whenIdle, h]

/-- While not busy, it starts. -/
theorem Block.whenIdle_idle {b : Block} (f : Block → Block) (h : b.phase.busy = false) : b.whenIdle f = f b := by
  simp [Block.whenIdle, h]

/-- ABORT while busy enters ERROR. -/
theorem Block.abort_busy {b : Block} (h : b.phase.busy = true) : b.abort =
    { b with op := 0xF, errCode := .aborted, errStage := b.phase.abortStage, pout := none, phase := .error } := by
  simp [Block.abort, h, Block.raiseError]

/-- ABORT while not busy returns to IDLE. -/
theorem Block.abort_idle {b : Block} (h : b.phase.busy = false) : b.abort =
    { b with op := 0xF, errCode := .none, errVcause := 0, errStage := .none, ign := false, phase := .idle } := by
  simp [Block.abort, h]

/-- The three outcomes of ENCODE's acceptance, each with its condition. -/
theorem Block.acceptEncode_cases (cfg : Config) (b : Block) :
    (b.encH.toNat = 0 ∧ b.acceptEncode cfg = (b.commandStart 0x3).raiseError .emptyImage .command)
    ∨ (b.encH.toNat ≠ 0
        ∧ (2 ^ 31 ≤ b.encW.toNat ∨ 2 ^ 31 ≤ b.encH.toNat ∨ 2 ^ 32 ≤ fileSizeOf b.encW.toNat b.encH.toNat)
        ∧ b.acceptEncode cfg = (b.commandStart 0x3).raiseError .tooLarge .command)
    ∨ (b.encH.toNat ≠ 0
        ∧ ¬ (2 ^ 31 ≤ b.encW.toNat ∨ 2 ^ 31 ≤ b.encH.toNat ∨ 2 ^ 32 ≤ fileSizeOf b.encW.toNat b.encH.toNat)
        ∧ b.acceptEncode cfg = { b.commandStart 0x3 with
            gw := b.encW, gh := b.encH, hdr := genHeader cfg b.encW.toNat b.encH.toNat, hv := true, hpos := 0,
            phase := .eHdr }) := by
  unfold Block.acceptEncode; dsimp only
  split_ifs with h1 h2
  · exact .inl ⟨h1, rfl⟩
  · exact .inr (.inl ⟨h1, h2, rfl⟩)
  · exact .inr (.inr ⟨h1, h2, rfl⟩)

/-- A misaligned read returns 0 (20_memory.md R52). -/
theorem Block.readReg_misaligned (b : Block) {a : Byte} (h : aligned a = false) : b.readReg a = 0 := by
  simp [Block.readReg, h]

/-- An aligned read returns the register map's value (20_memory.md R50). -/
theorem Block.readReg_aligned (b : Block) {a : Byte} (h : aligned a = true) : b.readReg a = b.regAt a := by
  simp [Block.readReg, h]

/-! ### ENC_W and ENC_H are read by ENCODE's acceptance, and by the host's reads of them, alone (10_state.md R18) -/

/-- The block with other values in ENC_W and ENC_H. -/
def Block.withEnc (w h : Word) (b : Block) : Block := { b with encW := w, encH := h }

section enc

variable (w h : Word) (b : Block)

theorem Block.withEnc_pixelStart : (b.withEnc w h).pixelStart = b.pixelStart.withEnc w h := by
  cases b; unfold Block.pixelStart Block.withEnc Block.rowBytes; dsimp only; split_ifs <;> rfl

theorem Block.withEnc_validated : (b.withEnc w h).validated = b.validated.withEnc w h := by
  have e := Block.withEnc_pixelStart w h
    { b with hv := true, gw := BitVec.ofNat 32 (u32le b.hdr 18), gh := BitVec.ofNat 32 (u32le b.hdr 22) }
  cases b; unfold Block.validated Block.withEnc at *; dsimp only at *; split
  · rfl
  · exact e

theorem Block.withEnc_validate : (b.withEnc w h).validate = b.validate.withEnc w h := by
  have e := Block.withEnc_validated w h b
  cases b; unfold Block.validate Block.raiseError Block.withEnc at *; dsimp only at *; split_ifs
  · exact e
  · rfl
  · rfl

theorem Block.withEnc_headerByte (x : Byte) : (b.withEnc w h).headerByte x = (b.headerByte x).withEnc w h := by
  have e := Block.withEnc_validate w h
    { b with hdr := b.hdr.setIfInBounds b.hpos.toNat x, hpos := b.hpos + 1, pos := b.pos + 1 }
  cases b; unfold Block.headerByte Block.withEnc at *; dsimp only at *; split
  · exact e
  · rfl

theorem Block.withEnc_consume (x : Byte) : (b.withEnc w h).consume x = (b.consume x).withEnc w h := by
  cases b
  unfold Block.consume Block.consumePad Block.consumePix Block.rowEnd Block.withEnc Block.rowBytes Block.pad Block.pixelWord
  dsimp only; split_ifs <;> rfl

theorem Block.withEnc_boutTaken : (b.withEnc w h).boutTaken = b.boutTaken.withEnc w h := by
  obtain ⟨_, _, _, _, ph, _, _, _, _, _, _, _, _, _, _, _, _, _, _, _, _, _, _⟩ := b
  unfold Block.boutTaken Block.eRowEnd Block.withEnc Block.rowBytes Block.pad
  cases ph <;> dsimp only <;> (try split_ifs) <;> rfl

theorem Block.withEnc_replay : (b.withEnc w h).replay = b.replay.withEnc w h := by
  unfold Block.replay; rw [← Block.withEnc_consume]; rfl

theorem Block.withEnc_takeByte (x : Byte) : (b.withEnc w h).takeByte x = (b.takeByte x).withEnc w h := by
  have e1 := Block.withEnc_headerByte w h b x
  have e2 := Block.withEnc_consume w h { b with pos := b.pos + 1 } x
  have hp : (b.withEnc w h).phase = b.phase := rfl
  unfold Block.takeByte; rw [hp]
  cases hp : b.phase <;> dsimp only
  · exact e1
  · unfold Block.gapByte Block.withEnc; dsimp only; split <;> rfl
  · simp only [hp] at e2; simpa only [hp, Block.withEnc] using e2
  · simp only [hp] at e2; simpa only [hp, Block.withEnc] using e2

theorem Block.withEnc_takeEos : (b.withEnc w h).takeEos = b.takeEos.withEnc w h := by
  have hp : (b.withEnc w h).phase = b.phase := rfl
  unfold Block.takeEos; rw [hp]
  cases b.phase <;> rfl

theorem Block.withEnc_ctrlWrite (cfg : Config) (op : BitVec 4) (ho : op = 0x3 → b.phase.busy = true) :
    (b.withEnc w h).ctrlWrite cfg op = (b.ctrlWrite cfg op).withEnc w h := by
  have hp : (b.withEnc w h).phase = b.phase := rfl
  unfold Block.ctrlWrite Block.whenIdle Block.abort; rw [hp]
  by_cases h3 : op = 0x3
  · rw [ho h3, h3]; rfl
  · simp only [h3, if_false]
    split_ifs <;> rfl

theorem Block.withEnc_readReg {a : Byte} (h0 : a ≠ 0x30) (h1 : a ≠ 0x34) : (b.withEnc w h).readReg a = b.readReg a := by
  have e0 : a.toNat ≠ 0x30 := fun e => h0 (BitVec.eq_of_toNat_eq e)
  have e1 : a.toNat ≠ 0x34 := fun e => h1 (BitVec.eq_of_toNat_eq e)
  unfold Block.readReg; split
  · unfold Block.regAt; split <;> first | rfl | contradiction
  · rfl

end enc

end Sys2Proof.Machine
end

