-- ==== Sys2Proof/Laws/PerInstr.lean ====
section
/-! SUPPORT. The statements made of every instruction, one lemma per constructor.  `FixedLength`: the bytes of an instruction's
word have the fixed length of its format, so a decoder never has to determine one (30_encoding.md R87). -/

namespace Sys2Proof.Laws

open Sys2Proof Sys2Proof.Machine

/-- The bytes of the instruction's word are as many as its format has. -/
def FixedLength.Statement (i : Instr) : Prop := (encodeBytes i).2.length = formatBytes (encodeBytes i).1

/-- The bytes of any host word are as many as its format has. -/
theorem length_bytesOfWire (w : Wire) : (bytesOfWire w).2.length = formatBytes (bytesOfWire w).1 := by
  rcases w with (_ | _) | _ | _ | _ | _ <;> simp [bytesOfWire, formatBytes, length_leBytes]

theorem FixedLength.nop (x : BitVec 28) : FixedLength.Statement (.nop x) := length_bytesOfWire _

theorem FixedLength.parse (x : BitVec 28) : FixedLength.Statement (.parse x) := length_bytesOfWire _

theorem FixedLength.decodeCmd (x : BitVec 28) : FixedLength.Statement (.decodeCmd x) := length_bytesOfWire _

theorem FixedLength.encodeCmd (x : BitVec 28) : FixedLength.Statement (.encodeCmd x) := length_bytesOfWire _

theorem FixedLength.rsvd4 (x : BitVec 28) : FixedLength.Statement (.rsvd4 x) := length_bytesOfWire _

theorem FixedLength.rsvd5 (x : BitVec 28) : FixedLength.Statement (.rsvd5 x) := length_bytesOfWire _

theorem FixedLength.rsvd6 (x : BitVec 28) : FixedLength.Statement (.rsvd6 x) := length_bytesOfWire _

theorem FixedLength.rsvd7 (x : BitVec 28) : FixedLength.Statement (.rsvd7 x) := length_bytesOfWire _

theorem FixedLength.rsvd8 (x : BitVec 28) : FixedLength.Statement (.rsvd8 x) := length_bytesOfWire _

theorem FixedLength.rsvd9 (x : BitVec 28) : FixedLength.Statement (.rsvd9 x) := length_bytesOfWire _

theorem FixedLength.rsvdA (x : BitVec 28) : FixedLength.Statement (.rsvdA x) := length_bytesOfWire _

theorem FixedLength.rsvdB (x : BitVec 28) : FixedLength.Statement (.rsvdB x) := length_bytesOfWire _

theorem FixedLength.rsvdC (x : BitVec 28) : FixedLength.Statement (.rsvdC x) := length_bytesOfWire _

theorem FixedLength.rsvdD (x : BitVec 28) : FixedLength.Statement (.rsvdD x) := length_bytesOfWire _

theorem FixedLength.rsvdE (x : BitVec 28) : FixedLength.Statement (.rsvdE x) := length_bytesOfWire _

theorem FixedLength.abort (x : BitVec 28) : FixedLength.Statement (.abort x) := length_bytesOfWire _

theorem FixedLength.regWr (a : Byte) (v : Word) : FixedLength.Statement (.regWr a v) := length_bytesOfWire _

theorem FixedLength.regRd (a : Byte) : FixedLength.Statement (.regRd a) := length_bytesOfWire _

theorem FixedLength.inByte (d : Byte) : FixedLength.Statement (.inByte d) := length_bytesOfWire _

theorem FixedLength.inEos (x : Byte) : FixedLength.Statement (.inEos x) := length_bytesOfWire _

theorem FixedLength.pin (x b g r : Byte) : FixedLength.Statement (.pin x b g r) := length_bytesOfWire _

theorem FixedLength.poutTake : FixedLength.Statement .poutTake := length_bytesOfWire _

theorem FixedLength.boutTake : FixedLength.Statement .boutTake := length_bytesOfWire _

end Sys2Proof.Laws
end

