-- ==== Sys2Proof/Laws/Words.lean ====
section
/-! SUPPORT. Fields of a concatenation, and through them the fields of the CMD, IN, PIN, POUT, BOUT, STATUS and ERR words:
what a later proof about an encoding cites instead of reasoning bit by bit. -/

namespace Sys2Proof

section append

variable {n m k : Nat} (x : BitVec n) (y : BitVec m)

/-- The low field of a concatenation is its right part. -/
theorem extract_append_low : (x ++ y).extractLsb' 0 m = y := by
  ext i hi
  simp [BitVec.getLsbD_append, hi]

/-- A field above the right part is a field of the left part. -/
theorem extract_append_high (s : Nat) : (x ++ y).extractLsb' (m + s) k = x.extractLsb' s k := by
  ext i hi
  simp [BitVec.getLsbD_append, show ¬ m + s + i < m by omega, show m + s + i - m = s + i by omega]

/-- All of the left part. -/
theorem extract_append_left : (x ++ y).extractLsb' m n = x := by
  ext i hi
  simp [BitVec.getLsbD_append, hi]

/-- A bit above the right part is a bit of the left part. -/
theorem getLsbD_append_high (i : Nat) : (x ++ y).getLsbD (m + i) = x.getLsbD i := by
  simp [BitVec.getLsbD_append]

end append

theorem cmdOp_append (x : BitVec 28) (o : BitVec 4) : cmdOp (x ++ o) = o := extract_append_low x o

theorem cmdIgnored_append (x : BitVec 28) (o : BitVec 4) : cmdIgnored (x ++ o) = x := extract_append_left x o

/-- A CMD word is its ignored bits and its opcode. -/
theorem cmd_split (v : Word) : cmdIgnored v ++ cmdOp v = v := by
  have h : ∀ a : BitVec (28 + 4), a.extractLsb' 4 28 ++ a.extractLsb' 0 4 = a := fun a => by
    ext i hi
    rw [BitVec.getElem_append]
    split
    · simp [BitVec.getLsbD_eq_getElem hi]
    · simp [show 4 + (i - 4) = i by omega, BitVec.getLsbD_eq_getElem hi]
  exact h v

theorem in_data_append (e : BitVec 1) (d : Byte) : (e ++ d : BitVec 9).extractLsb' 0 8 = d := extract_append_low e d

theorem in_eos_append (e : BitVec 1) (d : Byte) : (e ++ d : BitVec 9).getLsbD 8 = e.getLsbD 0 := getLsbD_append_high e d 0

theorem decodeIn_byte (d : Byte) : decodeIn (0#1 ++ d) = .inByte d := by
  have h : (0#1 ++ d : BitVec 9).getLsbD 8 = false := in_eos_append 0#1 d
  rw [decodeIn, h, in_data_append]; rfl

theorem decodeIn_eos (d : Byte) : decodeIn (1#1 ++ d) = .inEos d := by
  have h : (1#1 ++ d : BitVec 9).getLsbD 8 = true := in_eos_append 1#1 d
  rw [decodeIn, h, in_data_append]; rfl

theorem pin_fields (x b g r : Byte) :
    (x ++ b ++ g ++ r : Word).extractLsb' 24 8 = x ∧ (x ++ b ++ g ++ r : Word).extractLsb' 16 8 = b
    ∧ (x ++ b ++ g ++ r : Word).extractLsb' 8 8 = g ∧ (x ++ b ++ g ++ r : Word).extractLsb' 0 8 = r := by
  refine ⟨?_, ?_, ?_, extract_append_low _ r⟩
  · exact (extract_append_high (x ++ b ++ g) r 16).trans
      ((extract_append_high (x ++ b) g 8).trans (extract_append_left x b))
  · exact (extract_append_high (x ++ b ++ g) r 8).trans
      ((extract_append_high (x ++ b) g 0).trans (extract_append_low x b))
  · exact (extract_append_high (x ++ b ++ g) r 0).trans (extract_append_low (x ++ b) g)

end Sys2Proof
end

