-- ==== Sys2Proof/Tests/Slice0.lean ====
section
/-! SUPPORT. The model's own tests: expected results are those of spec/95_test_vectors.md and of the encodings of
spec/30_encoding.md, each about one decoding or one step.  Then, for each obligation with hypotheses, a named witness that meets
all of them. -/

namespace Sys2Proof.Tests

open Sys2Proof Sys2Proof.Machine

/-! ### Small states -/

/-- H22 of 95_test_vectors.md section 0: the header of a 2x2 image, byte by byte. -/
def h22 : List Byte :=
  [0x42, 0x4D, 0x46, 0x00, 0x00, 0x00, 0x00, 0x00, 0x00, 0x00, 0x36, 0x00, 0x00, 0x00] ++
  [0x28, 0x00, 0x00, 0x00, 0x02, 0x00, 0x00, 0x00, 0x02, 0x00, 0x00, 0x00, 0x01, 0x00, 0x18, 0x00, 0x00, 0x00, 0x00, 0x00] ++
  [0x00, 0x00, 0x00, 0x00, 0x64, 0x00, 0x00, 0x00, 0x64, 0x00, 0x00, 0x00, 0xFF, 0x00, 0x00, 0x00, 0x00, 0x00, 0x00, 0x00]

/-- H22 with some bytes changed, as a header buffer. -/
def changed (cs : List (Nat × Byte)) : Vector Byte 54 := headerOf (cs.foldl (fun l c => l.set c.1 c.2) h22)

/-- A block, a host that offers nothing, and the default build. -/
def st (b : Block) : State := { State.reset with blk := b }

/-- A block in D_HDR of a run of opcode `op` that holds all of a header but its last byte. -/
def lastByte (op : BitVec 4) (cs : List (Nat × Byte)) : Block :=
  { Block.reset with op := op, phase := .dHdr, hdr := changed cs, hpos := 53, pos := 53 }

/-- A block in the pixel phase of a DECODE of a 2x2 image: `k` row bytes handled, `n` of them waiting in pb. -/
def pixels (p : Phase) (j : Word) (k : BitVec 34) (n : BitVec 2) : Block :=
  { Block.reset with
    op := 2, phase := p, hdr := changed [], hv := true, gw := 2, gh := 2, hpos := 54, rpos := 54,
    pos := 54 + BitVec.ofNat 64 (8 * j.toNat) + k.setWidth 64, j := j, k := k, n := n, pb := #v[0x1E, 0x14] }

/-- A block in an encode phase of an ENCODE of a 2x2 image. -/
def encoding (p : Phase) (hpos : BitVec 6) (j : Word) (k : BitVec 34) (en : BitVec 2) : Block :=
  { Block.reset with
    op := 3, phase := p, hdr := changed [], hv := true, gw := 2, gh := 2, encW := 2, encH := 2, hpos := hpos,
    pos := if p = .eHdr then hpos.setWidth 64 else 54 + BitVec.ofNat 64 (8 * j.toNat) + k.setWidth 64,
    j := j, k := k, en := en, ebuf := #v[0x1E, 0x14, 0x0A] }

/-- A block whose host has written a geometry for ENCODE. -/
def geometry (w h : Word) : Block := { Block.reset with encW := w, encH := h }

/-- The state after an instruction. -/
def after (i : Instr) (b : Block) : State :=
  match exec i (st b) with
  | .next t => t
  | .fault _ => st b
  | .refused _ => st b

/-! ### Syntax and decoding -/

/-- The one check of WellFormed: a command spelt as a register write is refused (43_control.md R147). -/
theorem test_wellFormed_refuses_write_to_ctrl : (Instr.regWr 0x00 0x2).wellFormed = false := by decide

/-- The neighbours of the check pass: another address, and the command itself. -/
theorem test_wellFormed_accepts : (Instr.regWr 0x02 0x2).wellFormed = true ∧ (Instr.decodeCmd 0).wellFormed = true := by
  decide

/-- R80: the opcode field of a value written to CTRL, bit by bit. -/
theorem test_decode_commands :
    decode (.bus (.write 0x00 0b00000000000000000000000000000000#32)) = .nop 0
    ∧ decode (.bus (.write 0x00 0b00000000000000000000000000000001#32)) = .parse 0
    ∧ decode (.bus (.write 0x00 0b00000000000000000000000000000010#32)) = .decodeCmd 0
    ∧ decode (.bus (.write 0x00 0b00000000000000000000000000000011#32)) = .encodeCmd 0
    ∧ decode (.bus (.write 0x00 0b00000000000000000000000000001111#32)) = .abort 0
    ∧ decode (.bus (.write 0x00 0b10000000000000000000000000010010#32)) = .decodeCmd 0x8000001 := by decide

/-- R79, R81: the eleven reserved opcodes. -/
theorem test_decode_reserved :
    decode (.bus (.write 0x00 0b0100#32)) = .rsvd4 0 ∧ decode (.bus (.write 0x00 0b0101#32)) = .rsvd5 0
    ∧ decode (.bus (.write 0x00 0b0110#32)) = .rsvd6 0 ∧ decode (.bus (.write 0x00 0b0111#32)) = .rsvd7 0
    ∧ decode (.bus (.write 0x00 0b1000#32)) = .rsvd8 0 ∧ decode (.bus (.write 0x00 0b1001#32)) = .rsvd9 0
    ∧ decode (.bus (.write 0x00 0b1010#32)) = .rsvdA 0 ∧ decode (.bus (.write 0x00 0b1011#32)) = .rsvdB 0
    ∧ decode (.bus (.write 0x00 0b1100#32)) = .rsvdC 0 ∧ decode (.bus (.write 0x00 0b1101#32)) = .rsvdD 0
    ∧ decode (.bus (.write 0x00 0b1110#32)) = .rsvdE 0 := by decide

/-- R49: a register access is an address and, for a write, a value. -/
theorem test_decode_registers :
    decode (.bus (.write 0x30 0x2)) = .regWr 0x30 2 ∧ decode (.bus (.read 0x00)) = .regRd 0x00
    ∧ decode (.bus (.write 0x02 0x2)) = .regWr 0x02 2 := by decide

/-- R75: IN words, EOS in bit 8.  R77: a PIN word is 0xxxBBGGRR.  A take carries nothing. -/
theorem test_decode_channels :
    decode (.inWord 0b001000010#9) = .inByte 0x42 ∧ decode (.inWord 0b100000000#9) = .inEos 0
    ∧ decode (.inWord 0b111111111#9) = .inEos 0xFF
    ∧ decode (.pinWord 0b10101010000111100001010000001010#32) = .pin 0xAA 30 20 10
    ∧ decode .poutTake = .poutTake ∧ decode .boutTake = .boutTake := by decide

/-- The opcode table's words: CMD in 32 (or 40, or 8) bits, IN in 16, and no other width (log 4). -/
theorem test_decode_table_words :
    decodeTableWord 32 0x2 = some (.decodeCmd 0) ∧ decodeTableWord 8 0xF = some (.abort 0)
    ∧ decodeTableWord 40 0x3 = some (.encodeCmd 0) ∧ decodeTableWord 16 0x042 = some (.inByte 0x42)
    ∧ decodeTableWord 16 0x100 = some (.inEos 0) ∧ decodeTableWord 16 0x200 = none
    ∧ decodeTableWord 32 (2 ^ 32) = none ∧ decodeTableWord 24 0 = none := by decide

/-- A table word runs as the first instruction after reset: DECODE leads to D_HDR with STATUS 0x141; an IN word is not taken in
IDLE and stays offered (R156). -/
theorem test_fetch_word_runs_next :
    (stepped (State.reset.withFetchWord 32 0x2)).blk.status = 0x141
    ∧ (stepped (State.reset.withFetchWord 16 0x042)).env.inp = [0x042]
    ∧ (stepped (State.reset.withFetchWord 16 0x042)).blk = Block.reset := by decide

/-- The byte layer rejects by name. -/
theorem test_decode_bytes :
    decodeBytes .inWord [0x42] = .error .wrongLength ∧ decodeBytes .inWord [0x00, 0x02] = .error .bitAboveFormat
    ∧ decodeBytes .regWrite [0x05, 0, 0, 0, 0x00] = .ok (.rsvd5 0) ∧ decodeBytes .regRead [0x04] = .ok (.regRd 0x04)
    ∧ decodeBytes .pinWord [10, 20, 30, 0] = .ok (.pin 0 30 20 10) := ⟨rfl, rfl, rfl, rfl, rfl⟩

/-! ### Header, padding and validator tables -/

/-- 95_test_vectors.md 2.1: the fifteen views of H22. -/
theorem test_header_views :
    [0x40#8, 0x44, 0x48, 0x4C, 0x50, 0x54, 0x58, 0x5C, 0x60, 0x64, 0x68, 0x6C, 0x70, 0x74, 0x78].map
      (pixels .dPix 0 0 0).readReg
    = [0x4D42, 0x46, 0, 0x36, 0x28, 2, 2, 1, 0x18, 0, 0, 0x64, 0x64, 0xFF, 0] := by decide

/-- 95_test_vectors.md 2.1: signs and byte order of single fields. -/
theorem test_header_signs :
    u32le (changed [(18, 0x78), (19, 0x56), (20, 0x34), (21, 0x12)]) 18 = 0x12345678
    ∧ hdrWidth (changed [(18, 0xFF), (19, 0xFF), (20, 0xFF), (21, 0xFF)]) = -1
    ∧ hdrHeight (changed [(22, 0), (25, 0x80)]) = -(2 ^ 31)
    ∧ hdrHeight (changed [(22, 0xFF), (23, 0xFF), (24, 0xFF), (25, 0x7F)]) = 2 ^ 31 - 1
    ∧ hdrBpp (changed [(28, 0), (29, 0x18)]) = 0x1800 := by decide

/-- 95_test_vectors.md 2.2, V-PAD. -/
theorem test_padding_table :
    [0, 1, 2, 3, 4, 5, 6, 7, 8, 2 ^ 31 - 1].map padOf = [0, 1, 2, 3, 0, 1, 2, 3, 0, 3]
    ∧ [0, 1, 2, 3, 4, 5, 6, 7, 8, 2 ^ 31 - 1].map rowBytesOf = [0, 4, 8, 12, 12, 16, 20, 24, 24, 0x180000000] := by
  decide

/-- 95_test_vectors.md 2.3: signature and VCAUSE of changed headers. -/
theorem test_validator_table :
    signatureOk (changed []) = true ∧ variantCause (changed []) = 0
    ∧ signatureOk (changed [(0, 0x43)]) = false ∧ signatureOk (changed [(0, 0x4D), (1, 0x42)]) = false
    ∧ variantCause (changed [(14, 0x0C)]) = 1 ∧ variantCause (changed [(28, 0x08)]) = 2
    ∧ variantCause (changed [(30, 0x01)]) = 4 ∧ variantCause (changed [(21, 0x80)]) = 8
    ∧ variantCause (changed [(14, 0x0C), (28, 0x08), (30, 0x01), (21, 0x80)]) = 15
    ∧ variantCause (changed [(26, 5), (2, 0), (6, 0xFF), (34, 1), (38, 1), (46, 1), (50, 1)]) = 0 := by decide

/-- 95_test_vectors.md section 0: the header ENCODE generates for 2x2 is H22 (R135). -/
theorem test_generated_header : genHeaderBytes {} 2 2 = h22 := by decide

/-- R76: (10,20,30) at (1,1) packs to 0x00000001 0x00000001 0x001E140A, and LAST is bit 24. -/
theorem test_pout_word :
    PoutWord.pack ⟨10, 20, 30, false, 1, 1⟩ = 0x0000000100000001001E140A#96
    ∧ PoutWord.pack ⟨0, 255, 0, true, 1, 0⟩ = 0x00000000000000010100FF00#96 := by decide

/-! ### One step of each instruction -/

/-- R149: NOP while busy changes nothing, IGN included. -/
theorem test_nop : (after (.nop 1) (lastByte 2 [])).blk = lastByte 2 [] := by decide

/-- 95_test_vectors.md 2.5: PARSE and DECODE lead to D_HDR, STATUS 0x141, and CTRL reads the opcode. -/
theorem test_parse_starts :
    (after (.parse 0) Block.reset).blk.status = 0x141 ∧ (after (.parse 0) Block.reset).blk.readReg 0 = 1 := by decide

theorem test_decode_starts :
    (after (.decodeCmd 1) (pixels .done 2 0 0)).blk.status = 0x141
    ∧ (after (.decodeCmd 1) (pixels .done 2 0 0)).blk.gw = 0
    ∧ (after (.decodeCmd 1) (pixels .done 2 0 0)).blk.readReg 0x44 = 0x46 := by decide

/-- 95_test_vectors.md 2.6: a second DECODE is ignored and sets IGN. -/
theorem test_decode_while_busy : (after (.decodeCmd 0) (lastByte 2 [])).blk.status = 0x149 := by decide

/-- 95_test_vectors.md 2.4: accepted geometries. -/
theorem test_encode_accepts :
    (after (.encodeCmd 0) (geometry 2 2)).blk.status = 0x1611 ∧ (after (.encodeCmd 0) (geometry 2 2)).blk.hdr = headerOf h22
    ∧ (after (.encodeCmd 0) (geometry 0 3)).blk.status = 0x1611
    ∧ (after (.encodeCmd 0) (geometry 0x55555542 1)).blk.status = 0x1611 := by decide

/-- 95_test_vectors.md 2.4: rejected geometries. -/
theorem test_encode_rejects :
    [(0x5#32, 0#32), (0x80000000, 0), (0x80000000, 1), (1, 0x80000000), (0x7FFFFFFF, 1), (0x55555543, 1)].map
      (fun g => (after (.encodeCmd 0) (geometry g.1 g.2)).blk.err)
    = [0x304, 0x304, 0x306, 0x306, 0x306, 0x306] := by decide

/-- 95_test_vectors.md 2.6: a reserved opcode ends in ERROR with ERR 0x305 and CTRL reads it (R153). -/
theorem test_reserved :
    [Instr.rsvd4 0, .rsvd5 0, .rsvd6 0, .rsvd7 0, .rsvd8 0, .rsvd9 0, .rsvdA 0, .rsvdB 0, .rsvdC 0, .rsvdD 0, .rsvdE 0].map
      (fun i => ((after i Block.reset).blk.op, (after i Block.reset).blk.err, (after i Block.reset).blk.status))
    = [4#4, 5, 6, 7, 8, 9, 10, 11, 12, 13, 14].map (fun o => (o, 0x305#32, 0xA04#32)) := by decide

/-- R152: while busy each of them only sets IGN. -/
theorem test_reserved_while_busy :
    [Instr.rsvd4 0, .rsvd5 0, .rsvd6 0, .rsvd7 0, .rsvd8 0, .rsvd9 0, .rsvdA 0, .rsvdB 0, .rsvdC 0, .rsvdD 0, .rsvdE 0].map
      (fun i => (after i (lastByte 2 [])).blk)
    = List.replicate 11 { lastByte 2 [] with ign := true } := by decide

/-- 95_test_vectors.md 2.4 and P6: ABORT of an ENCODE and of a header phase. -/
theorem test_abort_while_busy :
    (after (.abort 0) (encoding .ePix 54 0 0 3)).blk.err = 0x307
    ∧ (after (.abort 0) (encoding .ePix 54 0 0 3)).blk.status = 0xA14
    ∧ (after (.abort 0) (lastByte 2 [])).blk.err = 0x107 := by decide

/-- 95_test_vectors.md 2.6: ABORT in DONE leads to IDLE and keeps GW, HV and POS. -/
theorem test_abort_while_done :
    (after (.abort 0) (pixels .done 2 0 0)).blk.status = 0x10
    ∧ (after (.abort 0) (pixels .done 2 0 0)).blk.gw = 2 ∧ (after (.abort 0) (pixels .done 2 0 0)).blk.pos = 70 := by
  decide

/-- 95_test_vectors.md 2.6: misaligned, reserved and read-only writes have no effect; ENC_W takes the value. -/
theorem test_register_write :
    (after (.regWr 0x02 2) Block.reset).blk = Block.reset ∧ (after (.regWr 0x38 2) Block.reset).blk = Block.reset
    ∧ (after (.regWr 0x04 0xFFFFFFFF) Block.reset).blk = Block.reset
    ∧ (after (.regWr 0x30 7) Block.reset).blk.encW = 7 ∧ (after (.regWr 0x34 7) Block.reset).blk.encH = 7
    ∧ (after (.regWr 0x00 5) Block.reset).blk.err = 0x305 := by decide

/-- P1: reads in the pixel phase of the 2x2 DECODE; and 2.2: the widest row. -/
theorem test_register_read :
    (after (.regRd 0x04) (pixels .dPix 0 0 0)).env.readBack = [0x351]
    ∧ [0x18#8, 0x1C, 0x20, 0x24, 0x28, 0x2C, 0x03].map (pixels .dPix 0 0 0).readReg = [1, 2, 2, 2, 8, 0, 0]
    ∧ [0x24#8, 0x28, 0x2C].map ({ Block.reset with gw := 0x7FFFFFFF }).readReg = [3, 0x80000000, 1] := by decide

/-- 95_test_vectors.md 2.3, 2.5 and P3, P5, P7: the 54th header byte. -/
theorem test_last_header_byte :
    (after (.inByte 0) (lastByte 1 [])).blk.status = 0x912
    ∧ (after (.inByte 0) (lastByte 2 [])).blk.status = 0x351
    ∧ (after (.inByte 0) (lastByte 1 [(28, 8)])).blk.err = 0x123
    ∧ (after (.inByte 0) (lastByte 2 [(0, 0x43), (28, 8)])).blk.err = 0x102
    ∧ (after (.inByte 0) (lastByte 2 [(10, 0x3A)])).blk.status = 0x251
    ∧ (after (.inByte 0) (lastByte 2 [(10, 0x32)])).blk.rpos = 50
    ∧ (after (.inByte 0) (lastByte 2 [(18, 0), (10, 0xC8)])).blk.status = 0x912 := by decide

/-- P1: the red byte 0A of stored row 0, column 1 completes (10,20,30) at (1,1) and ends the row's pixels. -/
theorem test_pixel_byte :
    (after (.inByte 0x0A) (pixels .dPix 0 5 2)).blk.pout = some ⟨10, 20, 30, false, 1, 1⟩
    ∧ (after (.inByte 0x0A) (pixels .dPix 0 5 2)).blk.phase = .dPad
    ∧ (after (.inByte 0) (pixels .dPad 1 7 0)).blk.status = 0x912 := by decide

/-- X4 and A4: EOS in the header and in the pixel phase. -/
theorem test_eos :
    (after (.inEos 0) (lastByte 2 [])).blk.err = 0x101 ∧ (after (.inEos 0) (pixels .dPad 1 7 0)).blk.err = 0x201
    ∧ (after (.inEos 0) (pixels .dPad 1 7 0)).blk.pos = 69
    ∧ (after (.inEos 0) (pixels .dPad 1 7 0)).blk.status = 0xA14 := by decide

/-- R138: PIN (10,20,30) loads 1E 14 0A; STATUS 0x1711 (2.4). -/
theorem test_pin :
    (after (.pin 0xAA 30 20 10) { encoding .ePix 54 0 0 0 with ebuf := #v[0, 0, 0] }).blk.ebuf = #v[0x1E, 0x14, 0x0A]
    ∧ (after (.pin 0xAA 30 20 10) (encoding .ePix 54 0 0 0)).blk.status = 0x1711 := by decide

/-- R126: the take in D_DRAIN returns the word and ends the command. -/
theorem test_pout_take :
    (after .poutTake { pixels .dDrain 2 0 0 with pout := some ⟨0, 255, 0, true, 1, 0⟩ }).env.pixelsOut
      = [0x00000000000000010100FF00]
    ∧ (after .poutTake { pixels .dDrain 2 0 0 with pout := some ⟨0, 255, 0, true, 1, 0⟩ }).blk.status = 0x912 := by
  decide

/-- P2: the first header byte, a pixel byte, and the last padding byte with LAST. -/
theorem test_bout_take :
    (after .boutTake (encoding .eHdr 0 0 0 0)).env.bytesOut = [0x042]
    ∧ (after .boutTake (encoding .ePix 54 0 3 3)).env.bytesOut = [0x01E]
    ∧ (after .boutTake (encoding .ePad 54 1 7 0)).env.bytesOut = [0x100]
    ∧ (after .boutTake (encoding .ePad 54 1 7 0)).blk.status = 0x912
    ∧ (after .boutTake (encoding .eHdr 53 0 0 0)).blk.status = 0x791 := by decide

/-- P7: replay serves HDR[52] = 0A as the red byte of the only pixel. -/
theorem test_replay :
    (stepped (st { Block.reset with
      op := 2, phase := .dPix, hv := true, gw := 1, gh := 1, pos := 54, hpos := 54, rpos := 52, k := 2, n := 2,
      pb := #v[0x1E, 0x14], hdr := changed [(18, 1), (22, 1), (10, 0x32), (50, 0x1E), (51, 0x14), (52, 0x0A)] })).blk.status
      = 0x431 := by decide

/-- R148: a command that starts clears pb and ebuf; one that is ignored while busy keeps them (R152). -/
theorem test_command_start_clears_pixel_bytes :
    (after (.parse 0) { pixels .done 2 0 0 with ebuf := #v[1, 2, 3] }).blk.pb = #v[0, 0]
    ∧ (after (.rsvd7 0) { pixels .done 2 0 0 with ebuf := #v[1, 2, 3] }).blk.ebuf = #v[0, 0, 0]
    ∧ (after (.parse 0) (pixels .dPix 0 2 2)).blk.pb = #v[0x1E, 0x14] := by decide

/-- W = H = 1, OFFSET = 50: only the last padding byte is left, and it is replayed from HDR[53]. -/
def lastReplay : Block :=
  { Block.reset with
    op := 2, phase := .dPad, hv := true, gw := 1, gh := 1, pos := 54, hpos := 54, rpos := 53, k := 3,
    hdr := changed [(18, 1), (22, 1), (10, 0x32)] }

/-- Log 21: an ABORT just before the replay step that ends the run gives ERROR with ABORTED, and just after it IDLE (R118,
R151). -/
theorem test_abort_around_last_replay :
    (after (.abort 0) lastReplay).blk.err = 0x207
    ∧ (stepped (st lastReplay)).blk.phase = .done
    ∧ (after (.abort 0) (stepped (st lastReplay)).blk).blk.phase = .idle := by decide

/-! ### Witnesses: the hypotheses of the obligations can be met -/

/-- DecodeOfEncode: a well-formed instruction, at an operand's boundary. -/
theorem witness_DecodeOfEncode : (Instr.regWr 0x01 0xFFFFFFFF).wellFormed = true ∧ (Instr.inEos 0xFF).wellFormed = true := by
  decide

/-- ByteDecodingIsTotal: a byte string of another length, one of the right length, and one with a bit above the format. -/
theorem witness_ByteDecodingIsTotal :
    ([] : List Byte).length ≠ formatBytes .regRead ∧ [0xFF#8, 0x01].length = formatBytes .inWord
    ∧ leNat [0xFF#8, 0x01] = 511 ∧ leNat [0x00#8, 0x02] = 512 := by decide

/-- CommandOpcodeSelectsRow: each of the sixteen opcodes has a word. -/
theorem witness_CommandOpcodeSelectsRow :
    ∀ o : BitVec 4, ((0xFFFFFFF#28 ++ o : Word) &&& 0xF) = o.setWidth 32 := by decide

/-- UncheckedFieldsAreIgnored: two headers that differ, and only in bytes that are not checked. -/
theorem witness_UncheckedFieldsAreIgnored :
    changed [] ≠ changed [(2, 0), (26, 5), (53, 1)]
    ∧ ∀ i, i < 54 → i < 2 ∨ (14 ≤ i ∧ i < 26) ∨ (28 ≤ i ∧ i < 34) →
      hdrAt (changed []) i = hdrAt (changed [(2, 0), (26, 5), (53, 1)]) i := by decide

/-- RowBytesBounds and GeneratedHeaderFields: the widest image the checks of ENCODE accept. -/
theorem witness_GeneratedHeaderFields :
    0x55555542 < 2 ^ 31 ∧ 1 < 2 ^ 31 ∧ fileSizeOf 0x55555542 1 < 2 ^ 32 := by decide

/-- ReservedAndMisalignedAccesses: an address of each kind, at the ends of the reserved range. -/
theorem witness_ReservedAndMisalignedAccesses :
    (0x7B#8).toNat % 4 ≠ 0 ∧ 0x7C ≤ (0x7C#8).toNat ∧ 0x7C ≤ (0xFC#8).toNat ∧ (0x3C#8).toNat % 4 = 0 := by decide

/-- The commands while not busy: in IDLE, DONE and ERROR. -/
theorem witness_not_busy :
    Block.reset.phase.busy = false ∧ (pixels .done 2 0 0).phase.busy = false ∧ (pixels .error 1 7 0).phase.busy = false := by
  decide

/-- EncodeAcceptance: each of its three cases, at the boundaries of the checks. -/
theorem witness_EncodeAcceptance :
    (geometry 5 0).encH.toNat = 0
    ∧ (geometry 0x55555543 1).encH.toNat ≠ 0 ∧ 2 ^ 32 ≤ 54 + (3 * (geometry 0x55555543 1).encW.toNat + padOf 0x55555543) * 1
    ∧ (geometry 0x55555542 1).encH.toNat ≠ 0
    ∧ ¬ (2 ^ 31 ≤ (geometry 0x55555542 1).encW.toNat ∨ 2 ^ 31 ≤ (geometry 0x55555542 1).encH.toNat
      ∨ 2 ^ 32 ≤ 54 + (3 * (geometry 0x55555542 1).encW.toNat + padOf 0x55555542) * 1) := by decide

/-- CommandsWhileBusySetIgn and the three busy cases of AbortEndsRun. -/
theorem witness_busy :
    (lastByte 2 []).phase = .dHdr ∧ (pixels .dDrain 2 0 0).phase ∈ [Phase.dSkip, .dPix, .dPad, .dDrain]
    ∧ (encoding .ePad 54 1 7 0).phase ∈ [Phase.eHdr, .ePix, .ePad]
    ∧ (lastByte 2 []).phase.busy = true ∧ (pixels .dDrain 2 0 0).phase.busy = true
    ∧ (encoding .ePad 54 1 7 0).phase.busy = true := by decide

/-- HeaderByteIsStored: the last index it covers. -/
theorem witness_HeaderByteIsStored :
    ({ lastByte 2 [] with hpos := 52 }).phase = .dHdr ∧ ({ lastByte 2 [] with hpos := 52 }).hpos.toNat < 53 := by decide

/-- LastHeaderByteRejects: a bad signature, and a good one with a bad variant. -/
theorem witness_LastHeaderByteRejects :
    (lastByte 2 []).phase = .dHdr ∧ (lastByte 2 []).hpos = 53
    ∧ signatureOk ((lastByte 2 [(0, 0x43)]).hdr.set 53 0) = false
    ∧ signatureOk ((lastByte 2 [(28, 8)]).hdr.set 53 0) = true
    ∧ variantCause ((lastByte 2 [(28, 8)]).hdr.set 53 0) ≠ 0 := by decide

/-- LastHeaderByteAccepts: PARSE, and each case of the seek at the boundary OFFSETs. -/
theorem witness_LastHeaderByteAccepts :
    (lastByte 1 []).op = 1 ∧ (lastByte 2 []).op = 2 ∧ (lastByte 2 []).phase = .dHdr ∧ (lastByte 2 []).hpos = 53
    ∧ (∀ c ∈ [[], [(18, 0x00)], [(22, 0x00)], [(10, 0x37)], [(10, 0x35)], [(10, 0x00)]],
        signatureOk ((lastByte 2 c).hdr.set 53 0) = true ∧ variantCause ((lastByte 2 c).hdr.set 53 0) = 0)
    ∧ u32le ((lastByte 2 [(18, 0)]).hdr.set 53 0) 18 = 0 ∧ u32le ((lastByte 2 [(22, 0)]).hdr.set 53 0) 22 = 0
    ∧ u32le ((lastByte 2 []).hdr.set 53 0) 18 ≠ 0 ∧ u32le ((lastByte 2 []).hdr.set 53 0) 22 ≠ 0
    ∧ hdrOffset ((lastByte 2 []).hdr.set 53 0) = 54 ∧ hdrOffset ((lastByte 2 [(10, 0x37)]).hdr.set 53 0) = 55
    ∧ hdrOffset ((lastByte 2 [(10, 0x35)]).hdr.set 53 0) = 53 := by decide

/-- GapByteIsDiscarded: a gap byte that is the last and one that is not. -/
theorem witness_GapByteIsDiscarded :
    ({ pixels .dSkip 0 0 0 with skip := 1 }).phase = .dSkip ∧ ({ pixels .dSkip 0 0 0 with skip := 2 }).skip ≠ 1 := by decide

/-- PixelByteIsConsumed: each clause; the width-2 rows have padding, the width-4 rows none. -/
theorem witness_PixelByteIsConsumed :
    (∀ b ∈ [pixels .dPix 0 0 0, pixels .dPix 0 4 1, pixels .dPix 0 2 2, pixels .dPix 0 5 2,
        { pixels .dPix 1 11 2 with gw := 4 }],
      b.phase = .dPix ∧ b.rpos = 54 ∧ b.pout = none ∧ b.k.toNat < 3 * b.gw.toNat)
    ∧ (pixels .dPix 0 0 0).n = 0 ∧ (pixels .dPix 0 4 1).n = 1
    ∧ (pixels .dPix 0 2 2).n = 2 ∧ (pixels .dPix 0 2 2).k.toNat + 1 ≠ 3 * 2
    ∧ (pixels .dPix 0 5 2).k.toNat + 1 = 3 * 2 ∧ padOf 2 ≠ 0
    ∧ (11 + 1 = 3 * 4 ∧ padOf 4 = 0) := by decide

/-- PaddingByteIsDiscarded: the row's last padding byte and the one before it. -/
theorem witness_PaddingByteIsDiscarded :
    ∀ b ∈ [pixels .dPad 1 6 0, pixels .dPad 1 7 0],
      b.phase = .dPad ∧ b.rpos = 54 ∧ b.pout = none ∧ b.k.toNat < rowBytesOf b.gw.toNat := by decide

/-- EosTruncates: the header phase, the gap, and the pixel phase ready on IN. -/
theorem witness_EosTruncates :
    (lastByte 2 []).phase = .dHdr ∧ (pixels .dSkip 0 0 0).phase = .dSkip
    ∧ ((pixels .dPad 1 7 0).phase = .dPad ∧ (pixels .dPad 1 7 0).rpos = 54 ∧ (pixels .dPad 1 7 0).pout = none) := by decide

/-- PoutTakeGivesPixel: a pixel held in D_DRAIN and one held in D_PIX. -/
theorem witness_PoutTakeGivesPixel :
    ∀ p ∈ [Phase.dDrain, .dPix], ({ pixels p 2 0 0 with pout := some ⟨1, 2, 3, true, 1, 0⟩ }).pout
      = some ⟨1, 2, 3, true, 1, 0⟩ := by decide

/-- ReplayServesHeaderByte: the first and the last index it serves. -/
theorem witness_ReplayServesHeaderByte :
    ∀ r ∈ [0#6, 53], ({ pixels .dPix 0 0 0 with rpos := r }).phase = .dPix ∧ ({ pixels .dPix 0 0 0 with rpos := r }).rpos.toNat < 54
      ∧ ({ pixels .dPix 0 0 0 with rpos := r }).pout = none := by decide

/-- UnreadyTransferDoesNotHappen: IDLE is ready on no channel and offers nothing. -/
theorem witness_UnreadyTransferDoesNotHappen :
    Block.reset.inReady = false ∧ Block.reset.pinReady = false ∧ Block.reset.pout = none ∧ Block.reset.boutValid = false := by
  decide

/-- PinLoadsPixel. -/
theorem witness_PinLoadsPixel :
    ((encoding .ePix 54 0 0 0).phase = .ePix ∧ (encoding .ePix 54 0 0 0).en = 0)
    ∧ ((encoding .ePix 54 0 0 3).phase = .ePix ∧ (encoding .ePix 54 0 0 3).en ≠ 0) := by decide

/-- HeaderByteIsEmitted: the first, the last but one, and the last index. -/
theorem witness_HeaderByteIsEmitted :
    ∀ h ∈ [0#6, 52, 53], (encoding .eHdr h 0 0 0).phase = .eHdr ∧ (encoding .eHdr h 0 0 0).hpos.toNat < 54 := by decide

/-- PixelByteIsEmitted: a byte inside a row and the row's last, with padding (width 2) and without (width 4). -/
theorem witness_PixelByteIsEmitted :
    (∀ b ∈ [encoding .ePix 54 0 0 3, encoding .ePix 54 0 5 1, { encoding .ePix 54 0 11 1 with gw := 4 }],
      b.phase = .ePix ∧ b.en ≠ 0 ∧ b.k.toNat < 3 * b.gw.toNat)
    ∧ (encoding .ePix 54 0 5 1).en = 1 ∧ 5 + 1 = 3 * 2 ∧ padOf 2 ≠ 0 ∧ 11 + 1 = 3 * 4 ∧ padOf 4 = 0 := by decide

/-- PaddingByteIsEmitted: the row's last padding byte and the one before it. -/
theorem witness_PaddingByteIsEmitted :
    ∀ b ∈ [encoding .ePad 54 1 6 0, encoding .ePad 54 1 7 0], b.phase = .ePad ∧ b.k.toNat < rowBytesOf b.gw.toNat := by decide

/-- TransferFrame and CommandFrame: each instruction answers a next state. -/
theorem witness_frames (i : Instr) (s : State) : ∃ t, exec i s = .next t := exec_next i s

/-- TransferFrame: a header byte other than the one stored. -/
theorem witness_TransferFrame :
    (lastByte 2 []).phase = .dHdr ∧ (0 : Nat) < 54 ∧ (0 : Nat) ≠ (lastByte 2 []).hpos.toNat := by decide

/-- StepRunsPresentedInstruction: a turn of each kind with a word waiting. -/
theorem witness_StepRunsPresentedInstruction :
    (State.reset.present (.bus (.read 4))).env.turns = [.port .bus] ∧ (State.reset.present (.bus (.read 4))).env.bus = [.read 4]
    ∧ (State.reset.present (.inWord 5)).env.turns = [.port .inp] ∧ (State.reset.present (.inWord 5)).env.inp = [5]
    ∧ (State.reset.present (.pinWord 5)).env.turns = [.port .pin] ∧ (State.reset.present (.pinWord 5)).env.pin = [5]
    ∧ (State.reset.present .poutTake).env.turns = [.port .pout]
    ∧ (State.reset.present .boutTake).env.turns = [.port .bout] := by decide

/-- FetchWordRunsNext: words of both widths. -/
theorem witness_FetchWordRunsNext :
    decodeTableWord 32 0xFFFFFFFF = some (.abort 0xFFFFFFF) ∧ decodeTableWord 16 0x1FF = some (.inEos 0xFF) := by
  decide

/-- ResetStep: a reset turn while busy. -/
theorem witness_ResetStep :
    ({ st (lastByte 2 []) with env := { Env.empty with turns := [.reset] } }).env.turns = [.reset]
    ∧ (lastByte 2 []).phase.busy = true := by decide

/-- CountersStayInRange, OFFSET 54: a block in the pixel phase of the 2x2 DECODE meets the invariant. -/
theorem witness_inv : (pixels .dPix 1 4 1).Inv := by
  constructor
  case hv_valid => unfold Block.headerValid; decide
  case position => trivial
  case error => unfold Block.errorOk; decide
  all_goals decide

/-- CountersStayInRange, OFFSET below 54: the same DECODE, still replaying. -/
theorem witness_inv_replay :
    ({ pixels .dPix 0 2 2 with hdr := changed [(10, 50)], rpos := 52, pos := 54 } : Block).Inv := by
  constructor
  case hv_valid => unfold Block.headerValid; decide
  case position => trivial
  case error => unfold Block.errorOk; decide
  all_goals decide

/-- ErrFields: a header phase that an unsupported variant has ended, with VCAUSE nonzero. -/
theorem witness_inv_error :
    ({ lastByte 1 [(28, 8)] with
      hpos := 54, pos := 54, phase := .error, errCode := .unsupportedVariant, errVcause := 2, errStage := .header } :
      Block).Inv := by
  constructor
  case hv_valid => unfold Block.headerValid; decide
  case position => trivial
  case error => unfold Block.errorOk; decide
  all_goals decide

/-- ChannelsLoseNothing: an offered pixel. -/
theorem witness_inv_pout : ({ pixels .dPad 0 6 0 with pout := some ⟨10, 20, 30, false, 1, 1⟩ } : Block).Inv := by
  constructor
  case hv_valid => unfold Block.headerValid; decide
  case position => trivial
  case error => unfold Block.errorOk; decide
  all_goals decide

/-- ChannelsLoseNothing: an offered byte. -/
theorem witness_inv_bout : (encoding .ePix 54 1 4 2).Inv ∧ (encoding .ePix 54 1 4 2).boutValid = true := by
  refine ⟨?_, by decide⟩
  constructor
  case hv_valid => unfold Block.headerValid; decide
  case position => trivial
  case error => unfold Block.errorOk; decide
  all_goals decide

/-- StepKeepsInv, ChannelsLoseNothing and HoldLiftedOnlyBy: a step that changes the block. -/
theorem witness_step_from_inv :
    (pixels .dPix 1 4 1).Inv
    ∧ (stepped ((st (pixels .dPix 1 4 1)).present (.inWord 0x0FF))).blk ≠ pixels .dPix 1 4 1 :=
  ⟨witness_inv, by decide⟩

/-- HoldLiftedOnlyBy: with no turn left, the internal step changes the block. -/
theorem witness_HoldLiftedOnlyBy :
    ({ pixels .dPix 0 2 2 with hdr := changed [(10, 50)], rpos := 52, pos := 54 } : Block).Inv
    ∧ (stepped (st { pixels .dPix 0 2 2 with hdr := changed [(10, 50)], rpos := 52, pos := 54 })).blk
      ≠ { pixels .dPix 0 2 2 with hdr := changed [(10, 50)], rpos := 52, pos := 54 } :=
  ⟨witness_inv_replay, by decide⟩

/-- CommandFrame: a command that does not start keeps nonzero bytes in pb. -/
theorem witness_CommandFrame :
    (pixels .dPix 0 2 2).phase.busy = true ∧ (pixels .dPix 0 2 2).pb = #v[0x1E, 0x14] := by decide

/-- PhaseGraph: a turn that is a reset, one that is not, and none. -/
theorem witness_PhaseGraph :
    ([Turn.reset]).head? = some .reset ∧ ([Turn.block]).head? ≠ some .reset ∧ ([] : List Turn).head? ≠ some .reset := by decide

/-- InReadyPersists: a block that is ready on IN, and one that is ready on PIN. -/
theorem witness_InReadyPersists :
    (lastByte 2 []).inReady = true ∧ (pixels .dPad 1 7 0).inReady = true ∧ (encoding .ePix 54 0 0 0).pinReady = true := by decide

/-- TransfersIgnoreEncodeRegisters: no turn left, and a channel's turn; on the bus a PARSE, a read beside the two, and an ENCODE
while busy. -/
theorem witness_TransfersIgnoreEncodeRegisters :
    (∀ ts ∈ [[], [Turn.port .inp], [.block]], ts.head? ≠ some (.port .bus) ∧ ts.head? ≠ some .reset)
    ∧ (∀ r ∈ [BusReq.write 0x00 0x1, .write 0x30 5, .read 0x2C, .read 0x38],
        r ≠ .read 0x30 ∧ r ≠ .read 0x34 ∧ ∀ v, r = .write 0x00 v → v = 0x1)
    ∧ cmdOp 0x1 ≠ 0x3 ∧ cmdOp 0x3 = 0x3 ∧ (lastByte 2 []).phase.busy = true := by
  refine ⟨by decide, ?_, by decide⟩
  simp

/-- A host that feeds a source to a block after reset. -/
def feeding (v : Word) (src : List Byte) (ts : List Turn) : State :=
  { State.reset with env := { Env.empty with
    bus := [.write 0x00 v], inp := src.map byteWord ++ [0x100], turns := .port .bus :: ts } }

theorem witness_feeding (v : Word) (src : List Byte) (ts : List Turn) : FeedsSource (feeding v src ts) (cmdOp v) src ts where
  notBusy := rfl
  command := ⟨v, [], rfl, rfl⟩
  source := ⟨0x100, [], rfl, by decide⟩
  turns := rfl

/-- ParseRefinesParseHeader: H22 with just enough IN turns, and the empty source. -/
theorem witness_ParseRefinesParseHeader :
    FeedsSource (feeding 0x1 h22 (List.replicate 54 (.port .inp))) 0x1 h22 (List.replicate 54 (.port .inp))
    ∧ channelsOnly (List.replicate 54 (.port .inp))
    ∧ min (h22.length + 1) 54 ≤ (List.replicate 54 (Turn.port .inp)).count (.port .inp)
    ∧ parseHeader h22 = .ok (headerOf h22) ∧ parseHeader [] = .error .truncated :=
  ⟨witness_feeding 0x1 h22 _, by unfold channelsOnly; decide, by decide, by rfl, by rfl⟩

/-- DecodeRefinesDecodeImage: a source that decodes, one that is too short for its pixels, one with no pixels. -/
theorem witness_DecodeRefinesDecodeImage :
    FeedsSource (feeding 0x2 h22 [.block, .port .pout]) 0x2 h22 [.block, .port .pout]
    ∧ channelsOnly [.block, .port .pout]
    ∧ decodeImage h22 = .error .truncated
    ∧ decodeImage (headerOf (h22.set 18 0)).toList = .ok [[], []] :=
  ⟨witness_feeding 0x2 h22 _, by unfold channelsOnly; decide, by rfl, by rfl⟩

/-- DecodeEnds: the empty source with enough rounds. -/
theorem witness_DecodeEnds :
    FeedsSource (feeding 0x2 [] (decodeRounds 120)) 0x2 [] (decodeRounds 120) ∧ 2 * (([] : List Byte).length + 60) ≤ 120 :=
  ⟨witness_feeding 0x2 [] _, by decide⟩

/-- A host that feeds a one-pixel grid to ENCODE. -/
def feedingGrid (ts : List Turn) : State :=
  { State.reset with env := { Env.empty with
    bus := [.write 0x30 1, .write 0x34 1, .write 0x00 0x3], pin := [0x001E140A],
    turns := .port .bus :: .port .bus :: .port .bus :: ts } }

/-- EncodeRefinesEncodeImage, EncodeEnds and DecodeOfEncodedGrid: the 1x1 grid, whose file has 58 bytes. -/
theorem witness_EncodeRefinesEncodeImage :
    FeedsGrid (feedingGrid (encodeRounds 58)) 1 1 [[⟨10, 20, 30⟩]] (encodeRounds 58)
    ∧ channelsOnly (encodeRounds 58) ∧ Grid.hasSize [[⟨10, 20, 30⟩]] 1 1
    ∧ ∃ out, encodeImage {} 1 1 [[⟨10, 20, 30⟩]] = .ok out ∧ out.length ≤ 58 :=
  ⟨⟨rfl, ⟨rfl, by simp⟩, ⟨0x3, [], rfl, by decide⟩, ⟨[0x001E140A], [], rfl, by decide⟩, rfl⟩,
    by unfold channelsOnly; decide, ⟨rfl, by simp⟩, _, rfl, by decide⟩

/-- EncodeRefinesEncodeImage: a geometry that is rejected. -/
theorem witness_encode_rejected : encodeImage {} 1 0 [] = .error .emptyImage ∧ Grid.hasSize [] 1 0 :=
  ⟨rfl, rfl, by simp⟩

/-- CommandIgnoresHistory: a block after reset and one that has decoded another file. -/
theorem witness_CommandIgnoresHistory :
    let s₁ := feeding 0x2 h22 [.port .inp]
    let s₂ : State := { s₁ with blk := pixels .done 2 0 0 }
    s₁.blk.phase.busy = false ∧ s₂.blk.phase.busy = false ∧ s₁.blk ≠ s₂.blk ∧ s₁.env = s₂.env ∧ s₁.cfg = s₂.cfg
    ∧ s₁.blk.encW = s₂.blk.encW ∧ s₁.blk.encH = s₂.blk.encH ∧ s₁.env.bus = .write 0x00 0x2 :: []
    ∧ cmdOp 0x2 ∈ [0x1#4, 0x2#4, 0x3#4] ∧ s₁.env.turns = .port .bus :: [.port .inp] := by decide

end Sys2Proof.Tests
end

/-! ## No step changes what the build fixes (O52) -/

namespace Sys2Proof.Machine

/-- Settles O52: the second half of what `step_effect` says of every step. -/
theorem stepKeepsConfig : Obligations.StepKeepsConfig :=
  fun _ _ h => (step_effect h).2

end Sys2Proof.Machine

/-! ## The host's table-word entry (O41) -/

namespace Sys2Proof

/-- The formats of the opcode table's words (log 4). -/
theorem tableFormat_cases {nbits : Nat} {f : Format} (h : tableFormat nbits = some f) :
    (nbits ≠ 16 ∧ f = .regWrite) ∨ (nbits = 16 ∧ f = .inWord) := by
  unfold tableFormat at h
  split_ifs at h with hbus hin <;> cases h
  · exact .inl ⟨by omega, rfl⟩
  · exact .inr ⟨hin, rfl⟩

/-- A table word is the host word its format's bytes are, and has no bit above its width. -/
theorem tableWire_eq_some {nbits w : Nat} {x : Wire} (h : tableWire nbits w = some x) :
    ∃ f, tableFormat nbits = some f ∧ w < 2 ^ nbits ∧ wireOfBytes f (leBytes (formatBytes f) w) = .ok x := by
  unfold tableWire at h
  split at h
  · cases h
  · next f hf =>
    split_ifs at h with hw
    split at h
    · next y hy => cases h; exact ⟨f, hf, hw, hy⟩
    · cases h

/-- Five bytes are always a bus write. -/
theorem wireOfBytes_regWrite {bs : List Byte} {x : Wire} (h : wireOfBytes .regWrite bs = .ok x) :
    ∃ a v, x = .bus (.write a v) := by
  unfold wireOfBytes at h
  split_ifs at h
  cases h
  exact ⟨_, _, rfl⟩

/-- Two bytes are an IN word exactly when their number fits its nine bits, and then of the same value. -/
theorem wireOfBytes_inWord {bs : List Byte} {x : Wire} (h : wireOfBytes .inWord bs = .ok x) :
    ∃ u : BitVec 9, u.toNat = leNat bs ∧ x = .inWord u := by
  unfold wireOfBytes at h
  split_ifs at h
  dsimp only at h
  split_ifs at h with h9
  cases h
  exact ⟨_, by rw [BitVec.toNat_ofNat]; omega, rfl⟩

/-- The host words of the opcode table: an IN word of the same value at 16 bits, a bus write at every other width. -/
theorem tableWire_cases {nbits w : Nat} {x : Wire} (h : tableWire nbits w = some x) :
    (nbits ≠ 16 ∧ ∃ a v, x = .bus (.write a v)) ∨ (nbits = 16 ∧ ∃ u : BitVec 9, u.toNat = w ∧ x = .inWord u) := by
  obtain ⟨f, hf, hw, hx⟩ := tableWire_eq_some h
  rcases tableFormat_cases hf with ⟨hn, rfl⟩ | ⟨rfl, rfl⟩
  · exact .inl ⟨hn, wireOfBytes_regWrite hx⟩
  · obtain ⟨u, hu, rfl⟩ := wireOfBytes_inWord hx
    exact .inr ⟨rfl, u, hu.trans (leNat_leBytes 2 w hw), rfl⟩

namespace Machine

/-- The step after the host presents a bus request runs it on the state in which it was presented. -/
theorem step_present_bus (r : BusReq) (s : State) : step (s.present (.bus r)) = exec (decode (.bus r)) s :=
  step_bus (s := s.present (.bus r)) rfl rfl

/-- The step after the host presents an IN word runs it with the word at the head of the IN queue (20_memory.md R48). -/
theorem step_present_inWord (u : BitVec 9) (s : State) :
    step (s.present (.inWord u)) = exec (decode (.inWord u)) { s with env := { s.env with inp := u :: s.env.inp } } :=
  rfl

/-- Settles O41: a table word is a bus write or an IN word, and the step after either is presented runs it. -/
theorem fetchWordRunsNext : Obligations.FetchWordRunsNext := by
  intro s nbits w i h
  obtain ⟨x, hx, rfl⟩ := Option.map_eq_some_iff.mp h
  have hs : s.withFetchWord nbits w = s.present x := by rw [State.withFetchWord, hx]
  rw [hs]
  rcases tableWire_cases hx with ⟨hn, a, v, rfl⟩ | ⟨hn, u, hu, rfl⟩
  · exact ⟨fun _ => step_present_bus _ s, fun e => absurd e hn⟩
  · exact ⟨fun e => absurd hn e, fun _ => ⟨u, hu, step_present_inWord u s⟩⟩

end Machine

end Sys2Proof

/-! ## DECODE of a finite source ends (O55)

A block in the decode direction always waits for one of three things: its own replay step, the host's take on POUT, or an IN
word.  `State.decodeWork` counts what is left to do, and every one of the three lowers it, so each round of a host that keeps
taking and offering lowers it until the run has ended. -/

namespace Sys2Proof.Machine

/-! ### The start of a decode run -/

/-- The first step of a host that feeds a source to PARSE or DECODE starts the header phase (43_control.md R150). -/
theorem FeedsSource.stepped_start {s : State} {op : BitVec 4} {src : List Byte} {ts : List Turn}
    (h : FeedsSource s op src ts) (hop : op = 0x1 ∨ op = 0x2) :
    ∃ rest, stepped s =
      { s with blk := s.blk.startDecodeFamily op, env := { s.env with turns := ts, bus := rest } } := by
  obtain ⟨v, rest, hbus, rfl⟩ := h.command
  have hstep := step_bus h.turns hbus
  rw [step_eq, decodeBus, if_pos rfl, exec_decodeCmdWord] at hstep
  refine ⟨rest, (Host.Outcome.next.inj hstep).trans ?_⟩
  have hctrl : s.blk.ctrlWrite s.cfg (cmdOp v) = s.blk.whenIdle (Block.startDecodeFamily (cmdOp v)) := by
    rcases hop with e | e <;> rw [e] <;> rfl
  rw [State.onBlock, hctrl, Block.whenIdle_idle _ h.notBusy]

/-! ### What is left to do -/

/-- The run is over. -/
def Phase.ended (p : Phase) : Prop := p = .done ∨ p = .error

/-- The busy phases of the decode direction. -/
def Phase.decoding (p : Phase) : Prop := p ∈ [Phase.dHdr, .dSkip, .dPix, .dPad, .dDrain]

/-- At most how many replay steps are still to come (41_row_aligner.md R118). -/
def Block.replaysLeft (b : Block) : Nat :=
  match b.phase with
  | .dHdr => 54
  | .dPix | .dPad => 54 - b.rpos.toNat
  | .idle | .dSkip | .dDrain | .eHdr | .ePix | .ePad | .done | .error => 0

theorem Block.replaysLeft_le (b : Block) : b.replaysLeft ≤ 54 := by
  unfold Block.replaysLeft; split <;> omega

/-- The IN words up to the first EOS, that word included. -/
def wordsToEos (ws : List (BitVec 9)) : Nat := ws.findIdx (·.getLsbD 8) + 1

/-- A decode run that has not ended: the block is in a decode phase, and the host has an EOS to offer. -/
structure State.Decoding (s : State) : Prop where
  inv : s.blk.Inv
  phase : s.blk.phase.decoding
  eos : ∃ w ∈ s.env.inp, w.getLsbD 8 = true

/-- The work left in a decode run.  A replay step or an IN word may fill POUT, so each counts twice a take. -/
def State.decodeWork (s : State) : Nat :=
  2 * (s.blk.replaysLeft + wordsToEos s.env.inp) + s.blk.pout.isSome.toNat

/-- The run has ended, or it goes on with at most `m` work left. -/
def State.EndsWithin (m : Nat) (s : State) : Prop :=
  s.blk.phase.ended ∨ (s.Decoding ∧ s.decodeWork ≤ m)

/-! ### The three operations of a decode run -/

theorem Block.consume_rpos (x : Byte) (b : Block) : (b.consume x).rpos = b.rpos := by rw [Block.consume_frame]

theorem Block.gapByte_rpos (b : Block) : b.gapByte.rpos = b.rpos := by
  unfold Block.gapByte; dsimp only; split <;> rfl

/-- Where the consumption of a data byte leads. -/
theorem Block.consume_phase (x : Byte) {b : Block} (hph : b.phase = .dPix ∨ b.phase = .dPad) (hpo : b.pout = none) :
    (b.consume x).phase ∈ [Phase.dPix, .dPad, .dDrain, .done] := by
  unfold Block.consume
  split
  · next hpad =>
    have := b.consumePad_phase hpo
    simp only [hpad, List.mem_cons, List.not_mem_nil, or_false] at this ⊢
    tauto
  · next hpix =>
    have := b.consumePix_phase x
    simp only [hph.resolve_right hpix, List.mem_cons, List.not_mem_nil, or_false] at this ⊢
    tauto

/-- The consumption of a data byte ends the run or leaves it with the replay steps that `rpos` says. -/
theorem Block.consume_progress (x : Byte) {b : Block} (hph : b.phase = .dPix ∨ b.phase = .dPad) (hpo : b.pout = none) :
    (b.consume x).phase.ended
    ∨ ((b.consume x).phase.decoding ∧ (b.consume x).replaysLeft ≤ 54 - b.rpos.toNat) := by
  have hr := b.consume_rpos x
  have hp := Block.consume_phase x hph hpo
  simp only [List.mem_cons, List.not_mem_nil, or_false] at hp
  rcases hp with e | e | e | e <;> simp [Phase.ended, Phase.decoding, Block.replaysLeft, e, hr]

/-- What the replay step waits for. -/
theorem Block.replayReady_iff (b : Block) :
    b.replayReady = true ↔ (b.phase = .dPix ∨ b.phase = .dPad) ∧ b.rpos.toNat < 54 ∧ b.pout = none := by
  simp [Block.replayReady, and_assoc]

/-- A replay step ends the run or leaves one replay step fewer. -/
theorem Block.replay_progress {b : Block} (hr : b.replayReady = true) :
    b.replay.phase.ended ∨ (b.replay.phase.decoding ∧ b.replay.replaysLeft + 1 ≤ b.replaysLeft) := by
  obtain ⟨hph, hlt, hpo⟩ := b.replayReady_iff.mp hr
  have hr1 : (b.rpos + 1).toNat = b.rpos.toNat + 1 := add_one_toNat (by omega)
  have hleft : b.replaysLeft = 54 - b.rpos.toNat := by
    rcases hph with e | e <;> rw [Block.replaysLeft, e]
  refine (Block.consume_progress (b := { b with rpos := b.rpos + 1 }) (hdrAt b.hdr b.rpos.toNat) hph hpo).imp_right ?_
  rintro ⟨hd, hle⟩
  rw [hr1] at hle
  exact ⟨hd, show (Block.consume _ _).replaysLeft + 1 ≤ _ by omega⟩

/-- A header byte ends the run or leaves at most the 54 replay steps that the header phase counts. -/
theorem Block.headerByte_progress (x : Byte) {b : Block} (hp : b.phase = .dHdr) :
    (b.headerByte x).phase.ended
    ∨ ((b.headerByte x).phase.decoding ∧ (b.headerByte x).replaysLeft ≤ b.replaysLeft) := by
  have hleft : b.replaysLeft = 54 := by rw [Block.replaysLeft, hp]
  have hphase := b.headerByte_phase x
  simp only [hp, List.mem_cons, List.not_mem_nil, or_false] at hphase
  have hends : (b.headerByte x).phase.ended ∨ (b.headerByte x).phase.decoding := by
    rcases hphase with e | e | e | e | e <;> simp [Phase.ended, Phase.decoding, e]
  exact hends.imp_right fun hd => ⟨hd, hleft ▸ Block.replaysLeft_le _⟩

/-- A gap byte leads to D_SKIP or D_PIX, and after a gap nothing is replayed (41_row_aligner.md R116). -/
theorem Block.Inv.gapByte_progress {b : Block} (h : b.Inv) (hp : b.phase = .dSkip) :
    b.gapByte.phase.decoding ∧ b.gapByte.replaysLeft ≤ b.replaysLeft := by
  have hrpos : b.gapByte.rpos.toNat = 54 := by
    have hpos := h.position
    simp only [Block.positionOk, hp] at hpos
    obtain ⟨-, -, -, -, -, hrpos, -⟩ := hpos
    rw [Block.gapByte_rpos, hrpos]
  have hphase := b.gapByte_phase
  rw [hp] at hphase
  rcases hphase with e | e <;> simp [Phase.decoding, Block.replaysLeft, e, hrpos]

/-- A byte taken from IN ends the run or leaves no more replay steps than before. -/
theorem Block.Inv.takeByte_progress (x : Byte) {b : Block} (h : b.Inv) (hr : b.inReady = true) :
    (b.takeByte x).phase.ended ∨ ((b.takeByte x).phase.decoding ∧ (b.takeByte x).replaysLeft ≤ b.replaysLeft) := by
  unfold Block.takeByte
  cases hp : b.phase <;> simp only [Block.inReady, hp, Bool.false_eq_true, Bool.and_eq_true, beq_iff_eq,
    Option.isNone_iff_eq_none] at hr
  case dHdr => exact Block.headerByte_progress x hp
  case dSkip => exact .inr (h.gapByte_progress hp)
  case dPix | dPad =>
    have hconsume := Block.consume_progress (b := { b with pos := b.pos + 1 }) x (by simp [hp]) hr.2
    simpa only [Block.replaysLeft, hp] using hconsume

/-- The host's take of a POUT word ends the run or leaves the replay steps as they are. -/
theorem Block.poutTaken_progress {b : Block} (hd : b.phase.decoding) :
    b.poutTaken.phase.ended ∨ (b.poutTaken.phase.decoding ∧ b.poutTaken.replaysLeft = b.replaysLeft) := by
  by_cases hdrain : b.phase = .dDrain
  · exact .inl (.inl (by simp [hdrain]))
  · have hp : b.poutTaken.phase = b.phase := by simp [hdrain]
    exact .inr ⟨hp ▸ hd, by simp only [Block.replaysLeft, hp, Block.poutTaken_rpos]⟩

/-! ### The turns of a round -/

/-- The turns of one round of `decodeRounds`. -/
def decodeRound : List Turn := [.block, .port .pout, .port .inp]

/-- The block waits for this turn: a replay step, a take of the word in POUT, or an IN word (20_memory.md R62). -/
def Block.waitsFor (b : Block) : Turn → Prop
  | .block => b.replayReady = true
  | .port .pout => b.pout.isSome = true
  | .port .inp => b.inReady = true
  | .port .bus | .port .pin | .port .bout | .reset => False

/-- A block in a decode phase always waits for one of the turns of a round: for the host's take if POUT holds a word, and
else, which D_DRAIN excludes, for a replay step or an IN word. -/
theorem Block.Inv.waitsFor_round {b : Block} (h : b.Inv) (hd : b.phase.decoding) : ∃ u ∈ decodeRound, b.waitsFor u := by
  cases hpo : b.pout with
  | some p => exact ⟨.port .pout, by simp [decodeRound], by simp [Block.waitsFor, hpo]⟩
  | none =>
    have hready : b.inReady = true ∨ b.replayReady = true := by
      have hrpos := h.rpos_le
      have hpos := h.position
      rw [Block.replayReady_iff]
      simp only [Phase.decoding, List.mem_cons, List.not_mem_nil, or_false] at hd
      rcases hd with e | e | e | e | e <;> simp [Block.inReady, Block.positionOk, e, hpo] at hpos ⊢ <;> omega
    rcases hready with hin | hreplay
    · exact ⟨.port .inp, by simp [decodeRound], hin⟩
    · exact ⟨.block, by simp [decodeRound], hreplay⟩

/-- A turn of a round that the block does not wait for is used up without effect (log 2). -/
theorem stepped_of_not_waitsFor {s : State} {u : Turn} {ts : List Turn} (hu : u ∈ decodeRound)
    (ht : s.env.turns = u :: ts) (hw : ¬ s.blk.waitsFor u) :
    stepped s = { s with env := { s.env with turns := ts } } := by
  simp only [decodeRound, List.mem_cons, List.not_mem_nil, or_false] at hu
  rcases hu with rfl | rfl | rfl
  · rw [stepped_block ht]
    exact if_neg hw
  · have hpo : s.blk.pout = none := by simpa [Block.waitsFor] using hw
    rw [stepped_pout ht, hpo]
  · cases hin : s.env.inp with
    | nil => exact stepped_inp_nil ht hin
    | cons w rest => rw [stepped_inp ht hin]; exact if_neg hw

/-- A turn of a round is used up, waited for or not. -/
theorem stepped_turns {s : State} {u : Turn} {ts : List Turn} (hu : u ∈ decodeRound) (ht : s.env.turns = u :: ts) :
    (stepped s).env.turns = ts := by
  simp only [decodeRound, List.mem_cons, List.not_mem_nil, or_false] at hu
  rcases hu with rfl | rfl | rfl
  · rw [stepped_block ht, State.internalStep]
    split <;> rfl
  · rw [stepped_pout ht]
    split <;> rfl
  · cases hin : s.env.inp with
    | nil => rw [stepped_inp_nil ht hin]
    | cons w rest => rw [stepped_inp ht hin]; split <;> rfl

/-- Once the run has ended, no turn of a round starts it again. -/
theorem stepped_ended {s : State} {u : Turn} {ts : List Turn} (hu : u ∈ decodeRound) (ht : s.env.turns = u :: ts)
    (he : s.blk.phase.ended) : (stepped s).blk.phase.ended := by
  by_cases hw : s.blk.waitsFor u
  · simp only [decodeRound, List.mem_cons, List.not_mem_nil, or_false] at hu
    rcases hu with rfl | rfl | rfl
    · rcases he with e | e <;> simp [Block.waitsFor, Block.replayReady_iff, e] at hw
    · obtain ⟨p, hp⟩ := Option.isSome_iff_exists.mp hw
      rw [stepped_pout ht, hp]
      rcases he with e | e <;> simp [Phase.ended, e]
    · rcases he with e | e <;> simp [Block.waitsFor, Block.inReady, e] at hw
  · rw [stepped_of_not_waitsFor hu ht hw]
    exact he

/-! ### Progress -/

/-- A run with work left has at least an EOS to take. -/
theorem State.decodeWork_pos (s : State) : 0 < s.decodeWork := by
  unfold State.decodeWork wordsToEos; omega

/-- With no work left the run has ended. -/
theorem State.EndsWithin.ended {s : State} (h : s.EndsWithin 0) : s.blk.phase.ended :=
  h.resolve_right fun ⟨_, hw⟩ => absurd s.decodeWork_pos (by omega)

/-- A source byte taken is one word fewer to the EOS. -/
theorem wordsToEos_cons {w : BitVec 9} (ws : List (BitVec 9)) (hw : w.getLsbD 8 = false) :
    wordsToEos (w :: ws) = wordsToEos ws + 1 := by
  simp only [wordsToEos, List.findIdx_cons, hw, cond_false]

/-- A replay step lowers the work left: it may fill POUT, and it is one replay step fewer. -/
theorem State.Decoding.replay_lowers {s : State} {m : Nat} {ts : List Turn} (h : s.Decoding)
    (ht : s.env.turns = .block :: ts) (hr : s.blk.replayReady = true) (hm : s.decodeWork ≤ m + 1) :
    (stepped s).EndsWithin m := by
  have hs : stepped s = { s with blk := s.blk.replay, env := { s.env with turns := ts } } := by
    rw [stepped_block ht]; exact if_pos hr
  rw [hs]
  refine (Block.replay_progress hr).imp_right fun ⟨hd, hle⟩ => ⟨⟨h.inv.replay hr, hd, h.eos⟩, ?_⟩
  have hpout := Bool.toNat_le s.blk.replay.pout.isSome
  simp only [State.decodeWork] at hm ⊢
  omega

/-- The host's take of a POUT word lowers the work left. -/
theorem State.Decoding.pout_lowers {s : State} {m : Nat} {ts : List Turn} (h : s.Decoding)
    (ht : s.env.turns = .port .pout :: ts) (hr : s.blk.pout.isSome = true) (hm : s.decodeWork ≤ m + 1) :
    (stepped s).EndsWithin m := by
  obtain ⟨p, hp⟩ := Option.isSome_iff_exists.mp hr
  rw [stepped_pout ht, hp]
  refine (Block.poutTaken_progress h.phase).imp_right fun ⟨hd, hle⟩ => ⟨⟨h.inv.poutTaken, hd, h.eos⟩, ?_⟩
  simp only [State.decodeWork, hr, Bool.toNat_true] at hm
  simp only [State.decodeWork, Block.poutTaken_pout, hle, Option.isSome_none, Bool.toNat_false]
  omega

/-- An IN word taken ends the run if it is an EOS, and else lowers the work left: it may fill POUT, and it is one word fewer. -/
theorem State.Decoding.inp_lowers {s : State} {m : Nat} {ts : List Turn} (h : s.Decoding)
    (ht : s.env.turns = .port .inp :: ts) (hr : s.blk.inReady = true) (hm : s.decodeWork ≤ m + 1) :
    (stepped s).EndsWithin m := by
  obtain ⟨w', hmem, heos⟩ := h.eos
  cases hin : s.env.inp with
  | nil => rw [hin] at hmem; cases hmem
  | cons w rest =>
    rw [stepped_inp ht hin, if_pos hr]
    cases hw : w.getLsbD 8 with
    | true => exact .inl (.inr (Block.takeEos_error hr).1)
    | false =>
      have hrest : w' ∈ rest := by
        refine (List.mem_cons.mp (hin ▸ hmem)).resolve_left fun e => ?_
        rw [e, hw] at heos; cases heos
      refine (h.inv.takeByte_progress (w.extractLsb' 0 8) hr).imp_right fun ⟨hd, hle⟩ =>
        ⟨⟨h.inv.takeByte _ hr, hd, w', hrest, heos⟩, ?_⟩
      have hpout := Bool.toNat_le (s.blk.takeByte (w.extractLsb' 0 8)).pout.isSome
      simp only [State.decodeWork, hin, wordsToEos_cons rest hw] at hm
      simp only [State.decodeWork, Bool.false_eq_true, if_false]
      omega

/-- A turn the block waits for lowers the work left. -/
theorem State.Decoding.step_lowers {s : State} {m : Nat} {u : Turn} {ts : List Turn} (h : s.Decoding)
    (hu : u ∈ decodeRound) (ht : s.env.turns = u :: ts) (hw : s.blk.waitsFor u) (hm : s.decodeWork ≤ m + 1) :
    (stepped s).EndsWithin m := by
  simp only [decodeRound, List.mem_cons, List.not_mem_nil, or_false] at hu
  rcases hu with rfl | rfl | rfl
  · exact h.replay_lowers ht hw hm
  · exact h.pout_lowers ht hw hm
  · exact h.inp_lowers ht hw hm

/-- No turn of a round adds work. -/
theorem State.EndsWithin.step_keeps {s : State} {m : Nat} {u : Turn} {ts : List Turn} (h : s.EndsWithin m)
    (hu : u ∈ decodeRound) (ht : s.env.turns = u :: ts) : (stepped s).EndsWithin m := by
  rcases h with he | ⟨hd, hm⟩
  · exact .inl (stepped_ended hu ht he)
  · by_cases hw : s.blk.waitsFor u
    · exact hd.step_lowers hu ht hw (by omega)
    · rw [stepped_of_not_waitsFor hu ht hw]
      exact .inr ⟨⟨hd.inv, hd.phase, hd.eos⟩, hm⟩

/-- No schedule of such turns adds work, and it is used up. -/
theorem State.EndsWithin.turns_keep {m : Nat} {ts : List Turn} (us : List Turn) (hus : ∀ u ∈ us, u ∈ decodeRound)
    {s : State} (ht : s.env.turns = us ++ ts) (h : s.EndsWithin m) :
    (ran us.length s).EndsWithin m ∧ (ran us.length s).env.turns = ts := by
  induction us generalizing s with
  | nil => exact ⟨h, ht⟩
  | cons u us ih =>
    obtain ⟨hu, hus⟩ := List.forall_mem_cons.mp hus
    exact ih hus (stepped_turns hu ht) (h.step_keeps hu ht)

/-- A schedule of such turns with the one the block waits for among them lowers the work left: until that turn comes, none
changes the block. -/
theorem State.Decoding.turns_lower {m : Nat} {ts : List Turn} (us : List Turn) (hus : ∀ u ∈ us, u ∈ decodeRound)
    {s : State} (ht : s.env.turns = us ++ ts) (h : s.Decoding) (hm : s.decodeWork ≤ m + 1) (hw : ∃ u ∈ us, s.blk.waitsFor u) :
    (ran us.length s).EndsWithin m := by
  induction us generalizing s with
  | nil => simp at hw
  | cons u us ih =>
    obtain ⟨hu, hus⟩ := List.forall_mem_cons.mp hus
    by_cases hwu : s.blk.waitsFor u
    · exact ((h.step_lowers hu ht hwu hm).turns_keep us hus (stepped_turns hu ht)).1
    · have hs := stepped_of_not_waitsFor hu ht hwu
      have hw' : ∃ u ∈ us, s.blk.waitsFor u := by simpa [hwu] using hw
      show (ran us.length (stepped s)).EndsWithin m
      rw [hs]
      exact ih hus rfl ⟨h.inv, h.phase, h.eos⟩ hm hw'

/-- Each round lowers the work left, until the run has ended. -/
theorem State.EndsWithin.round_lowers {m : Nat} {ts : List Turn} {s : State} (h : s.EndsWithin (m + 1))
    (ht : s.env.turns = decodeRound ++ ts) :
    (ran decodeRound.length s).EndsWithin m ∧ (ran decodeRound.length s).env.turns = ts := by
  refine ⟨?_, (h.turns_keep decodeRound (fun _ hu => hu) ht).2⟩
  rcases h with he | ⟨hd, hm⟩
  · exact ((show s.EndsWithin m from .inl he).turns_keep decodeRound (fun _ hu => hu) ht).1
  · exact hd.turns_lower decodeRound (fun _ hu => hu) ht hm (hd.inv.waitsFor_round hd.phase)

/-- As many rounds as there is work left end the run. -/
theorem State.EndsWithin.rounds_end {n : Nat} {s : State} (h : s.EndsWithin n)
    (ht : s.env.turns = decodeRounds n) : (ran (decodeRounds n).length s).blk.phase.ended := by
  induction n generalizing s with
  | zero => exact h.ended
  | succ n ih =>
    have hround : decodeRounds (n + 1) = decodeRound ++ decodeRounds n := rfl
    rw [hround] at ht
    obtain ⟨hnext, hturns⟩ := h.round_lowers ht
    rw [hround, List.length_append, ran_add]
    exact ih hnext hturns

/-- The words of a source with its EOS: one for each byte, and the EOS. -/
theorem wordsToEos_source (src : List Byte) {eos : BitVec 9} (rest : List (BitVec 9)) (he : eos.getLsbD 8 = true) :
    wordsToEos (src.map byteWord ++ eos :: rest) = src.length + 1 := by
  induction src with
  | nil => simp only [wordsToEos, List.map_nil, List.nil_append, List.findIdx_cons, he, cond_true, List.length_nil]
  | cons x src ih =>
    have hx : (byteWord x).getLsbD 8 = false := in_eos_append 0#1 x
    rw [List.map_cons, List.cons_append, wordsToEos_cons _ hx, ih, List.length_cons]

/-- The step that starts PARSE or DECODE of a source leaves a run with at most two turns of work for each byte of the header
and each word of the source. -/
theorem FeedsSource.endsWithin {s : State} {op : BitVec 4} {src : List Byte} {ts : List Turn}
    (h : FeedsSource s op src ts) (hop : op = 0x1 ∨ op = 0x2) :
    (stepped s).EndsWithin (2 * (54 + (src.length + 1))) ∧ (stepped s).env.turns = ts := by
  obtain ⟨eos, rest, hinp, heos⟩ := h.source
  obtain ⟨bus, hs⟩ := h.stepped_start hop
  rw [hs]
  have hinv : (s.blk.startDecodeFamily op).Inv := Block.Inv.commandStart op s.blk (.inr ⟨rfl, hop⟩)
  refine ⟨.inr ⟨⟨hinv, by simp [Phase.decoding], eos, by simp [hinp], heos⟩, ?_⟩, rfl⟩
  have hwords : wordsToEos s.env.inp = src.length + 1 := hinp ▸ wordsToEos_source src rest heos
  simp [State.decodeWork, Block.replaysLeft, hwords]

/-- Settles O55: the step that starts DECODE leaves less work than there are rounds, and each round lowers it. -/
theorem decodeEnds : Obligations.DecodeEnds := by
  intro s src n h hn
  obtain ⟨hwork, hturns⟩ := h.endsWithin (.inr rfl)
  have hround : (stepped s).EndsWithin n := hwork.imp_right fun ⟨hd, hm⟩ => ⟨hd, by omega⟩
  exact ⟨ran ((decodeRounds n).length + 1) s, run_eq _ s, hround.rounds_end hturns⟩

end Sys2Proof.Machine

/-! ## Every step keeps the invariant (O46) -/

namespace Sys2Proof.Machine

/-- The block right after reset meets the invariant: it is a block that has just started a command, in IDLE (R179). -/
theorem Block.Inv.reset : Block.reset.Inv :=
  Block.Inv.commandStart 0 Block.reset (.inl rfl)

/-- The invariant, over everything one step can do to the block. -/
theorem Block.Inv.stepEffect {cfg : Config} {b b' : Block} {u : Option Turn} (h : b.Inv) (e : b.StepEffect cfg u b') :
    b'.Inv := by
  cases e with
  | same => exact h
  | reset => exact Block.Inv.reset
  | bus _ e => exact h.busEffect e
  | replay _ _ hr => exact h.replay hr
  | byte x hr => exact h.takeByte x hr
  | eos => exact h.takeEos
  | pixel r g bl hr => exact h.takePixel r g bl hr
  | pout => exact h.poutTaken
  | bout hr => exact h.boutTaken hr

/-- Settles O46: a step changes the block by one of the step effects, and each keeps the invariant. -/
theorem stepKeepsInv : Obligations.StepKeepsInv :=
  fun _ _ h hstep => h.stepEffect (step_effect hstep).1

end Sys2Proof.Machine

/-! ## No counter wraps (O47) -/

namespace Sys2Proof.Machine

/-- The next pixel-data byte stands at most at the end of the pixel data. -/
theorem Block.sourceIndex_le {b : Block} (hj : b.j.toNat < b.gh.toNat) (hk : b.k.toNat ≤ b.rowBytes) :
    b.sourceIndex ≤ hdrOffset b.hdr + b.rowBytes * b.gh.toNat := by
  have hrow := Block.mul_row_le hj
  unfold Block.sourceIndex
  omega

/-- In the phases past the header POS is at most the end of the header or of the pixel data, whichever comes later (R36). -/
theorem Block.Inv.pos_le {b : Block} (h : b.Inv) (hp : b.phase ∈ [Phase.dSkip, .dPix, .dPad, .dDrain]) :
    b.pos.toNat ≤ max 54 (hdrOffset b.hdr + b.rowBytes * b.gh.toNat) := by
  have hpos := h.position
  simp only [List.mem_cons, List.not_mem_nil, or_false] at hp
  rcases hp with e | e | e | e <;> simp only [Block.positionOk, e] at hpos
  · obtain ⟨-, -, -, -, -, -, -, hgap, -⟩ := hpos
    omega
  · obtain ⟨hj, -, -, -, hpos, -⟩ := hpos
    have := Block.sourceIndex_le hj h.k_le
    omega
  · obtain ⟨hj, -, -, -, -, hpos, -⟩ := hpos
    have := Block.sourceIndex_le hj h.k_le
    omega
  · obtain ⟨hj, hk, -, -, -, hpos, -⟩ := hpos
    have hsrc : b.sourceIndex = hdrOffset b.hdr + b.rowBytes * b.gh.toNat := by
      simp [Block.sourceIndex, hj, hk, Nat.mul_comm]
    omega

/-- Settles O47: the ranges are fields of the invariant, and the bound on POS is `Block.Inv.pos_le`. -/
theorem countersStayInRange : Obligations.CountersStayInRange := by
  intro b h
  have hrow : rowBytesOf b.gw.toNat ≤ 3 * 2 ^ 31 := rowBytesOf_le h.gw_lt
  have hlt := h.pos_lt
  refine ⟨h.hpos_le, h.skip_le, h.j_le, h.gh_lt, h.k_le, by omega, by omega, fun hp => ?_⟩
  have hle : b.pos.toNat ≤ max 54 (hdrOffset b.hdr + rowBytesOf b.gw.toNat * b.gh.toNat) := h.pos_le hp
  constructor <;> intro <;> omega

end Sys2Proof.Machine

/-! ## The phase graph (O48) -/

namespace Sys2Proof.Machine

/-- What the block does with a byte it takes from IN, phase by phase (R95, R119, R120, R121). -/
theorem Block.takeByte_cases (x : Byte) {b : Block} (hr : b.inReady = true) :
    (b.phase = .dHdr ∧ b.takeByte x = b.headerByte x)
    ∨ (b.phase = .dSkip ∧ b.takeByte x = b.gapByte)
    ∨ ((b.phase = .dPix ∨ b.phase = .dPad) ∧ b.pout = none
        ∧ b.takeByte x = ({ b with pos := b.pos + 1 }).consume x) := by
  unfold Block.takeByte
  cases hp : b.phase <;> simp_all [Block.inReady]

/-- Only a busy block is ready on IN. -/
theorem Block.busy_of_inReady {b : Block} (hr : b.inReady = true) : b.phase.busy = true := by
  rw [Block.inReady] at hr
  cases hp : b.phase <;> simp_all [Phase.busy]

/-- A step keeps the phase or takes an edge of the phase graph (10_state.md R27). -/
def Phase.Follows (p p' : Phase) : Prop := p' = p ∨ p' ∈ p.next

/-- Every busy phase has an edge to ERROR. -/
theorem Phase.follows_error {p : Phase} (h : p.busy = true) : p.Follows .error := by
  revert h; cases p <;> simp [Phase.busy, Phase.Follows, Phase.next]

/-- The edges of the phases in which no command runs. -/
theorem Phase.next_of_not_busy {p : Phase} (h : p.busy = false) : p.next = [.dHdr, .eHdr, .error, .idle] := by
  revert h; cases p <;> simp [Phase.busy, Phase.next]

/-- A command or a register write keeps the phase or takes an edge: nothing starts while busy (R147, R152). -/
theorem Block.BusEffect.phase_follows {cfg : Config} {b b' : Block} (e : b.BusEffect cfg b') :
    b.phase.Follows b'.phase := by
  cases e with
  | same | ignored | encW | encH => exact .inl rfl
  | start op hb => right; simp [Phase.next_of_not_busy hb]
  | encode hb =>
    right
    rw [Phase.next_of_not_busy hb]
    rcases b.acceptEncode_cases cfg with ⟨-, e⟩ | ⟨-, -, e⟩ | ⟨-, -, e⟩ <;> simp [e]
  | bad op hb => right; simp [Phase.next_of_not_busy hb, Block.badCommand]
  | abort =>
    cases hb : b.phase.busy with
    | true => rw [Block.abort_busy hb]; exact Phase.follows_error hb
    | false => right; simp [Block.abort_idle hb, Phase.next_of_not_busy hb]

theorem Block.consume_phase_follows (x : Byte) {b : Block} (hph : b.phase = .dPix ∨ b.phase = .dPad) (hpo : b.pout = none) :
    b.phase.Follows (b.consume x).phase := by
  unfold Block.consume
  rcases hph with hp | hp
  · rw [if_neg (by simp [hp])]
    refine (b.consumePix_phase x).imp_right fun hm => ?_
    simp only [hp, Phase.next, List.mem_cons] at hm ⊢
    tauto
  · rw [if_pos hp]
    refine (Block.consumePad_phase hpo).imp_right fun hm => ?_
    simp only [hp, Phase.next, List.mem_cons] at hm ⊢
    tauto

theorem Block.takeByte_phase_follows (x : Byte) {b : Block} (hr : b.inReady = true) :
    b.phase.Follows (b.takeByte x).phase := by
  rcases Block.takeByte_cases x hr with ⟨hp, e⟩ | ⟨hp, e⟩ | ⟨hp, hpo, e⟩ <;> rw [e]
  · have hm := b.headerByte_phase x
    rw [hp] at hm ⊢
    exact hm
  · exact b.gapByte_phase.imp_right fun e => by simp [e, hp, Phase.next]
  · exact Block.consume_phase_follows (b := { b with pos := b.pos + 1 }) x hp hpo

theorem Block.boutTaken_phase_follows (b : Block) : b.phase.Follows b.boutTaken.phase := by
  unfold Block.boutTaken Block.eRowEnd Phase.Follows
  cases hp : b.phase
  case eHdr | ePix | ePad => dsimp only; split_ifs <;> simp [Phase.next]
  all_goals exact .inl hp

/-- The phase graph, over everything one step but a reset can do to the block. -/
theorem Block.StepEffect.phase_follows {cfg : Config} {b b' : Block} {u : Option Turn} (hu : u ≠ some .reset)
    (e : b.StepEffect cfg u b') : b.phase.Follows b'.phase := by
  cases e with
  | same | pixel => exact .inl rfl
  | reset => exact absurd rfl hu
  | bus _ e => exact e.phase_follows
  | replay _ _ hr =>
    obtain ⟨hph, -, hpo⟩ := b.replayReady_iff.mp hr
    exact Block.consume_phase_follows (b := { b with rpos := b.rpos + 1 }) _ hph hpo
  | byte x hr => exact Block.takeByte_phase_follows x hr
  | eos hr =>
    rw [(Block.takeEos_error hr).1]
    exact Phase.follows_error (Block.busy_of_inReady hr)
  | pout =>
    by_cases hd : b.phase = .dDrain
    · right; simp [Block.poutTaken, hd, Phase.next]
    · left; simp [Block.poutTaken, hd]
  | bout => exact b.boutTaken_phase_follows

/-- Settles O48: a reset leads to the reset block, and every other step effect follows the graph. -/
theorem phaseGraph : Obligations.PhaseGraph := by
  intro s t hstep
  refine ⟨fun hu => ?_, fun hu => (step_effect hstep).1.phase_follows hu⟩
  obtain ⟨ts, hts⟩ := List.head?_eq_some_iff.mp hu
  rw [step_eq, stepped_reset hts] at hstep
  exact Host.Outcome.next.inj hstep ▸ rfl

end Sys2Proof.Machine

/-! ## What a transfer leaves unchanged (O38) -/

namespace Sys2Proof.Machine

/-- The error record is kept, unless the operation enters an error (60_exceptions.md R167). -/
def Block.KeepsErr (b b' : Block) : Prop :=
  b'.phase ≠ .error → b'.errCode = b.errCode ∧ b'.errVcause = b.errVcause ∧ b'.errStage = b.errStage

theorem Block.validate_keepsErr (b : Block) : b.KeepsErr b.validate := by
  intro hp
  unfold Block.validate at hp ⊢
  dsimp only at hp ⊢
  split_ifs at hp ⊢ with hsig hvar
  · rw [Block.validated_frame]
    exact ⟨rfl, rfl, rfl⟩
  · exact absurd rfl hp
  · exact absurd rfl hp

theorem Block.headerByte_keepsErr (x : Byte) (b : Block) : b.KeepsErr (b.headerByte x) := by
  unfold Block.headerByte
  dsimp only
  split
  · exact Block.validate_keepsErr _
  · exact fun _ => ⟨rfl, rfl, rfl⟩

theorem Block.takeByte_keepsErr (x : Byte) {b : Block} (hr : b.inReady = true) : b.KeepsErr (b.takeByte x) := by
  rcases Block.takeByte_cases x hr with ⟨-, e⟩ | ⟨-, e⟩ | ⟨-, -, e⟩ <;> rw [e]
  · exact b.headerByte_keepsErr x
  · intro _; unfold Block.gapByte; dsimp only; split <;> exact ⟨rfl, rfl, rfl⟩
  · intro _; rw [Block.consume_frame]; exact ⟨rfl, rfl, rfl⟩

/-- What every effect of a channel's turn leaves unchanged in the block. -/
theorem Block.StepEffect.channel_frame {cfg : Config} {b b' : Block} {p : Port} (hp : p ≠ .bus)
    (e : b.StepEffect cfg (some (.port p)) b') :
    b'.encW = b.encW ∧ b'.encH = b.encH ∧ b'.op = b.op ∧ b'.ign = b.ign ∧ b.KeepsErr b' := by
  cases e with
  | same | pixel => exact ⟨rfl, rfl, rfl, rfl, fun _ => ⟨rfl, rfl, rfl⟩⟩
  | pout => exact ⟨rfl, rfl, rfl, rfl, fun _ => ⟨rfl, rfl, rfl⟩⟩
  | bus => exact absurd rfl hp
  | replay _ hu => rcases hu with hu | hu <;> cases hu
  | byte x hr =>
    have herr := Block.takeByte_keepsErr x hr
    rw [Block.takeByte_frame] at herr ⊢
    exact ⟨rfl, rfl, rfl, rfl, herr⟩
  | eos hr =>
    have herr : b.KeepsErr b.takeEos := fun hne => absurd (Block.takeEos_error hr).1 hne
    rw [Block.takeEos_frame] at herr ⊢
    exact ⟨rfl, rfl, rfl, rfl, herr⟩
  | bout => rw [Block.boutTaken_frame]; exact ⟨rfl, rfl, rfl, rfl, fun _ => ⟨rfl, rfl, rfl⟩⟩

/-- A byte taken from IN keeps every header byte but the one at hpos in D_HDR (R95). -/
theorem Block.takeByte_hdrAt (x : Byte) (b : Block) {a : Nat} (ha : ¬ (b.phase = .dHdr ∧ a = b.hpos.toNat)) :
    hdrAt (b.takeByte x).hdr a = hdrAt b.hdr a := by
  rw [Block.takeByte_hdr]
  split
  · next hp =>
    have hne : b.hpos.toNat ≠ a := fun e => ha ⟨hp, e.symm⟩
    rw [hdrAt, hdrAt, Vector.getElem?_setIfInBounds_ne hne]
  · rfl

/-! The five transfers: each happens, or answers the same state (20_memory.md R48). -/

section transfers

variable {s t : State}

theorem exec_inByte_cases {x : Byte} (h : exec (.inByte x) s = .next t) :
    t = s ∨ (s.blk.inReady = true ∧ t = { s with blk := s.blk.takeByte x, env := s.env.takeIn }) := by
  cases h
  split
  · exact .inr ⟨‹_›, rfl⟩
  · exact .inl rfl

theorem exec_inEos_cases {x : Byte} (h : exec (.inEos x) s = .next t) :
    t = s ∨ (s.blk.inReady = true ∧ t = { s with blk := s.blk.takeEos, env := s.env.takeIn }) := by
  cases h
  split
  · exact .inr ⟨‹_›, rfl⟩
  · exact .inl rfl

theorem exec_pin_cases {x bl g r : Byte} (h : exec (.pin x bl g r) s = .next t) :
    t = s ∨ (s.blk.pinReady = true ∧ t = { s with blk := s.blk.takePixel r g bl, env := s.env.takePin }) := by
  cases h
  split
  · exact .inr ⟨‹_›, rfl⟩
  · exact .inl rfl

theorem exec_poutTake_cases (h : exec .poutTake s = .next t) :
    (s.blk.pout = none ∧ t = s)
    ∨ ∃ p, s.blk.pout = some p ∧ t = { s with blk := s.blk.poutTaken, env := s.env.givePixel p.pack } := by
  cases h
  split
  · next p hp => exact .inr ⟨p, hp, rfl⟩
  · next hp => exact .inl ⟨hp, rfl⟩

theorem exec_boutTake_cases (h : exec .boutTake s = .next t) :
    t = s ∨ (s.blk.boutValid = true ∧ t = { s with blk := s.blk.boutTaken, env := s.env.giveByte s.blk.boutOffer }) := by
  cases h
  split
  · exact .inr ⟨‹_›, rfl⟩
  · exact .inl rfl

/-- A transfer is an effect of its channel's turn, and leaves the register bus and the order of turns alone. -/
theorem exec_transfer_effect {i : Instr} {x y bl g r : Byte}
    (hi : i ∈ ([.inByte y, .inEos y, .pin x bl g r, .poutTake, .boutTake] : List Instr)) (h : exec i s = .next t) :
    ∃ p, p ≠ .bus ∧ s.blk.StepEffect s.cfg (some (.port p)) t.blk ∧ t.cfg = s.cfg
      ∧ t.env.bus = s.env.bus ∧ t.env.turns = s.env.turns ∧ t.env.readBack = s.env.readBack := by
  simp only [List.mem_cons, List.not_mem_nil, or_false] at hi
  rcases hi with rfl | rfl | rfl | rfl | rfl
  · rcases exec_inByte_cases h with rfl | ⟨hr, rfl⟩
    · exact ⟨.inp, by decide, .same _, rfl, rfl, rfl, rfl⟩
    · exact ⟨.inp, by decide, .byte _ hr, rfl, rfl, rfl, rfl⟩
  · rcases exec_inEos_cases h with rfl | ⟨hr, rfl⟩
    · exact ⟨.inp, by decide, .same _, rfl, rfl, rfl, rfl⟩
    · exact ⟨.inp, by decide, .eos hr, rfl, rfl, rfl, rfl⟩
  · rcases exec_pin_cases h with rfl | ⟨hr, rfl⟩
    · exact ⟨.pin, by decide, .same _, rfl, rfl, rfl, rfl⟩
    · exact ⟨.pin, by decide, .pixel _ _ _ hr, rfl, rfl, rfl, rfl⟩
  · rcases exec_poutTake_cases h with ⟨-, rfl⟩ | ⟨p, hp, rfl⟩
    · exact ⟨.pout, by decide, .same _, rfl, rfl, rfl, rfl⟩
    · exact ⟨.pout, by decide, .pout p hp, rfl, rfl, rfl, rfl⟩
  · rcases exec_boutTake_cases h with rfl | ⟨hr, rfl⟩
    · exact ⟨.bout, by decide, .same _, rfl, rfl, rfl, rfl⟩
    · exact ⟨.bout, by decide, .bout hr, rfl, rfl, rfl, rfl⟩

end transfers

/-- Settles O38: a transfer that happens is an effect of its channel's turn, and the frame of each operation says what that
keeps. -/
theorem transferFrame : Obligations.TransferFrame := by
  intro s t x y bl g r
  refine ⟨fun i hi h => ?_, fun i hi h => ?_, fun h => ?_, fun h => ?_, fun h => ?_⟩
  · obtain ⟨p, hp, heff, hcfg, hbus, hturns, hread⟩ := exec_transfer_effect hi h
    obtain ⟨hw, hh, hop, hign, herr⟩ := heff.channel_frame hp
    exact ⟨hcfg, hw, hh, hop, hign, hbus, hturns, hread, herr⟩
  · simp only [List.mem_cons, List.not_mem_nil, or_false] at hi
    rcases hi with rfl | rfl
    · rcases exec_inByte_cases h with rfl | ⟨-, rfl⟩
      · exact ⟨rfl, rfl, rfl, rfl, rfl, fun _ _ _ => rfl⟩
      · have hf := s.blk.takeByte_frame y
        refine ⟨(congrArg Block.ebuf hf :), (congrArg Block.en hf :), rfl, rfl, rfl, fun a _ hne => ?_⟩
        exact s.blk.takeByte_hdrAt y fun ⟨hp, ha⟩ => hne ⟨rfl, hp, ha⟩
    · rcases exec_inEos_cases h with rfl | ⟨-, rfl⟩
      · exact ⟨rfl, rfl, rfl, rfl, rfl, fun _ _ _ => rfl⟩
      · have hf := s.blk.takeEos_frame
        refine ⟨(congrArg Block.ebuf hf :), (congrArg Block.en hf :), rfl, rfl, rfl, fun a _ _ => ?_⟩
        exact congrArg (hdrAt ·.hdr a) hf
  · rcases exec_pin_cases h with rfl | ⟨-, rfl⟩ <;> rfl
  · rcases exec_poutTake_cases h with ⟨hp, rfl⟩ | ⟨p, -, rfl⟩
    · rw [← hp]
    · rfl
  · rcases exec_boutTake_cases h with rfl | ⟨-, rfl⟩
    · rfl
    · rw [← Block.boutTaken_frame]; rfl

end Sys2Proof.Machine

/-! ## What a command leaves unchanged (O39) -/

namespace Sys2Proof.Machine

/-- A command row is the CTRL dispatch of its opcode (43_control.md R147). -/
theorem exec_command {x : BitVec 28} {i : Instr}
    (hi : i ∈ ([.nop x, .parse x, .decodeCmd x, .encodeCmd x, .rsvd4 x, .rsvd5 x, .rsvd6 x, .rsvd7 x, .rsvd8 x, .rsvd9 x,
        .rsvdA x, .rsvdB x, .rsvdC x, .rsvdD x, .rsvdE x, .abort x] : List Instr)) :
    ∃ op : BitVec 4, (i = .nop x → op = 0x0) ∧ (i = .abort x → op = 0xF) ∧ (op = 0x3 → i = .encodeCmd x)
      ∧ ∀ s, exec i s = .next (s.onBlock (Block.ctrlWrite s.cfg op)) := by
  obtain ⟨n, hn, rfl⟩ := List.mem_iff_getElem.mp hi
  refine ⟨BitVec.ofNat 4 n, ?_⟩
  change n < 16 at hn
  interval_cases n <;> exact ⟨by simp, by simp, by simp, fun _ => rfl⟩

/-- What the CTRL dispatch does, by opcode and by whether a command runs (43_control.md R147). -/
theorem Block.ctrlWrite_cases (cfg : Config) (op : BitVec 4) (b : Block) :
    (op = 0x0 ∧ b.ctrlWrite cfg op = b)
    ∨ (op = 0xF ∧ b.ctrlWrite cfg op = b.abort)
    ∨ (b.phase.busy = true ∧ b.ctrlWrite cfg op = { b with ign := true })
    ∨ (b.phase.busy = false ∧ op ≠ 0x0 ∧ op ≠ 0xF
        ∧ ((op = 0x3 ∧ b.ctrlWrite cfg op = b.acceptEncode cfg)
          ∨ b.ctrlWrite cfg op = b.startDecodeFamily op ∨ b.ctrlWrite cfg op = b.badCommand op)) := by
  unfold Block.ctrlWrite Block.whenIdle
  split_ifs <;> simp_all

theorem Block.abort_frame (b : Block) : b.abort =
    { b with
      op := 0xF, errCode := b.abort.errCode, errVcause := b.abort.errVcause, errStage := b.abort.errStage,
      ign := b.abort.ign, pout := b.abort.pout, phase := b.abort.phase } := by
  unfold Block.abort; split <;> rfl

/-- ENCODE's acceptance keeps ENC_W and ENC_H, and HDR too where it rejects (42_encoder.md R132). -/
theorem Block.acceptEncode_keeps (cfg : Config) (b : Block) :
    (b.acceptEncode cfg).encW = b.encW ∧ (b.acceptEncode cfg).encH = b.encH
      ∧ ((b.acceptEncode cfg).phase ≠ .eHdr → (b.acceptEncode cfg).hdr = b.hdr) := by
  rcases b.acceptEncode_cases cfg with ⟨-, e⟩ | ⟨-, -, e⟩ | ⟨-, -, e⟩ <;> simp [e]

/-- The CTRL dispatch keeps ENC_W and ENC_H. -/
theorem Block.ctrlWrite_enc (cfg : Config) (op : BitVec 4) (b : Block) :
    (b.ctrlWrite cfg op).encW = b.encW ∧ (b.ctrlWrite cfg op).encH = b.encH := by
  rcases b.ctrlWrite_cases cfg op with ⟨-, e⟩ | ⟨-, e⟩ | ⟨-, e⟩ | ⟨-, -, -, ⟨-, e⟩ | e | e⟩ <;> rw [e]
  · exact ⟨rfl, rfl⟩
  · rw [Block.abort_frame]; exact ⟨rfl, rfl⟩
  · exact ⟨rfl, rfl⟩
  · exact ⟨(b.acceptEncode_keeps cfg).1, (b.acceptEncode_keeps cfg).2.1⟩
  · exact ⟨rfl, rfl⟩
  · exact ⟨rfl, rfl⟩

/-- A command that does not start keeps pb and ebuf. -/
theorem Block.ctrlWrite_buffers (cfg : Config) {op : BitVec 4} {b : Block}
    (h : op = 0x0 ∨ op = 0xF ∨ b.phase.busy = true) :
    (b.ctrlWrite cfg op).pb = b.pb ∧ (b.ctrlWrite cfg op).ebuf = b.ebuf := by
  rcases b.ctrlWrite_cases cfg op with ⟨-, e⟩ | ⟨-, e⟩ | ⟨-, e⟩ | ⟨hb, h0, hF, -⟩
  · rw [e]; exact ⟨rfl, rfl⟩
  · rw [e, Block.abort_frame]; exact ⟨rfl, rfl⟩
  · rw [e]; exact ⟨rfl, rfl⟩
  · exact absurd h (not_or.mpr ⟨h0, not_or.mpr ⟨hF, by simp [hb]⟩⟩)

/-- A command keeps HDR unless it is an ENCODE that is accepted. -/
theorem Block.ctrlWrite_hdr (cfg : Config) {op : BitVec 4} {b : Block}
    (h : op ≠ 0x3 ∨ (b.ctrlWrite cfg op).phase ≠ .eHdr ∨ b.phase.busy = true) :
    (b.ctrlWrite cfg op).hdr = b.hdr := by
  rcases b.ctrlWrite_cases cfg op with ⟨-, e⟩ | ⟨-, e⟩ | ⟨-, e⟩ | ⟨hb, -, -, ⟨h3, e⟩ | e | e⟩
  · rw [e]
  · rw [e, Block.abort_frame]
  · rw [e]
  · rw [e] at h ⊢
    exact (b.acceptEncode_keeps cfg).2.2 (by simpa [h3, hb] using h)
  · rw [e]; rfl
  · rw [e]; rfl

/-- Settles O39: a command is the CTRL dispatch of its opcode, and the dispatch keeps ENC_W and ENC_H, and pb, ebuf and HDR
under its own conditions. -/
theorem commandFrame : Obligations.CommandFrame := by
  intro s t x i hi h
  obtain ⟨op, hnop, habort, hencode, hexec⟩ := exec_command hi
  obtain rfl := Host.Outcome.next.inj ((hexec s).symm.trans h)
  obtain ⟨hw, hh⟩ := s.blk.ctrlWrite_enc s.cfg op
  refine ⟨rfl, rfl, hw, hh, fun hkeep => ?_, fun a _ hkeep => ?_⟩
  · exact Block.ctrlWrite_buffers s.cfg (hkeep.imp hnop (Or.imp_left habort))
  · exact congrArg (hdrAt · a) (Block.ctrlWrite_hdr s.cfg (hkeep.imp_left fun hne h3 => hne (hencode h3)))

end Sys2Proof.Machine

/-! ## What ENC_W and ENC_H do not reach (O50) -/

namespace Sys2Proof.Machine

section enc

variable (w h : Word) {s : State}

theorem internalStep_withEnc (s : State) :
    (s.onBlock (Block.withEnc w h)).internalStep = s.internalStep.onBlock (Block.withEnc w h) := by
  have hready : (s.onBlock (Block.withEnc w h)).blk.replayReady = s.blk.replayReady := rfl
  rw [State.internalStep, State.internalStep, hready]
  split
  · exact congrArg (fun b => { s with blk := b }) (Block.withEnc_replay w h s.blk)
  · rfl

/-- A turn of the block or of a channel, and the step with no turn left, neither read nor write ENC_W and ENC_H (R18, R193). -/
theorem stepped_withEnc (hbus : s.env.turns.head? ≠ some (.port .bus)) (hreset : s.env.turns.head? ≠ some .reset) :
    stepped (s.onBlock (Block.withEnc w h)) = (stepped s).onBlock (Block.withEnc w h) := by
  cases hts : s.env.turns with
  | nil =>
    rw [stepped_nil hts, stepped_nil (s := s.onBlock _) hts]
    exact internalStep_withEnc w h s
  | cons u ts =>
    rw [hts] at hbus hreset
    match u with
    | .reset => exact absurd rfl hreset
    | .port .bus => exact absurd rfl hbus
    | .block =>
      rw [stepped_block hts, stepped_block (s := s.onBlock _) hts]
      exact internalStep_withEnc w h { s with env := { s.env with turns := ts } }
    | .port .inp =>
      cases hq : s.env.inp with
      | nil => rw [stepped_inp_nil hts hq, stepped_inp_nil (s := s.onBlock _) hts hq]; rfl
      | cons x rest =>
        have hready : (s.onBlock (Block.withEnc w h)).blk.inReady = s.blk.inReady := rfl
        rw [stepped_inp hts hq, stepped_inp (s := s.onBlock _) hts hq, hready]
        have hbyte := Block.withEnc_takeByte w h s.blk (x.extractLsb' 0 8)
        have heos := Block.withEnc_takeEos w h s.blk
        split_ifs <;> simp only [State.onBlock, hbyte, heos]
    | .port .pin =>
      cases hq : s.env.pin with
      | nil => rw [stepped_pin_nil hts hq, stepped_pin_nil (s := s.onBlock _) hts hq]; rfl
      | cons x rest =>
        have hready : (s.onBlock (Block.withEnc w h)).blk.pinReady = s.blk.pinReady := rfl
        rw [stepped_pin hts hq, stepped_pin (s := s.onBlock _) hts hq, hready]
        split <;> rfl
    | .port .pout =>
      have hpout : (s.onBlock (Block.withEnc w h)).blk.pout = s.blk.pout := rfl
      rw [stepped_pout hts, stepped_pout (s := s.onBlock _) hts, hpout]
      cases s.blk.pout <;> rfl
    | .port .bout =>
      have hvalid : (s.onBlock (Block.withEnc w h)).blk.boutValid = s.blk.boutValid := rfl
      rw [stepped_bout hts, stepped_bout (s := s.onBlock _) hts, hvalid]
      have htaken := Block.withEnc_boutTaken w h s.blk
      have hoffer : (s.blk.withEnc w h).boutOffer = s.blk.boutOffer := rfl
      split <;> simp only [State.onBlock, htaken, hoffer]

/-- `b'` is `b` with other values in ENC_W and ENC_H: in each the value given, or `b`'s own. -/
def Block.SameButEnc (b b' : Block) : Prop :=
  ∃ w' h', (w' = w ∨ w' = b.encW) ∧ (h' = h ∨ h' = b.encH) ∧ b' = b.withEnc w' h'

theorem Block.sameButEnc_withEnc (b : Block) : b.SameButEnc w h (b.withEnc w h) :=
  ⟨w, h, .inl rfl, .inl rfl, rfl⟩

/-- A register write that is no ENCODE that starts reads neither ENC_W nor ENC_H, and writes at most one of the two (R154). -/
theorem Block.writeReg_withEnc (cfg : Config) {a : Byte} {v : Word} {b : Block}
    (hencode : a = ctrlAddr → cmdOp v = 0x3 → b.phase.busy = true) :
    (b.writeReg cfg a v).SameButEnc w h ((b.withEnc w h).writeReg cfg a v) := by
  unfold Block.writeReg
  split_ifs with halign hctrl
  · rw [Block.withEnc_ctrlWrite w h b cfg (cmdOp v) (hencode hctrl)]
    exact Block.sameButEnc_withEnc w h _
  · exact ⟨v, h, .inr rfl, .inl rfl, rfl⟩
  · exact ⟨w, v, .inl rfl, .inr rfl, rfl⟩
  · exact b.sameButEnc_withEnc w h
  · exact b.sameButEnc_withEnc w h

/-- The step on the bus with a write waiting: the register write, the CTRL dispatch included (R147, R154). -/
theorem stepped_bus_write {ts : List Turn} {a : Byte} {v : Word} {rest : List BusReq}
    (hts : s.env.turns = .port .bus :: ts) (hq : s.env.bus = .write a v :: rest) :
    stepped s = { s with blk := s.blk.writeReg s.cfg a v, env := { s.env with turns := ts, bus := rest } } := by
  have hstep := step_bus hts hq
  rw [step_eq, decodeBus] at hstep
  split at hstep
  · next ha =>
    rw [exec_decodeCmdWord] at hstep
    rw [Host.Outcome.next.inj hstep, ha]
    rfl
  · exact Host.Outcome.next.inj hstep

/-- The step on the bus with a read waiting (R155). -/
theorem stepped_bus_read {ts : List Turn} {a : Byte} {rest : List BusReq}
    (hts : s.env.turns = .port .bus :: ts) (hq : s.env.bus = .read a :: rest) :
    stepped s =
      { s with env := { s.env with turns := ts, bus := rest, readBack := s.env.readBack ++ [s.blk.readReg a] } } :=
  Host.Outcome.next.inj ((step_eq s).symm.trans (step_bus hts hq))

/-- A bus request that is no ENCODE that starts and no read of ENC_W or ENC_H does not depend on the two. -/
theorem stepped_bus_withEnc {ts : List Turn} {r : BusReq} {rest : List BusReq}
    (hts : s.env.turns = .port .bus :: ts) (hq : s.env.bus = r :: rest) (hreadW : r ≠ .read 0x30) (hreadH : r ≠ .read 0x34)
    (hencode : ∀ v, r = .write ctrlAddr v → cmdOp v = 0x3 → s.blk.phase.busy = true) :
    ∃ b', (stepped s).blk.SameButEnc w h b' ∧ stepped (s.onBlock (Block.withEnc w h)) = { stepped s with blk := b' } := by
  cases r with
  | write a v =>
    rw [stepped_bus_write hts hq, stepped_bus_write (s := s.onBlock _) hts hq]
    exact ⟨_, Block.writeReg_withEnc w h s.cfg fun ha => hencode v (ha ▸ rfl), rfl⟩
  | read a =>
    have hvalue : (s.blk.withEnc w h).readReg a = s.blk.readReg a :=
      Block.withEnc_readReg w h s.blk (fun e => hreadW (e ▸ rfl)) (fun e => hreadH (e ▸ rfl))
    rw [stepped_bus_read hts hq, stepped_bus_read (s := s.onBlock _) hts hq]
    exact ⟨_, s.blk.sameButEnc_withEnc w h, by simp only [State.onBlock, hvalue]⟩

/-- A step that is no ENCODE that starts and no read of ENC_W or ENC_H does not depend on the two, but for the value it puts
in them itself (R18). -/
theorem stepped_sameButEnc
    (hbus : s.env.turns.head? = some (.port .bus) →
      s.env.bus.head? ≠ some (.read 0x30) ∧ s.env.bus.head? ≠ some (.read 0x34)
      ∧ ∀ v, s.env.bus.head? = some (.write ctrlAddr v) → cmdOp v = 0x3 → s.blk.phase.busy = true) :
    ∃ b', (stepped s).blk.SameButEnc w h b' ∧ stepped (s.onBlock (Block.withEnc w h)) = { stepped s with blk := b' } := by
  by_cases hport : s.env.turns.head? = some (.port .bus)
  · obtain ⟨hreadW, hreadH, hencode⟩ := hbus hport
    obtain ⟨ts, hts⟩ := List.head?_eq_some_iff.mp hport
    cases hq : s.env.bus with
    | nil =>
      rw [stepped_bus_nil hts hq, stepped_bus_nil (s := s.onBlock _) hts hq]
      exact ⟨_, s.blk.sameButEnc_withEnc w h, rfl⟩
    | cons r rest =>
      simp only [hq, List.head?_cons, ne_eq, Option.some.injEq] at hreadW hreadH hencode
      exact stepped_bus_withEnc w h hts hq hreadW hreadH hencode
  · by_cases hreset : s.env.turns.head? = some .reset
    · obtain ⟨ts, hts⟩ := List.head?_eq_some_iff.mp hreset
      rw [stepped_reset hts, stepped_reset (s := s.onBlock _) hts]
      exact ⟨Block.reset, ⟨_, _, .inr rfl, .inr rfl, rfl⟩, rfl⟩
    · exact ⟨_, (stepped s).blk.sameButEnc_withEnc w h, stepped_withEnc w h hport hreset⟩

end enc

/-- Settles O50: the turns of the block and of the channels by `stepped_withEnc`, every other step by `stepped_sameButEnc`. -/
theorem transfersIgnoreEncodeRegisters : Obligations.TransfersIgnoreEncodeRegisters := by
  intro s t w h hstep
  obtain rfl := Host.Outcome.next.inj ((step_eq s).symm.trans hstep)
  constructor
  · intro hbus hreset
    exact (step_eq _).trans (congrArg _ (stepped_withEnc w h hbus hreset))
  · intro hbus
    obtain ⟨b', ⟨w', h', hw, hh, rfl⟩, e⟩ := stepped_sameButEnc w h hbus
    exact ⟨w', h', hw, hh, (step_eq _).trans (congrArg _ e)⟩

end Sys2Proof.Machine

/-! ## What the channels wait for -/

namespace Sys2Proof.Machine

/-- What an IN transfer waits for (20_memory.md R47). -/
theorem Block.inReady_iff (b : Block) :
    b.inReady = true ↔
      b.phase = .dHdr ∨ b.phase = .dSkip ∨ ((b.phase = .dPix ∨ b.phase = .dPad) ∧ b.rpos = 54 ∧ b.pout = none) := by
  have hrpos : b.rpos = 54 ↔ b.rpos.toNat = 54 := BitVec.toNat_inj.symm
  rw [Block.inReady, hrpos]
  cases b.phase <;> simp

/-- What a PIN transfer waits for. -/
theorem Block.pinReady_iff (b : Block) : b.pinReady = true ↔ b.phase = .ePix ∧ b.en = 0 := by
  simp [Block.pinReady]

/-- When a BOUT byte is offered. -/
theorem Block.boutValid_iff (b : Block) :
    b.boutValid = true ↔ b.phase = .eHdr ∨ b.phase = .ePad ∨ (b.phase = .ePix ∧ b.en ≠ 0) := by
  rw [Block.boutValid]
  cases b.phase <;> simp

/-- A PIN turn on which the block is not ready is used up without effect (43_control.md R156, log 2). -/
theorem stepped_pin_unready {s : State} {ts : List Turn} (ht : s.env.turns = .port .pin :: ts)
    (hr : s.blk.pinReady = false) : stepped s = { s with env := { s.env with turns := ts } } := by
  cases hq : s.env.pin with
  | nil => exact stepped_pin_nil ht hq
  | cons w rest => rw [stepped_pin ht hq, hr]; rfl

/-- A BOUT turn on which the block offers no byte is used up without effect. -/
theorem stepped_bout_unready {s : State} {ts : List Turn} (ht : s.env.turns = .port .bout :: ts)
    (hr : s.blk.boutValid = false) : stepped s = { s with env := { s.env with turns := ts } } := by
  rw [stepped_bout ht, hr]; rfl

end Sys2Proof.Machine

/-! ## An accepted ENCODE ends (O57)

In every encode phase the block offers a byte on BOUT, or waits for a pixel on PIN, which a host with pixels left offers.  So in
each round of such a host the block emits one byte of the file. -/

namespace Sys2Proof.Machine

/-! ### The encoded file's size -/

/-- Lists that all have `c` elements have `c` times as many together. -/
theorem length_flatMap_of_forall {α β : Type} {l : List α} {f : α → List β} {c : Nat} (h : ∀ x ∈ l, (f x).length = c) :
    (l.flatMap f).length = l.length * c := by
  rw [List.length_flatMap, List.map_congr_left h, List.map_const', List.sum_replicate, smul_eq_mul]

/-- A stored row is ROWBYTES long (41_row_aligner.md R113). -/
theorem length_rowBytesOut {w : Nat} {row : List Pixel} (h : row.length = w) :
    (rowBytesOut w row).length = rowBytesOf w := by
  have hpix : (row.flatMap fun p => [p.b, p.g, p.r]).length = row.length * 3 :=
    length_flatMap_of_forall fun _ _ => rfl
  rw [rowBytesOut, List.length_append, hpix, List.length_replicate, h, rowBytesOf, Nat.mul_comm]

/-- A grid of `h` rows of `w` pixels has `h * w` pixels. -/
theorem Grid.hasSize.length_flatten {g : Grid} {w h : Nat} (hs : g.hasSize w h) : g.reverse.flatten.length = h * w := by
  obtain ⟨hrows, hcols⟩ := hs
  have hlen : (g.reverse.flatMap id).length = g.reverse.length * w :=
    length_flatMap_of_forall fun row hrow => hcols row (List.mem_reverse.mp hrow)
  rw [List.flatMap_id, List.length_reverse, hrows] at hlen
  exact hlen

/-- The geometries that `encodeImage` accepts, and the file it then gives (42_encoder.md R144). -/
theorem encodeImage_eq_ok {cfg : Config} {w h : Nat} {g : Grid} {out : List Byte} (hok : encodeImage cfg w h g = .ok out) :
    h ≠ 0 ∧ ¬ (2 ^ 31 ≤ w ∨ 2 ^ 31 ≤ h ∨ 2 ^ 32 ≤ fileSizeOf w h)
      ∧ out = genHeaderBytes cfg w h ++ g.reverse.flatMap (rowBytesOut w) := by
  unfold encodeImage at hok
  split_ifs at hok with h0 hbig
  cases hok
  exact ⟨h0, hbig, rfl⟩

/-- The encoded file is FSIZE long (42_encoder.md R134). -/
theorem length_encodeImage {cfg : Config} {w h : Nat} {g : Grid} {out : List Byte} (hs : g.hasSize w h)
    (hok : encodeImage cfg w h g = .ok out) : out.length = fileSizeOf w h := by
  obtain ⟨hrows, hcols⟩ := hs
  obtain ⟨-, -, rfl⟩ := encodeImage_eq_ok hok
  have hpix : (g.reverse.flatMap (rowBytesOut w)).length = g.reverse.length * rowBytesOf w :=
    length_flatMap_of_forall fun row hrow => length_rowBytesOut (hcols row (List.mem_reverse.mp hrow))
  rw [List.length_append, length_genHeaderBytes, hpix, List.length_reverse, hrows, fileSizeOf, Config.hdrBytes, Nat.mul_comm]

/-! ### The start of an encode run -/

/-- The block right after an ENCODE that is accepted (42_encoder.md R132). -/
theorem Block.acceptEncode_ok (cfg : Config) {b : Block} (h0 : b.encH.toNat ≠ 0)
    (hbig : ¬ (2 ^ 31 ≤ b.encW.toNat ∨ 2 ^ 31 ≤ b.encH.toNat ∨ 2 ^ 32 ≤ fileSizeOf b.encW.toNat b.encH.toNat)) :
    b.acceptEncode cfg = { b.commandStart 0x3 with
      gw := b.encW, gh := b.encH, hdr := genHeader cfg b.encW.toNat b.encH.toNat, hv := true, hpos := 0,
      phase := .eHdr } := by
  rcases b.acceptEncode_cases cfg with ⟨e, -⟩ | ⟨-, e, -⟩ | ⟨-, -, e⟩
  · exact absurd e h0
  · exact absurd e hbig
  · exact e

/-- The three writes of a host that feeds a grid put its geometry into ENC_W and ENC_H and run ENCODE's acceptance. -/
theorem FeedsGrid.ran_start {s : State} {w h : Word} {g : Grid} {ts : List Turn} (hf : FeedsGrid s w h g ts) :
    ∃ rest, ran 3 s =
      { s with
        blk := ({ s.blk with encW := w, encH := h }).acceptEncode s.cfg
        env := { s.env with turns := ts, bus := rest } } := by
  obtain ⟨v, rest, hbus, hop⟩ := hf.command
  refine ⟨rest, ?_⟩
  show stepped (stepped (stepped s)) = _
  rw [stepped_bus_write hf.turns hbus, stepped_bus_write rfl rfl, stepped_bus_write rfl rfl]
  have hctrl : ({ s.blk with encW := w, encH := h } : Block).writeReg s.cfg ctrlAddr v
      = ({ s.blk with encW := w, encH := h } : Block).acceptEncode s.cfg := by
    show Block.ctrlWrite s.cfg (cmdOp v) _ = _
    rw [hop]
    exact Block.whenIdle_idle _ hf.notBusy
  exact congrArg (fun b => { s with blk := b, env := { s.env with turns := ts, bus := rest } }) hctrl

/-! ### What is still to be emitted and to be taken -/

/-- The busy phases of the encode direction. -/
def Phase.encoding (p : Phase) : Prop := p ∈ [Phase.eHdr, .ePix, .ePad]

/-- The pixels an encode run has taken from PIN: those of the stored rows completed, and those of the current row, whose `k`
bytes emitted and `en` bytes still in ebuf are three for each pixel until the padding begins. -/
def Block.pixelsTaken (b : Block) : Nat :=
  if b.phase = .eHdr then 0 else b.j.toNat * b.gw.toNat + min b.gw.toNat ((b.k.toNat + b.en.toNat) / 3)

/-- An encode run that has not ended: the block is in an encode phase, and the host still offers every pixel that is to
come. -/
structure State.Encoding (s : State) : Prop where
  inv : s.blk.Inv
  phase : s.blk.phase.encoding
  pixels : s.blk.gh.toNat * s.blk.gw.toNat ≤ s.blk.pixelsTaken + s.env.pin.length

/-- The run has ended, or it goes on with at most `m` bytes of the file still to be emitted. -/
def State.EncodesWithin (m : Nat) (s : State) : Prop :=
  s.blk.phase = .done ∨ (s.Encoding ∧ s.blk.fileSize ≤ s.blk.pos.toNat + m)

/-- In every encode phase a byte of the file is still to be emitted. -/
theorem Block.Inv.pos_lt_fileSize {b : Block} (h : b.Inv) (hp : b.phase.encoding) : b.pos.toNat < b.fileSize := by
  have hsize : b.fileSize = 54 + b.rowBytes * b.gh.toNat := rfl
  have hrow : 3 * b.gw.toNat ≤ b.rowBytes := Nat.le_add_right _ _
  have hpos := h.position
  simp only [Phase.encoding, List.mem_cons, List.not_mem_nil, or_false] at hp
  rcases hp with e | e | e <;> simp only [Block.positionOk, e] at hpos
  · obtain ⟨hlt, hpos, -⟩ := hpos
    omega
  · obtain ⟨hj, hk, -, -, hpos, -⟩ := hpos
    have := Block.mul_row_le hj
    omega
  · obtain ⟨hj, -, hk, -, hpos, -⟩ := hpos
    have := Block.mul_row_le hj
    omega

/-- The host's take of a byte keeps the geometry. -/
theorem Block.boutTaken_geometry (b : Block) :
    b.boutTaken.gw = b.gw ∧ b.boutTaken.gh = b.gh ∧ b.boutTaken.fileSize = b.fileSize := by
  rw [Block.boutTaken_frame]; exact ⟨rfl, rfl, rfl⟩

/-- Past the header the pixels taken are counted by row and column. -/
theorem Block.pixelsTaken_of_ne {b : Block} (hp : b.phase ≠ .eHdr) :
    b.pixelsTaken = b.j.toNat * b.gw.toNat + min b.gw.toNat ((b.k.toNat + b.en.toNat) / 3) :=
  if_neg hp

/-- The end of a stored row ends the run, or counts at least as many pixels as were taken from the row. -/
theorem Block.eRowEnd_progress {b : Block} (hj : b.j.toNat + 1 < 2 ^ 32) (hp : b.phase ≠ .eHdr) :
    b.eRowEnd.phase = .done ∨ (b.eRowEnd.phase.encoding ∧ b.pixelsTaken ≤ b.eRowEnd.pixelsTaken) := by
  have hj1 : (b.j + 1).toNat = b.j.toNat + 1 := add_one_toNat hj
  rw [Block.pixelsTaken_of_ne hp]
  unfold Block.eRowEnd
  dsimp only
  split
  · exact .inl rfl
  · refine .inr ⟨by simp [Phase.encoding], ?_⟩
    rw [Block.pixelsTaken_of_ne (by simp)]
    dsimp only
    rw [hj1, Nat.add_mul, Nat.one_mul]
    omega

/-- The take of a header byte ends the run or goes on with it. -/
theorem Block.boutTaken_eHdr {b : Block} (hp : b.phase = .eHdr) :
    b.boutTaken.phase = .done ∨ (b.boutTaken.phase.encoding ∧ b.pixelsTaken ≤ b.boutTaken.pixelsTaken) := by
  have htaken : b.pixelsTaken = 0 := if_pos hp
  rw [htaken, Block.boutTaken, hp]
  dsimp only
  split_ifs <;> simp [Phase.encoding]

/-- The take of a pixel byte moves it from ebuf to the row's bytes emitted. -/
theorem Block.Inv.boutTaken_ePix {b : Block} (h : b.Inv) (hp : b.phase = .ePix) (hen : b.en ≠ 0) :
    b.boutTaken.phase = .done ∨ (b.boutTaken.phase.encoding ∧ b.pixelsTaken ≤ b.boutTaken.pixelsTaken) := by
  have hpos := h.position
  have hgw := h.gw_lt
  have hgh := h.gh_lt
  simp only [Block.positionOk, hp] at hpos
  obtain ⟨hj, hk, -⟩ := hpos
  have hen0 : b.en.toNat ≠ 0 := fun c => hen (BitVec.eq_of_toNat_eq c)
  have hk1 : (b.k + 1).toNat = b.k.toNat + 1 := add_one_toNat (by omega)
  have hen1 : (b.en - 1).toNat = b.en.toNat - 1 := by bv_omega
  have hsum : (b.k + 1).toNat + (b.en - 1).toNat = b.k.toNat + b.en.toNat := by omega
  have hkeep : ∀ q, q ≠ Phase.eHdr →
      b.pixelsTaken = Block.pixelsTaken { b with pos := b.pos + 1, k := b.k + 1, en := b.en - 1, phase := q } := by
    intro q hq
    rw [Block.pixelsTaken_of_ne (by simp [hp]), Block.pixelsTaken_of_ne hq, hsum]
  rw [Block.boutTaken, hp]
  dsimp only
  split_ifs
  · exact .inr ⟨by simp [Phase.encoding], (hkeep .ePad (by simp)).le⟩
  · rw [hkeep .ePix (by simp)]
    exact Block.eRowEnd_progress (by dsimp only; omega) (by simp)
  · exact .inr ⟨by simp [Phase.encoding], (hkeep .ePix (by simp)).le⟩

/-- The take of a padding byte takes no pixel. -/
theorem Block.Inv.boutTaken_ePad {b : Block} (h : b.Inv) (hp : b.phase = .ePad) :
    b.boutTaken.phase = .done ∨ (b.boutTaken.phase.encoding ∧ b.pixelsTaken ≤ b.boutTaken.pixelsTaken) := by
  have hpos := h.position
  have hgh := h.gh_lt
  have hrow : b.rowBytes ≤ 3 * 2 ^ 31 := rowBytesOf_le h.gw_lt
  simp only [Block.positionOk, hp] at hpos
  obtain ⟨hj, -, hk, -⟩ := hpos
  have hk1 : (b.k + 1).toNat = b.k.toNat + 1 := add_one_toNat (by omega)
  have hkeep : b.pixelsTaken ≤ Block.pixelsTaken { b with pos := b.pos + 1, k := b.k + 1, phase := .ePad } := by
    rw [Block.pixelsTaken_of_ne (by simp [hp]), Block.pixelsTaken_of_ne (by simp)]
    dsimp only
    omega
  rw [Block.boutTaken, hp]
  dsimp only
  split_ifs
  · exact (Block.eRowEnd_progress (by dsimp only; omega) (by simp)).imp_right (And.imp_right hkeep.trans)
  · exact .inr ⟨by simp [Phase.encoding], hkeep⟩

/-- The host's take of a byte ends the run or leaves at least as many pixels taken as before. -/
theorem Block.Inv.boutTaken_progress {b : Block} (h : b.Inv) (hv : b.boutValid = true) :
    b.boutTaken.phase = .done ∨ (b.boutTaken.phase.encoding ∧ b.pixelsTaken ≤ b.boutTaken.pixelsTaken) := by
  rcases b.boutValid_iff.mp hv with hp | hp | ⟨hp, hen⟩
  · exact Block.boutTaken_eHdr hp
  · exact h.boutTaken_ePad hp
  · exact h.boutTaken_ePix hp hen

/-! ### Progress -/

/-- Once the run has ended, its rounds do not start it again. -/
theorem ran_round_done {s : State} {ts : List Turn} (ht : s.env.turns = .port .pin :: .port .bout :: ts)
    (hp : s.blk.phase = .done) : (ran 2 s).blk.phase = .done ∧ (ran 2 s).env.turns = ts := by
  have hpin : s.blk.pinReady = false := by simp [Block.pinReady, hp]
  have hbout : s.blk.boutValid = false := by simp [Block.boutValid, hp]
  show (stepped (stepped s)).blk.phase = .done ∧ (stepped (stepped s)).env.turns = ts
  rw [stepped_pin_unready ht hpin, stepped_bout_unready rfl]
  · exact ⟨hp, rfl⟩
  · exact hbout

/-- A block that is ready for a pixel has one still to take, and taking it counts it. -/
theorem Block.Inv.takePixel_counts {b : Block} (h : b.Inv) (hr : b.pinReady = true) :
    b.pixelsTaken < b.gh.toNat * b.gw.toNat
    ∧ ∀ r g bl, (b.takePixel r g bl).pixelsTaken = b.pixelsTaken + 1 := by
  obtain ⟨hp, hen⟩ := b.pinReady_iff.mp hr
  have hpos := h.position
  have hen0 : b.en.toNat = 0 := by rw [hen]; rfl
  simp only [Block.positionOk, hp, hen0] at hpos
  obtain ⟨hj, hk, hmod, -⟩ := hpos
  have hrows : (b.j.toNat + 1) * b.gw.toNat ≤ b.gh.toNat * b.gw.toNat := Nat.mul_le_mul_right _ hj
  rw [Nat.add_mul, Nat.one_mul] at hrows
  have hnow : b.pixelsTaken = b.j.toNat * b.gw.toNat + b.k.toNat / 3 := by
    rw [Block.pixelsTaken_of_ne (by simp [hp]), hen0]
    omega
  refine ⟨by omega, fun r g bl => ?_⟩
  have hthen : (b.takePixel r g bl).pixelsTaken = b.j.toNat * b.gw.toNat + min b.gw.toNat ((b.k.toNat + 3) / 3) :=
    Block.pixelsTaken_of_ne (b := b.takePixel r g bl) (by simp [hp])
  omega

/-- After the host's turn on PIN the run goes on and the block offers a byte: it had one to offer, or it has taken a pixel. -/
theorem State.Encoding.pin_turn {s : State} {ts : List Turn} (h : s.Encoding) (ht : s.env.turns = .port .pin :: ts) :
    (stepped s).Encoding ∧ (stepped s).blk.boutValid = true ∧ (stepped s).env.turns = ts
    ∧ (stepped s).blk.fileSize = s.blk.fileSize ∧ (stepped s).blk.pos = s.blk.pos := by
  cases hr : s.blk.pinReady with
  | false =>
    rw [stepped_pin_unready ht hr]
    refine ⟨⟨h.inv, h.phase, h.pixels⟩, ?_, rfl, rfl, rfl⟩
    have hphase := h.phase
    have hready : ¬ (s.blk.phase = .ePix ∧ s.blk.en = 0) := by rw [← Block.pinReady_iff, hr]; simp
    simp only [Phase.encoding, List.mem_cons, List.not_mem_nil, or_false] at hphase
    rw [Block.boutValid_iff]
    tauto
  | true =>
    obtain ⟨hp, -⟩ := s.blk.pinReady_iff.mp hr
    obtain ⟨hlt, hnext⟩ := h.inv.takePixel_counts hr
    have hpixels := h.pixels
    cases hq : s.env.pin with
    | nil => rw [hq, List.length_nil] at hpixels; omega
    | cons w rest =>
      rw [hq, List.length_cons] at hpixels
      rw [stepped_pin ht hq, if_pos hr]
      refine ⟨⟨h.inv.takePixel _ _ _ hr, h.phase, ?_⟩, ?_, rfl, rfl, rfl⟩
      · show s.blk.gh.toNat * s.blk.gw.toNat ≤ (s.blk.takePixel _ _ _).pixelsTaken + rest.length
        rw [hnext]; omega
      · rw [Block.boutValid_iff]
        exact .inr (.inr ⟨hp, show (3 : BitVec 2) ≠ 0 by decide⟩)

/-- The host's take of a byte leaves one byte fewer. -/
theorem State.Encoding.bout_turn {s : State} {m : Nat} {ts : List Turn} (h : s.Encoding)
    (ht : s.env.turns = .port .bout :: ts) (hv : s.blk.boutValid = true) (hm : s.blk.fileSize ≤ s.blk.pos.toNat + (m + 1)) :
    (stepped s).EncodesWithin m ∧ (stepped s).env.turns = ts := by
  have hlt := h.inv.pos_lt
  have hpos : (s.blk.pos + 1).toNat = s.blk.pos.toNat + 1 := add_one_toNat (by omega)
  obtain ⟨hgw, hgh, hsize⟩ := s.blk.boutTaken_geometry
  rw [stepped_bout ht, if_pos hv]
  refine ⟨(h.inv.boutTaken_progress hv).imp_right fun ⟨hp, hle⟩ => ⟨⟨h.inv.boutTaken hv, hp, ?_⟩, ?_⟩, rfl⟩
  · show s.blk.boutTaken.gh.toNat * s.blk.boutTaken.gw.toNat ≤ s.blk.boutTaken.pixelsTaken + s.env.pin.length
    rw [hgw, hgh]
    exact h.pixels.trans (Nat.add_le_add_right hle _)
  · show s.blk.boutTaken.fileSize ≤ s.blk.boutTaken.pos.toNat + m
    rw [hsize, Block.boutTaken_pos hv, hpos]
    omega

/-- Each round emits a byte of the file, until the run has ended. -/
theorem State.EncodesWithin.round {s : State} {m : Nat} {ts : List Turn} (h : s.EncodesWithin (m + 1))
    (ht : s.env.turns = .port .pin :: .port .bout :: ts) :
    (ran 2 s).EncodesWithin m ∧ (ran 2 s).env.turns = ts := by
  rcases h with hdone | ⟨henc, hm⟩
  · exact (ran_round_done ht hdone).imp_left .inl
  · obtain ⟨hnext, hv, hturns, hsize, hpos⟩ := henc.pin_turn ht
    exact hnext.bout_turn hturns hv (by rw [hsize, hpos]; exact hm)

/-- As many rounds as there are bytes still to be emitted end the run. -/
theorem State.EncodesWithin.rounds_end {n : Nat} {s : State} (h : s.EncodesWithin n)
    (ht : s.env.turns = encodeRounds n) : (ran (encodeRounds n).length s).blk.phase = .done := by
  induction n generalizing s with
  | zero =>
    refine h.resolve_right fun ⟨henc, hm⟩ => ?_
    have := henc.inv.pos_lt_fileSize henc.phase
    omega
  | succ n ih =>
    have hround : encodeRounds (n + 1) = [.port .pin, .port .bout] ++ encodeRounds n := rfl
    rw [hround] at ht
    obtain ⟨hnext, hturns⟩ := h.round ht
    rw [hround, List.length_append, ran_add]
    exact ih hnext hturns

/-- The three writes that start an ENCODE whose geometry is accepted leave a run with the whole file to emit. -/
theorem FeedsGrid.encodesWithin {s : State} {w h : Word} {g : Grid} {ts : List Turn} {out : List Byte}
    (hf : FeedsGrid s w h g ts) (hok : encodeImage s.cfg w.toNat h.toNat g = .ok out) :
    (ran 3 s).EncodesWithin out.length ∧ (ran 3 s).env.turns = ts := by
  obtain ⟨h0, hbig, -⟩ := encodeImage_eq_ok hok
  obtain ⟨ws, rest, hpin, hpixels⟩ := hf.pixels
  obtain ⟨bus, hs⟩ := hf.ran_start
  have hinv := Block.Inv.acceptEncode s.cfg { s.blk with encW := w, encH := h }
  have hblk := Block.acceptEncode_ok s.cfg (b := { s.blk with encW := w, encH := h }) h0 hbig
  have hws : ws.length = h.toNat * w.toNat := by
    rw [← hf.size.length_flatten, ← hpixels, List.length_map]
  rw [hblk] at hinv
  rw [hs, hblk, length_encodeImage hf.size hok]
  refine ⟨.inr ⟨⟨hinv, by simp [Phase.encoding], ?_⟩, by simp [Block.fileSize]⟩, rfl⟩
  simp [Block.pixelsTaken, hpin, hws]

/-- Settles O57: the three writes leave a run with as many bytes to emit as the file has, and each round emits one. -/
theorem encodeEnds : Obligations.EncodeEnds := by
  intro s w h g n out hf hok hn
  obtain ⟨hwork, hturns⟩ := hf.encodesWithin hok
  have hround : (ran 3 s).EncodesWithin n := hwork.imp_right fun ⟨henc, hm⟩ => ⟨henc, by omega⟩
  refine ⟨ran ((encodeRounds n).length + 3) s, run_eq _ s, ?_⟩
  rw [Nat.add_comm, ran_add]
  exact hround.rounds_end hturns

end Sys2Proof.Machine

/-! ## A hold is lifted only by what the phase waits for (O44) -/

namespace Sys2Proof.Machine

/-- Settles O44: each step effect but the same block has its turn and its enabling condition, and the readiness of a channel
says what the phase waits for. -/
theorem holdLiftedOnlyBy : Obligations.HoldLiftedOnlyBy := by
  intro s t hinv hstep hne
  have heff := (step_effect hstep).1
  generalize s.env.turns.head? = u at heff ⊢
  generalize t.blk = b' at heff hne
  generalize s.blk = b at *
  cases heff with
  | same => exact absurd rfl hne
  | reset => simp
  | bus => simp
  | replay _ hu hr =>
    obtain ⟨hp, hlt, hpo⟩ := b.replayReady_iff.mp hr
    simp [hp, hlt, hpo, hu.symm]
  | byte _ hr | eos hr =>
    rcases b.inReady_iff.mp hr with hp | hp | ⟨hp, hrpos, hpo⟩
    · simp [hp]
    · simp [hp]
    · simp [hp, hrpos, hpo]
  | pixel _ _ _ hr =>
    obtain ⟨hp, hen⟩ := b.pinReady_iff.mp hr
    simp [hp, hen]
  | pout p hp =>
    have hsome : b.pout.isSome = true := by rw [hp]; rfl
    rcases hinv.pout_phase hsome with e | e | e <;> simp [e, hp]
  | bout hv =>
    rcases b.boutValid_iff.mp hv with hp | hp | ⟨hp, hen⟩
    · simp [hp]
    · simp [hp]
    · simpa [hp] using hen

end Sys2Proof.Machine

/-! ## No channel loses, repeats or reorders a word (O51) -/

namespace Sys2Proof.Machine

/-- The block's own step leaves the host alone. -/
theorem internalStep_env (s : State) : s.internalStep.env = s.env := by
  unfold State.internalStep; split <;> rfl

/-- A request on the bus leaves the channels alone. -/
theorem stepped_bus_env {s : State} {ts : List Turn} (ht : s.env.turns = .port .bus :: ts) :
    ∃ bus readBack, (stepped s).env = { s.env with turns := ts, bus := bus, readBack := readBack } := by
  cases hq : s.env.bus with
  | nil => rw [stepped_bus_nil ht hq]; exact ⟨_, _, rfl⟩
  | cons r rest =>
    cases r with
    | write a v => rw [stepped_bus_write ht hq]; exact ⟨_, _, rfl⟩
    | read a => rw [stepped_bus_read ht hq]; exact ⟨_, _, rfl⟩

/-- Each channel's words change on the channel's own turn alone. -/
theorem stepped_channels (s : State) :
    (s.env.turns.head? ≠ some (.port .inp) → (stepped s).env.inp = s.env.inp)
    ∧ (s.env.turns.head? ≠ some (.port .pin) → (stepped s).env.pin = s.env.pin)
    ∧ (s.env.turns.head? ≠ some (.port .pout) → (stepped s).env.pixelsOut = s.env.pixelsOut)
    ∧ (s.env.turns.head? ≠ some (.port .bout) → (stepped s).env.bytesOut = s.env.bytesOut) := by
  cases hts : s.env.turns with
  | nil => rw [stepped_nil hts, internalStep_env]; simp
  | cons u ts =>
    match u with
    | .reset => rw [stepped_reset hts]; simp
    | .block => rw [stepped_block hts, internalStep_env]; simp
    | .port .bus =>
      obtain ⟨bus, readBack, he⟩ := stepped_bus_env hts
      rw [he]; simp
    | .port .inp =>
      cases hq : s.env.inp with
      | nil => rw [stepped_inp_nil hts hq]; simp
      | cons w rest => rw [stepped_inp hts hq]; split <;> simp
    | .port .pin =>
      cases hq : s.env.pin with
      | nil => rw [stepped_pin_nil hts hq]; simp
      | cons w rest => rw [stepped_pin hts hq]; split <;> simp
    | .port .pout => rw [stepped_pout hts]; split <;> simp
    | .port .bout => rw [stepped_bout hts]; split <;> simp

/-- On IN the word at the head of the queue is taken, or the queue and the block stay. -/
theorem stepped_inp_turn {s : State} (hu : s.env.turns.head? = some (.port .inp)) :
    (s.blk.inReady = true ∧ ∃ w, s.env.inp = w :: (stepped s).env.inp
      ∧ (stepped s).blk = if w.getLsbD 8 then s.blk.takeEos else s.blk.takeByte (w.extractLsb' 0 8))
    ∨ ((stepped s).env.inp = s.env.inp ∧ ¬ (s.blk.inReady = true ∧ s.env.inp ≠ []) ∧ (stepped s).blk = s.blk) := by
  obtain ⟨ts, hts⟩ := List.head?_eq_some_iff.mp hu
  cases hq : s.env.inp with
  | nil => rw [stepped_inp_nil hts hq]; exact .inr ⟨hq, by simp, rfl⟩
  | cons w rest =>
    rw [stepped_inp hts hq]
    split
    · exact .inl ⟨‹_›, w, rfl, rfl⟩
    · exact .inr ⟨hq, fun h => absurd h.1 ‹_›, rfl⟩

/-- On PIN the word at the head of the queue is taken, or the queue and the block stay. -/
theorem stepped_pin_turn {s : State} (hu : s.env.turns.head? = some (.port .pin)) :
    (s.blk.pinReady = true ∧ ∃ w, s.env.pin = w :: (stepped s).env.pin
      ∧ (stepped s).blk = s.blk.takePixel (w.extractLsb' 0 8) (w.extractLsb' 8 8) (w.extractLsb' 16 8))
    ∨ ((stepped s).env.pin = s.env.pin ∧ ¬ (s.blk.pinReady = true ∧ s.env.pin ≠ []) ∧ (stepped s).blk = s.blk) := by
  obtain ⟨ts, hts⟩ := List.head?_eq_some_iff.mp hu
  cases hq : s.env.pin with
  | nil => rw [stepped_pin_nil hts hq]; exact .inr ⟨hq, by simp, rfl⟩
  | cons w rest =>
    rw [stepped_pin hts hq]
    split
    · exact .inl ⟨‹_›, w, rfl, rfl⟩
    · exact .inr ⟨hq, fun h => absurd h.1 ‹_›, rfl⟩

/-- On POUT the host receives the word offered, or the words received and the block stay. -/
theorem stepped_pout_turn {s : State} (hu : s.env.turns.head? = some (.port .pout)) :
    (∃ p, s.blk.pout = some p ∧ (stepped s).env.pixelsOut = s.env.pixelsOut ++ [p.pack]
      ∧ (stepped s).blk = s.blk.poutTaken)
    ∨ ((stepped s).env.pixelsOut = s.env.pixelsOut ∧ s.blk.pout = none ∧ (stepped s).blk = s.blk) := by
  obtain ⟨ts, hts⟩ := List.head?_eq_some_iff.mp hu
  rw [stepped_pout hts]
  cases hp : s.blk.pout with
  | some p => exact .inl ⟨p, rfl, rfl, rfl⟩
  | none => exact .inr ⟨rfl, rfl, rfl⟩

/-- On BOUT the host receives the byte offered, or the bytes received and the block stay. -/
theorem stepped_bout_turn {s : State} (hu : s.env.turns.head? = some (.port .bout)) :
    (s.blk.boutValid = true ∧ (stepped s).env.bytesOut = s.env.bytesOut ++ [s.blk.boutOffer]
      ∧ (stepped s).blk = s.blk.boutTaken)
    ∨ ((stepped s).env.bytesOut = s.env.bytesOut ∧ s.blk.boutValid = false ∧ (stepped s).blk = s.blk) := by
  obtain ⟨ts, hts⟩ := List.head?_eq_some_iff.mp hu
  rw [stepped_bout hts]
  cases hv : s.blk.boutValid with
  | true => exact .inl ⟨rfl, rfl, rfl⟩
  | false => exact .inr ⟨rfl, rfl, rfl⟩

/-- The step withdraws what the block offers: it is a reset, or an ABORT on the bus (43_control.md R151). -/
def State.withdraws (s : State) : Prop :=
  s.env.turns.head? = some .reset
  ∨ (s.env.turns.head? = some (.port .bus)
    ∧ ∃ v, s.env.bus.head? = some (.write ctrlAddr v) ∧ cmdOp v = 0xF)

/-- While busy, a turn of the bus that is no ABORT changes nothing of the block but IGN, ENC_W and ENC_H. -/
theorem stepped_bus_turn_busy {s : State} (hu : s.env.turns.head? = some (.port .bus)) (hbusy : s.blk.phase.busy = true)
    (hw : ¬ s.withdraws) : ∃ ign encW encH, (stepped s).blk = { s.blk with ign := ign, encW := encW, encH := encH } := by
  obtain ⟨ts, hts⟩ := List.head?_eq_some_iff.mp hu
  cases hq : s.env.bus with
  | nil => rw [stepped_bus_nil hts hq]; exact ⟨_, _, _, rfl⟩
  | cons r rest =>
    refine stepped_bus_busy hts hq hbusy fun v hr hop => hw (.inr ⟨hu, v, ?_, hop⟩)
    rw [hq, hr]; rfl

/-- A block that offers a pixel is busy, and neither replays nor takes an IN word. -/
theorem Block.Inv.pout_excludes {b : Block} (h : b.Inv) {p : PoutWord} (hp : b.pout = some p) :
    b.phase.busy = true ∧ b.replayReady = false ∧ b.inReady = false := by
  have hphase := h.pout_phase (by rw [hp]; rfl)
  rcases hphase with e | e | e <;> simp [Phase.busy, Block.replayReady, Block.inReady, e, hp]

/-- A block that offers a byte is busy, neither replays nor takes a word, and offers no pixel. -/
theorem Block.Inv.boutValid_excludes {b : Block} (h : b.Inv) (hv : b.boutValid = true) :
    b.phase.busy = true ∧ b.replayReady = false ∧ b.inReady = false ∧ b.pinReady = false ∧ b.pout = none := by
  have hpout : b.pout = none := by
    by_contra hne
    have hphase := h.pout_phase (Option.isSome_iff_ne_none.mpr hne)
    rw [Block.boutValid_iff] at hv
    rcases hphase with e | e | e <;> simp [e] at hv
  rcases b.boutValid_iff.mp hv with e | e | ⟨e, hen⟩
  · simp [Phase.busy, Block.replayReady, Block.inReady, Block.pinReady, e, hpout]
  · simp [Phase.busy, Block.replayReady, Block.inReady, Block.pinReady, e, hpout]
  · simpa [Phase.busy, Block.replayReady, Block.inReady, Block.pinReady, e, hpout] using hen

/-- A word in POUT stays until the host's turn on POUT, unless it is withdrawn. -/
theorem pout_stays {s : State} (hinv : s.blk.Inv) {p : PoutWord} (hp : s.blk.pout = some p) :
    (stepped s).blk.pout = some p ∨ s.env.turns.head? = some (.port .pout) ∨ s.withdraws := by
  obtain ⟨hbusy, hreplay, hin⟩ := hinv.pout_excludes hp
  by_cases hw : s.withdraws
  · exact .inr (.inr hw)
  have heff := (step_effect (step_eq s)).1
  have hbus := fun hu => stepped_bus_turn_busy hu hbusy hw
  generalize hu : s.env.turns.head? = u at heff hbus ⊢
  generalize (stepped s).blk = b' at heff hbus ⊢
  cases heff with
  | same => exact .inl hp
  | reset => exact absurd (.inl hu) hw
  | bus => obtain ⟨_, _, _, e⟩ := hbus rfl; rw [e]; exact .inl hp
  | replay _ _ hr => rw [hreplay] at hr; cases hr
  | byte _ hr | eos hr => rw [hin] at hr; cases hr
  | pixel => exact .inl hp
  | pout => exact .inr (.inl rfl)
  | bout => rw [Block.boutTaken_frame]; exact .inl hp

/-- A byte offered on BOUT stays until the host's turn on BOUT, unless it is withdrawn. -/
theorem boutOffer_stays {s : State} (hinv : s.blk.Inv) (hv : s.blk.boutValid = true) :
    ((stepped s).blk.boutValid = true ∧ (stepped s).blk.boutOffer = s.blk.boutOffer)
    ∨ s.env.turns.head? = some (.port .bout) ∨ s.withdraws := by
  obtain ⟨hbusy, hreplay, hin, hpin, hpout⟩ := hinv.boutValid_excludes hv
  by_cases hw : s.withdraws
  · exact .inr (.inr hw)
  have heff := (step_effect (step_eq s)).1
  have hbus := fun hu => stepped_bus_turn_busy hu hbusy hw
  generalize hu : s.env.turns.head? = u at heff hbus ⊢
  generalize (stepped s).blk = b' at heff hbus ⊢
  cases heff with
  | same => exact .inl ⟨hv, rfl⟩
  | reset => exact absurd (.inl hu) hw
  | bus => obtain ⟨_, _, _, e⟩ := hbus rfl; rw [e]; exact .inl ⟨hv, rfl⟩
  | replay _ _ hr => rw [hreplay] at hr; cases hr
  | byte _ hr | eos hr => rw [hin] at hr; cases hr
  | pixel _ _ _ hr => rw [hpin] at hr; cases hr
  | pout p hp => rw [hpout] at hp; cases hp
  | bout => exact .inr (.inl rfl)

/-- Settles O51: what each channel does on its own turn, that it changes on no other, and that an offer stays. -/
theorem channelsLoseNothing : Obligations.ChannelsLoseNothing := by
  intro s t hinv hstep
  obtain rfl := Host.Outcome.next.inj ((step_eq s).symm.trans hstep)
  obtain ⟨hinp, hpin, hpout, hbout⟩ := stepped_channels s
  refine ⟨?_, ?_, ?_, ?_, fun p hp => pout_stays hinv hp, fun hv => boutOffer_stays hinv hv⟩
  · by_cases hu : s.env.turns.head? = some (.port .inp)
    · refine (stepped_inp_turn hu).imp ?_ fun ⟨hq, hno, hb⟩ => ⟨hq, fun h => hno h.2, fun _ => hb⟩
      rintro ⟨hr, w, hq, hb⟩
      refine ⟨hu, hr, w, hq, fun hbyte => ?_, fun heos => ?_⟩
      · rw [if_neg (Bool.eq_false_iff.mp hbyte)] at hb
        exact ⟨hb, hb ▸ Block.takeByte_pos _ hr⟩
      · rw [if_pos heos] at hb
        exact ⟨hb, hb ▸ Block.takeEos_error hr⟩
    · exact .inr ⟨hinp hu, fun h => hu h.1, fun h => absurd h hu⟩
  · by_cases hu : s.env.turns.head? = some (.port .pin)
    · exact (stepped_pin_turn hu).imp (fun ⟨hr, w, hq, hb⟩ => ⟨hu, hr, w, hq, hb⟩)
        fun ⟨hq, hno, hb⟩ => ⟨hq, fun h => hno h.2, fun _ => hb⟩
    · exact .inr ⟨hpin hu, fun h => hu h.1, fun h => absurd h hu⟩
  · by_cases hu : s.env.turns.head? = some (.port .pout)
    · exact (stepped_pout_turn hu).imp (fun ⟨p, hp, hq, hb⟩ => ⟨hu, hb ▸ rfl, p, hp, hq⟩)
        fun ⟨hq, hp, hb⟩ => ⟨hq, fun h => by simp [hp] at h, fun _ => hb⟩
    · exact .inr ⟨hpout hu, fun h => hu h.1, fun h => absurd h hu⟩
  · by_cases hu : s.env.turns.head? = some (.port .bout)
    · exact (stepped_bout_turn hu).imp (fun ⟨hv, hq, hb⟩ => ⟨hu, hv, hq, hb, hb ▸ Block.boutTaken_pos hv⟩)
        fun ⟨hq, hv, hb⟩ => ⟨hq, fun h => by simp [hv] at h, fun _ => hb⟩
    · exact .inr ⟨hbout hu, fun h => hu h.1, fun h => absurd h hu⟩

end Sys2Proof.Machine

/-! ## A transfer the block is not ready for does not happen (O33) -/

namespace Sys2Proof.Machine

/-- Settles O33: the meaning of each transfer answers the same state where its readiness test fails. -/
theorem unreadyTransferDoesNotHappen : Obligations.UnreadyTransferDoesNotHappen := by
  intro s x bl g r
  refine ⟨fun hr => ⟨?_, ?_⟩, fun hr => ?_, fun hp => ?_, fun hv => ?_⟩
  · rw [exec, execInByte, hr]; rfl
  · rw [exec, execInEos, hr]; rfl
  · rw [exec, execPin, hr]; rfl
  · rw [exec, execPoutTake, hp]
  · rw [exec, execBoutTake, hv]; rfl

end Sys2Proof.Machine

/-! ## A step runs the decoded instruction (O40) -/

namespace Sys2Proof.Machine

/-- A turn of an interface on which the host presents a word runs the word's instruction. -/
theorem step_of_presented {s s' : State} {p : Port} {ts : List Turn} {w : Wire} (ht : s.env.turns = .port p :: ts)
    (hp : State.presented p { s with env := { s.env with turns := ts } } = some (w, s')) :
    step s = exec (decode w) s' := by
  simp only [step, ht, hp]

/-- Settles O40: the bus by `step_bus`, the other interfaces by what the host presents on each. -/
theorem stepRunsPresentedInstruction : Obligations.StepRunsPresentedInstruction := by
  intro s ts
  refine ⟨fun r rest ht hq => step_bus ht hq, fun w rest ht hq => ?_, fun w rest ht hq => ?_,
    fun ht => step_of_presented ht rfl, fun ht => step_of_presented ht rfl⟩
  · exact step_of_presented ht (by simp only [State.presented, hq])
  · exact step_of_presented ht (by simp only [State.presented, hq])

end Sys2Proof.Machine

/-! ## Register reads (O15) -/

namespace Sys2Proof.Machine

/-- A register read gives the host the value read and changes nothing else (43_control.md R155). -/
theorem exec_regRd {s : State} {a : Byte} {v : Word} (hv : s.blk.readReg a = v) :
    exec (.regRd a) s = .next { s with env := { s.env with readBack := s.env.readBack ++ [v] } } := by
  rw [← hv]; rfl

/-- VROW: the grid row of the row in progress, in the phases that have one (20_memory.md R50). -/
theorem Block.vrow_eq (b : Block) :
    b.vrow = if b.phase ∈ [Phase.dSkip, .dPix, .dPad, .ePix, .ePad] ∧ b.j.toNat < b.gh.toNat then b.gh - 1 - b.j else 0 := by
  unfold Block.vrow
  cases b.phase <;> simp

/-- Settles O15: the register map, one register after another. -/
theorem registerReadReturnsValue : Obligations.RegisterReadReturnsValue := by
  intro s p hp
  refine exec_regRd ?_
  revert p
  simp only [List.cons_append, List.nil_append, List.forall_mem_cons, List.not_mem_nil, IsEmpty.forall_iff, implies_true,
    and_true, ← Block.vrow_eq]
  repeat' apply And.intro
  all_goals rfl

end Sys2Proof.Machine

/-! ## Reserved and misaligned accesses (O16) -/

namespace Sys2Proof.Machine

/-- An address is aligned when it is a multiple of 4 (20_memory.md R52). -/
theorem aligned_iff (a : Byte) : aligned a = true ↔ a.toNat % 4 = 0 := by
  have h : (a.extractLsb' 0 2).toNat = a.toNat % 4 := by simp
  rw [aligned, beq_iff_eq, ← BitVec.toNat_inj, h]; rfl

/-- A reserved address reads 0 (20_memory.md R51). -/
theorem Block.regAt_reserved (b : Block) {a : Byte} (ha : a = 0x38 ∨ a = 0x3C ∨ 0x7C ≤ a.toNat) : b.regAt a = 0 := by
  rcases ha with rfl | rfl | ha
  · rfl
  · rfl
  · unfold Block.regAt
    split
    rotate_right
    · rfl
    all_goals omega

/-- A misaligned write is ignored (20_memory.md R52). -/
theorem Block.writeReg_misaligned (cfg : Config) {a : Byte} (v : Word) (b : Block) (h : aligned a = false) :
    b.writeReg cfg a v = b := by
  simp [Block.writeReg, h]

/-- A write to an address other than CTRL, ENC_W and ENC_H is ignored (43_control.md R154). -/
theorem Block.writeReg_of_ne (cfg : Config) {a : Byte} (v : Word) (b : Block) (hctrl : a ≠ ctrlAddr) (hw : a ≠ 0x30)
    (hh : a ≠ 0x34) : b.writeReg cfg a v = b := by
  unfold Block.writeReg
  rw [if_neg hctrl, if_neg hw, if_neg hh, ite_self]

/-- A register write that changes no element of the block changes nothing. -/
theorem exec_regWr_same {s : State} {a : Byte} {v : Word} (h : s.blk.writeReg s.cfg a v = s.blk) :
    exec (.regWr a v) s = .next s := by
  rw [exec, execRegWr, State.onBlock, h]

/-- No reserved address is CTRL, ENC_W or ENC_H. -/
theorem reserved_ne {a : Byte} (ha : a = 0x38 ∨ a = 0x3C ∨ 0x7C ≤ a.toNat) : a ≠ ctrlAddr ∧ a ≠ 0x30 ∧ a ≠ 0x34 := by
  refine ⟨?_, ?_, ?_⟩ <;> rintro rfl <;> revert ha <;> decide

/-- Settles O16: an address that is not misaligned is reserved, and reads and writes of both kinds have lemmas of their own. -/
theorem reservedAndMisalignedAccesses : Obligations.ReservedAndMisalignedAccesses := by
  intro s a v ha
  cases hal : aligned a with
  | false =>
    exact ⟨exec_regRd (s.blk.readReg_misaligned hal), exec_regWr_same (s.blk.writeReg_misaligned s.cfg v hal)⟩
  | true =>
    have hres : a = 0x38 ∨ a = 0x3C ∨ 0x7C ≤ a.toNat := ha.resolve_left fun h => h ((aligned_iff a).mp hal)
    obtain ⟨hctrl, hw, hh⟩ := reserved_ne hres
    exact ⟨exec_regRd ((s.blk.readReg_aligned hal).trans (s.blk.regAt_reserved hres)),
      exec_regWr_same (s.blk.writeReg_of_ne s.cfg v hctrl hw hh)⟩

end Sys2Proof.Machine

/-! ## The header fields tile the buffer (O7) -/

namespace Sys2Proof.Machine

/-- `n` bytes of the header buffer from index `i` on. -/
def hdrBytesAt (h : Vector Byte 54) (i n : Nat) : List Byte := (List.range' i n).map (hdrAt h)

/-- A two-byte field gives its two bytes back. -/
theorem leBytes_u16le (h : Vector Byte 54) (i : Nat) : leBytes 2 (u16le h i) = hdrBytesAt h i 2 := by
  rw [u16le_eq_leNat]; exact leBytes_leNat _

/-- A four-byte field gives its four bytes back. -/
theorem leBytes_u32le (h : Vector Byte 54) (i : Nat) : leBytes 4 (u32le h i) = hdrBytesAt h i 4 := by
  rw [u32le_eq_leNat]; exact leBytes_leNat _

/-- Adjacent fields are one field. -/
theorem hdrBytesAt_append (h : Vector Byte 54) (i m n : Nat) :
    hdrBytesAt h i m ++ hdrBytesAt h (i + m) n = hdrBytesAt h i (m + n) := by
  rw [hdrBytesAt, hdrBytesAt, ← List.map_append, List.range'_append_1]; rfl

/-- The whole buffer is its 54 bytes from index 0. -/
theorem toList_eq_hdrBytesAt (h : Vector Byte 54) : h.toList = hdrBytesAt h 0 54 := by
  refine List.ext_getElem (by simp [hdrBytesAt]) fun i hi _ => ?_
  have hi' : i < 54 := by simpa using hi
  simp [hdrBytesAt, hdrAt_of_lt h hi']

/-- Settles O7: each field gives its own bytes back, and each begins where the one before it ends. -/
theorem headerFieldsTileBuffer : Obligations.HeaderFieldsTileBuffer := by
  intro h
  simp only [hdrSig, hdrFsize, hdrRsvd, hdrOffset, hdrIhsize, hdrPlanes, hdrBpp, hdrCompr, hdrImgsize, hdrXres, hdrYres,
    hdrClrused, hdrClrimp, leBytes_u16le, leBytes_u32le]
  rw [toList_eq_hdrBytesAt]
  iterate 14 rw [hdrBytesAt_append]

end Sys2Proof.Machine

/-! ## Decoding a command (O4)

`commandRow` is the opcode table's sixteen CMD rows by opcode (30_encoding.md R79, R80).  The decoder reads a CTRL write
through it and the encoder undoes it, so no later proof looks at the sixteen rows again. -/

namespace Sys2Proof

/-- The command an opcode and the 28 ignored bits are (30_encoding.md R79). -/
def commandRow (op : BitVec 4) (x : BitVec 28) : Instr :=
  match op.toNat with
  | 0x0 => .nop x
  | 0x1 => .parse x
  | 0x2 => .decodeCmd x
  | 0x3 => .encodeCmd x
  | 0x4 => .rsvd4 x
  | 0x5 => .rsvd5 x
  | 0x6 => .rsvd6 x
  | 0x7 => .rsvd7 x
  | 0x8 => .rsvd8 x
  | 0x9 => .rsvd9 x
  | 0xA => .rsvdA x
  | 0xB => .rsvdB x
  | 0xC => .rsvdC x
  | 0xD => .rsvdD x
  | 0xE => .rsvdE x
  | _ => .abort x

/-- A value written to CTRL is the command of its low four bits (30_encoding.md R71, R79). -/
theorem decode_ctrlWrite (v : Word) : decode (.bus (.write ctrlAddr v)) = commandRow (cmdOp v) (cmdIgnored v) := rfl

/-- Masking the low four bits of a CMD word gives its opcode. -/
theorem cmdOp_of_and {v k : Word} (h : v &&& 0xF = k) : cmdOp v = k.setWidth 4 := by
  subst h
  have h4 : (v &&& 0xF).toNat = v.toNat % 2 ^ 4 := Nat.and_two_pow_sub_one_eq_mod v.toNat 4
  apply BitVec.eq_of_toNat_eq
  rw [BitVec.toNat_setWidth, h4]
  simp [cmdOp]

/-- The masked value names the row of the opcode table. -/
theorem decode_ctrlWrite_of_and {v k : Word} (h : v &&& 0xF = k) :
    decode (.bus (.write 0x00 v)) = commandRow (k.setWidth 4) (cmdIgnored v) :=
  cmdOp_of_and h ▸ decode_ctrlWrite v

/-- Settles O4: each clause is the table's row of its opcode, with the 28 ignored bits of the value. -/
theorem commandOpcodeSelectsRow : Obligations.CommandOpcodeSelectsRow := by
  intro v
  refine ⟨cmdIgnored v, ?_⟩
  repeat' apply And.intro
  all_goals exact decode_ctrlWrite_of_and

end Sys2Proof

/-! ## Decode of encode (O1) -/

namespace Sys2Proof

/-- The CMD word of an opcode and its ignored bits decodes to the command of that opcode. -/
theorem decode_encodeCmdWord (x : BitVec 28) (op : BitVec 4) : decode (encodeCmdWord x op) = commandRow op x := by
  rw [encodeCmdWord, decode_ctrlWrite, cmdOp_append, cmdIgnored_append]

/-- A write to another address than CTRL is REG.WR (43_control.md R154). -/
theorem decode_regWrite {a : Byte} (v : Word) (ha : a ≠ ctrlAddr) : decode (.bus (.write a v)) = .regWr a v := if_neg ha

/-- The PIN word of four bytes decodes to them (30_encoding.md R77). -/
theorem decodePin_bytes (x b g r : Byte) : decodePin (x ++ b ++ g ++ r) = .pin x b g r := by
  obtain ⟨hx, hb, hg, hr⟩ := pin_fields x b g r
  rw [decodePin, hx, hb, hg, hr]

/-- Settles O1, row by row: a command by its opcode, a register write by its address, a channel word by its fields. -/
theorem decodeOfEncode : Obligations.DecodeOfEncode := by
  intro i hi
  cases i
  case regWr a v => exact decode_regWrite v (by simpa [Instr.wellFormed] using hi)
  case regRd a => rfl
  case inByte d => exact decodeIn_byte d
  case inEos d => exact decodeIn_eos d
  case pin x b g r => exact decodePin_bytes x b g r
  case poutTake => rfl
  case boutTake => rfl
  all_goals exact decode_encodeCmdWord _ _

end Sys2Proof

/-! ## Encode of decode (O2) -/

namespace Sys2Proof

/-- The host word is the word of a well-formed instruction, its decoding (30_encoding.md R82). -/
def RoundTrips (w : Wire) : Prop := (decode w).wellFormed = true ∧ encode (decode w) = w

/-- Every command of the table is well formed and is encoded with its opcode. -/
theorem commandRow_spec (op : BitVec 4) (x : BitVec 28) :
    (commandRow op x).wellFormed = true ∧ encode (commandRow op x) = encodeCmdWord x op := by
  obtain ⟨n, hn⟩ := op
  interval_cases n <;> exact ⟨rfl, rfl⟩

/-- A bus request is the word of its decoding: a CTRL write by its two fields, any other request as it stands. -/
theorem roundTrips_bus (r : BusReq) : RoundTrips (.bus r) := by
  cases r with
  | read a => exact ⟨rfl, rfl⟩
  | write a v =>
    by_cases ha : a = ctrlAddr
    · subst ha
      obtain ⟨hwf, henc⟩ := commandRow_spec (cmdOp v) (cmdIgnored v)
      rw [RoundTrips, decode_ctrlWrite, henc, encodeCmdWord, cmd_split]
      exact ⟨hwf, rfl⟩
    · rw [RoundTrips, decode_regWrite v ha]
      exact ⟨by simpa [Instr.wellFormed] using ha, rfl⟩

/-- An IN word is its EOS bit and its DATA byte (30_encoding.md R75). -/
theorem in_split (w : BitVec 9) : BitVec.ofBool (w.getLsbD 8) ++ w.extractLsb' 0 8 = w := by
  ext i hi
  rw [BitVec.getElem_append]
  split
  · simp [BitVec.getLsbD_eq_getElem hi]
  · obtain rfl : i = 8 := by omega
    simp

/-- An IN word is the word of its decoding. -/
theorem roundTrips_inWord (w : BitVec 9) : RoundTrips (.inWord w) := by
  have hsplit := in_split w
  cases heos : w.getLsbD 8 <;> rw [heos] at hsplit
  · have hdec : decode (.inWord w) = .inByte (w.extractLsb' 0 8) := if_neg (Bool.eq_false_iff.mp heos)
    rw [RoundTrips, hdec]
    exact ⟨rfl, congrArg Wire.inWord hsplit⟩
  · have hdec : decode (.inWord w) = .inEos (w.extractLsb' 0 8) := if_pos heos
    rw [RoundTrips, hdec]
    exact ⟨rfl, congrArg Wire.inWord hsplit⟩

/-- A PIN word is its four bytes (30_encoding.md R77). -/
theorem pin_split (w : Word) :
    (w.extractLsb' 24 8 ++ w.extractLsb' 16 8 ++ w.extractLsb' 8 8 ++ w.extractLsb' 0 8 : Word) = w := by
  iterate 3 rw [BitVec.extractLsb'_append_extractLsb'_eq_extractLsb' (by rfl)]
  exact BitVec.extractLsb'_eq_self

/-- Settles O2, interface by interface. -/
theorem encodeOfDecode : Obligations.EncodeOfDecode := by
  intro w
  cases w with
  | bus r => exact roundTrips_bus r
  | inWord w => exact roundTrips_inWord w
  | pinWord w => exact ⟨rfl, congrArg Wire.pinWord (pin_split w)⟩
  | poutTake => exact ⟨rfl, rfl⟩
  | boutTake => exact ⟨rfl, rfl⟩

end Sys2Proof

/-! ## The byte layer (O3) -/

namespace Sys2Proof

/-- A byte string of another length is rejected by name (30_encoding.md R87). -/
theorem wireOfBytes_wrongLength {f : Format} {bs : List Byte} (h : bs.length ≠ formatBytes f) :
    wireOfBytes f bs = .error .wrongLength := if_pos h

/-- The host word of a byte string of the right length. -/
theorem wireOfBytes_of_length {f : Format} {bs : List Byte} (h : bs.length = formatBytes f) :
    (f = .inWord ∧ 512 ≤ leNat bs ∧ wireOfBytes f bs = .error .bitAboveFormat)
    ∨ ((f ≠ .inWord ∨ leNat bs < 512) ∧ ∃ w, wireOfBytes f bs = .ok w) := by
  unfold wireOfBytes
  rw [if_neg (not_not.mpr h)]
  cases f
  case inWord =>
    by_cases hv : leNat bs < 512
    · exact .inr ⟨.inr hv, _, if_pos hv⟩
    · exact .inl ⟨rfl, not_lt.mp hv, if_neg hv⟩
  all_goals exact .inr ⟨.inl nofun, _, rfl⟩

/-- The bytes of a word that fits them are its number. -/
theorem leNat_leBytes_toNat {k : Nat} (n : Nat) (w : BitVec k) (hk : 2 ^ k ≤ 256 ^ n) :
    leNat (leBytes n w.toNat) = w.toNat :=
  leNat_leBytes n w.toNat (w.isLt.trans_le hk)

/-- The value and the address of a bus write share its five bytes without overlap (log 5). -/
theorem busWrite_fields (a : Byte) (v : Word) :
    BitVec.ofNat 8 ((v.toNat + 2 ^ 32 * a.toNat) >>> 32) = a ∧ BitVec.ofNat 32 (v.toNat + 2 ^ 32 * a.toNat) = v := by
  have hv := v.isLt
  have ha := a.isLt
  constructor
  · apply BitVec.eq_of_toNat_eq
    rw [BitVec.toNat_ofNat, Nat.shiftRight_eq_div_pow]
    omega
  · apply BitVec.eq_of_toNat_eq
    rw [BitVec.toNat_ofNat]
    omega

/-- The bytes of a host word are read back as that word. -/
theorem wireOfBytes_bytesOfWire (w : Wire) : wireOfBytes (bytesOfWire w).1 (bytesOfWire w).2 = .ok w := by
  rw [wireOfBytes, if_neg (not_not.mpr (Laws.length_bytesOfWire w))]
  rcases w with (⟨a, v⟩ | a) | u | p | _ | _
  · have hn : leNat (leBytes 5 (v.toNat + 2 ^ 32 * a.toNat)) = v.toNat + 2 ^ 32 * a.toNat :=
      leNat_leBytes _ _ (by have hv := v.isLt; have ha := a.isLt; omega)
    obtain ⟨hfa, hfv⟩ := busWrite_fields a v
    simp only [bytesOfWire, hn, hfa, hfv]
  · simp [bytesOfWire, leNat_leBytes_toNat 1 a (by decide)]
  · have hu : u.toNat < 512 := u.isLt
    simp [bytesOfWire, leNat_leBytes_toNat 2 u (by decide), hu]
  · simp [bytesOfWire, leNat_leBytes_toNat 4 p (by decide)]
  · rfl
  · rfl

/-- Settles O3: the byte layer carries host words, and O1 and O2 carry them to instructions. -/
theorem byteDecodingIsTotal : Obligations.ByteDecodingIsTotal := by
  refine ⟨fun i hi => ?_, fun f bs h => ?_, fun f bs h => ?_⟩
  · rw [decodeBytes, encodeBytes, wireOfBytes_bytesOfWire]
    exact congrArg Except.ok (decodeOfEncode i hi)
  · rw [decodeBytes, wireOfBytes_wrongLength h]; rfl
  · rcases wireOfBytes_of_length h with ⟨hf, hv, hw⟩ | ⟨hv, w, hw⟩
    · exact .inl ⟨hf, hv, by rw [decodeBytes, hw]; rfl⟩
    · exact .inr ⟨hv, decode w, by rw [decodeBytes, hw]; rfl, (encodeOfDecode w).1⟩

end Sys2Proof

/-! ## Sample words (O5) -/

namespace Sys2Proof

/-- Settles O5: each word is read by the decoder. -/
theorem sampleWordsDecode : Obligations.SampleWordsDecode := by
  unfold Obligations.SampleWordsDecode
  decide

end Sys2Proof

/-! ## The fields of the words the block gives the host (O6, O13, O14)

POUT, BOUT, STATUS and ERR are concatenations (30_encoding.md R72, R73, R76, R77).  A field of one is found by dropping the
parts below it, one after another, so each word has one lemma that names its fields at their bit positions; the obligations
then only say what those fields are. -/

namespace Sys2Proof

section fields

variable {n m k s i : Nat} {x : BitVec n} {y : BitVec m}

/-- A field that lies above the right part is found in the left part. -/
theorem extract_append_of_le {z : BitVec k} (hs : m ≤ s) (h : x.extractLsb' (s - m) k = z) :
    (x ++ y).extractLsb' s k = z :=
  (BitVec.extractLsb'_append_eq_of_le hs).trans h

/-- A field that begins at bit 0 and reaches past the right part is a field of the left part above all of the right part. -/
theorem extract_append_straddle {z : BitVec k} (h : x.extractLsb' 0 k = z) :
    (x ++ y).extractLsb' 0 (k + m) = z ++ y := by
  rw [← h, ← BitVec.extractLsb'_append_extractLsb'_eq_extractLsb' (start₂ := m) (start₁ := 0) (by omega),
    extract_append_low]
  exact congrArg (· ++ y) (extract_append_high x y 0)

/-- A bit above the right part is found in the left part. -/
theorem getLsbD_append_of_le {c : Bool} (hi : m ≤ i) (h : x.getLsbD (i - m) = c) : (x ++ y).getLsbD i = c := by
  rw [BitVec.getLsbD_append, if_neg (by omega), h]

/-- The lowest bit of a word that ends in a flag is the flag. -/
theorem getLsbD_append_flag (c : Bool) : (x ++ BitVec.ofBool c).getLsbD 0 = c := by
  rw [BitVec.getLsbD_append, if_pos Nat.one_pos]
  simp

end fields

end Sys2Proof

namespace Sys2Proof.Machine

/-- The fields of the POUT word (30_encoding.md R76). -/
theorem PoutWord.pack_fields (p : PoutWord) :
    p.pack.extractLsb' 0 8 = p.r ∧ p.pack.extractLsb' 8 8 = p.g ∧ p.pack.extractLsb' 16 8 = p.b
    ∧ p.pack.getLsbD 24 = p.last ∧ p.pack.extractLsb' 25 7 = 0
    ∧ p.pack.extractLsb' 32 32 = p.col ∧ p.pack.extractLsb' 64 32 = p.vrow := by
  refine ⟨?_, ?_, ?_, ?_, ?_, ?_, ?_⟩
  case refine_4 =>
    iterate 3 apply getLsbD_append_of_le (by decide)
    exact getLsbD_append_flag p.last
  case refine_7 =>
    iterate 6 apply extract_append_of_le (by decide)
    exact BitVec.extractLsb'_eq_self
  all_goals
    repeat apply extract_append_of_le (by decide)
    exact extract_append_low _ _

/-- The fields of the BOUT word (30_encoding.md R77). -/
theorem boutWord_fields (l : Bool) (d : Byte) : (boutWord l d).extractLsb' 0 8 = d ∧ (boutWord l d).getLsbD 8 = l :=
  ⟨in_data_append _ d, (in_eos_append _ d).trans (by cases l <;> rfl)⟩

/-- Settles O6: the fields of the two words. -/
theorem channelWordFields : Obligations.ChannelWordFields := ⟨PoutWord.pack_fields, boutWord_fields⟩

/-- BUSY, DONE and ERROR as STATUS[2:0] shows them (30_encoding.md R72). -/
def Phase.flags (p : Phase) : BitVec 3 :=
  BitVec.ofBool (p == .error) ++ BitVec.ofBool (p == .done) ++ BitVec.ofBool p.busy

/-- The one-bit fields of STATUS (30_encoding.md R72). -/
theorem Block.status_bits (b : Block) :
    b.status.getLsbD 0 = b.phase.busy ∧ b.status.getLsbD 1 = (b.phase == .done) ∧ b.status.getLsbD 2 = (b.phase == .error)
    ∧ b.status.getLsbD 3 = b.ign ∧ b.status.getLsbD 4 = b.hv ∧ b.status.getLsbD 5 = b.pout.isSome
    ∧ b.status.getLsbD 6 = b.inReady ∧ b.status.getLsbD 7 = b.pinReady ∧ b.status.getLsbD 12 = b.boutValid := by
  repeat' apply And.intro
  all_goals
    repeat apply getLsbD_append_of_le (by decide)
    exact getLsbD_append_flag _

/-- The wider fields of STATUS (30_encoding.md R72). -/
theorem Block.status_fields (b : Block) :
    b.status.extractLsb' 0 3 = b.phase.flags ∧ b.status.extractLsb' 8 4 = b.phase.code
    ∧ b.status.extractLsb' 13 19 = 0 := by
  refine ⟨?_, ?_, ?_⟩
  · exact extract_append_straddle (extract_append_straddle (extract_append_low _ _))
  · iterate 8 apply extract_append_of_le (by decide)
    exact extract_append_low _ _
  · iterate 10 apply extract_append_of_le (by decide)
    exact BitVec.extractLsb'_eq_self

/-- The busy phases (10_state.md R20). -/
theorem Phase.busy_iff (p : Phase) :
    p.busy = true ↔ p ∈ [Phase.dHdr, .dSkip, .dPix, .dPad, .dDrain, .eHdr, .ePix, .ePad] := by
  cases p <;> decide

/-- At most one of BUSY, DONE and ERROR is 1, and none only in IDLE (30_encoding.md R72). -/
theorem Phase.flags_exclusive (p : Phase) :
    (p.flags = 0 ∨ p.flags = 1 ∨ p.flags = 2 ∨ p.flags = 4) ∧ (p.flags = 0 ↔ p = .idle) := by
  cases p <;> decide

/-- Settles O13: each bit is the flag at its position, and each flag has a lemma that says when it is 1. -/
theorem statusBits : Obligations.StatusBits := by
  intro b
  obtain ⟨hbusy, hdone, herror, hign, hhv, hpout, hin, hpin, hbout⟩ := b.status_bits
  obtain ⟨hflags, hcode, hzero⟩ := b.status_fields
  obtain ⟨hone, hidle⟩ := b.phase.flags_exclusive
  rw [hbusy, hdone, herror, hin, hpin, hbout, hcode, hflags]
  refine ⟨b.phase.busy_iff, beq_iff_eq, beq_iff_eq, hign, hhv, hpout, b.inReady_iff, b.pinReady_iff, ?_,
    b.boutValid_iff.trans (or_congr_right or_comm), hzero, hone, hidle⟩
  cases b.phase <;> rfl

/-- The fields of ERR (30_encoding.md R73). -/
theorem Block.err_fields (b : Block) :
    b.err.extractLsb' 0 4 = b.errCode.code ∧ b.err.extractLsb' 4 4 = b.errVcause ∧ b.err.extractLsb' 8 2 = b.errStage.code
    ∧ b.err.extractLsb' 10 22 = 0 := by
  refine ⟨extract_append_low _ _, ?_, ?_, ?_⟩
  · exact extract_append_of_le (by decide) (extract_append_low _ _)
  · iterate 2 apply extract_append_of_le (by decide)
    exact extract_append_low _ _
  · iterate 3 apply extract_append_of_le (by decide)
    exact BitVec.extractLsb'_eq_self

/-- Code 0 is no error (30_encoding.md R74). -/
theorem ErrCode.code_eq_zero (c : ErrCode) : c.code = 0 ↔ c = .none := by
  cases c <;> decide

/-- ERR is 0 exactly when no error is recorded (30_encoding.md R73, 60_exceptions.md R172). -/
theorem Block.errorOk.err_eq_zero {b : Block} (h : b.errorOk) : b.err = 0 ↔ b.errCode = .none := by
  obtain ⟨-, hstage, hcause⟩ := h
  constructor
  · intro h0
    obtain ⟨hcode, -⟩ := b.err_fields
    rw [h0] at hcode
    exact b.errCode.code_eq_zero.mp (hcode.symm.trans (by decide))
  · intro hc
    have hv : b.errVcause = 0 := by simpa [hc] using hcause
    rw [Block.err, hc, hstage.mp hc, hv]
    rfl

/-- Settles O14: the fields of the word, and the invariant's error record for its last two clauses. -/
theorem errFields : Obligations.ErrFields := by
  intro b
  obtain ⟨hcode, hcause, hstage, hzero⟩ := b.err_fields
  refine ⟨hcode.trans ?_, hcause, hstage.trans ?_, hzero, fun hinv hne => ?_, fun hinv => ?_⟩
  · cases b.errCode <;> rfl
  · cases b.errStage <;> rfl
  · obtain ⟨-, -, hvar⟩ := hinv.error
    rw [hcode, hvar.mp (hcause ▸ hne)]
    rfl
  · obtain ⟨herr, -⟩ := hinv.error
    exact hinv.error.err_eq_zero.trans (iff_not_comm.mp herr)

end Sys2Proof.Machine

/-! ## What the validator tests (O8) -/

namespace Sys2Proof.Machine

/-- The flag of a check is set where the check fails and where the mask has it. -/
theorem getLsbD_mask {n : Nat} (p : Prop) [Decidable p] (m : BitVec n) (i : Nat) :
    (if p then m else 0).getLsbD i = true ↔ p ∧ m.getLsbD i = true := by
  split <;> simp [*]

/-- The flags of the variant cause, each with the checks whose mask has it (40_header_parser.md R101). -/
theorem variantCause_getLsbD (h : Vector Byte 54) (i : Nat) :
    (variantCause h).getLsbD i = true ↔
      (hdrIhsize h ≠ 40 ∧ (0b0001#4).getLsbD i = true) ∨ (hdrBpp h ≠ 24 ∧ (0b0010#4).getLsbD i = true)
      ∨ (hdrCompr h ≠ 0 ∧ (0b0100#4).getLsbD i = true)
      ∨ ((hdrWidth h < 0 ∨ hdrHeight h < 0) ∧ (0b1000#4).getLsbD i = true) := by
  simp only [variantCause, BitVec.getLsbD_or, Bool.or_eq_true, or_assoc]
  iterate 4 rw [getLsbD_mask]
  rfl

/-- A dimension is negative exactly when bit 31 of its pattern, the top bit of its last byte, is 1 (R100). -/
theorem s32le_neg_iff (h : Vector Byte 54) (i : Nat) : s32le h i < 0 ↔ (hdrAt h (i + 3)).getLsbD 7 = true := by
  have h0 := (hdrAt h i).isLt
  have h1 := (hdrAt h (i + 1)).isLt
  have h2 := (hdrAt h (i + 2)).isLt
  have hmsb : (hdrAt h (i + 3)).getLsbD 7 = true ↔ 2 ^ 7 ≤ (hdrAt h (i + 3)).toNat := by
    rw [← BitVec.msb_eq_getLsbD_last, BitVec.msb_eq_decide, decide_eq_true_iff]
  rw [s32le, s32_neg_iff (u32le_lt h i), hmsb, u32le]
  omega

/-- The signature check compares two bytes (R98). -/
theorem signatureOk_iff (h : Vector Byte 54) : signatureOk h = true ↔ hdrAt h 0 = 0x42 ∧ hdrAt h 1 = 0x4D := by
  simp [signatureOk, Config.sig0, Config.sig1]

/-- Settles O8: each bit of the cause lies in the mask of its own check alone. -/
theorem validatorChecks : Obligations.ValidatorChecks := by
  intro h
  refine ⟨signatureOk_iff h, ?_, ?_, ?_, ?_, s32le_neg_iff h 18, s32le_neg_iff h 22⟩
  all_goals rw [variantCause_getLsbD]; simp

end Sys2Proof.Machine

/-! ## What the validator does not test (O9) -/

namespace Sys2Proof.Machine

/-- A two-byte field depends on its two bytes alone. -/
theorem u16le_congr {h h' : Vector Byte 54} {i : Nat} (hb : ∀ a, i ≤ a → a < i + 2 → hdrAt h a = hdrAt h' a) :
    u16le h i = u16le h' i := by
  simp only [u16le]
  rw [hb i (by omega) (by omega), hb (i + 1) (by omega) (by omega)]

/-- A four-byte field depends on its four bytes alone. -/
theorem u32le_congr {h h' : Vector Byte 54} {i : Nat} (hb : ∀ a, i ≤ a → a < i + 4 → hdrAt h a = hdrAt h' a) :
    u32le h i = u32le h' i := by
  simp only [u32le]
  rw [hb i (by omega) (by omega), hb (i + 1) (by omega) (by omega), hb (i + 2) (by omega) (by omega),
    hb (i + 3) (by omega) (by omega)]

/-- Settles O9: the signature is bytes 0 and 1, and the five fields the cause tests are bytes 14 to 25 and 28 to 33. -/
theorem uncheckedFieldsAreIgnored : Obligations.UncheckedFieldsAreIgnored := by
  intro h h' heq
  have hihsize : hdrIhsize h = hdrIhsize h' := u32le_congr fun a _ _ => heq a (by omega) (by omega)
  have hwidth : hdrWidth h = hdrWidth h' := congrArg s32 (u32le_congr fun a _ _ => heq a (by omega) (by omega))
  have hheight : hdrHeight h = hdrHeight h' := congrArg s32 (u32le_congr fun a _ _ => heq a (by omega) (by omega))
  have hbpp : hdrBpp h = hdrBpp h' := u16le_congr fun a _ _ => heq a (by omega) (by omega)
  have hcompr : hdrCompr h = hdrCompr h' := u32le_congr fun a _ _ => heq a (by omega) (by omega)
  constructor
  · rw [signatureOk, signatureOk, heq 0 (by omega) (by omega), heq 1 (by omega) (by omega)]
  · rw [variantCause, variantCause, hihsize, hwidth, hheight, hbpp, hcompr]

end Sys2Proof.Machine

/-! ## The rules of the header phase, of the validator and of the seek -/

namespace Sys2Proof.Machine

/-! ### Taking an IN word -/

/-- An IN byte the block is ready for is taken. -/
theorem exec_inByte_ready (x : Byte) {s : State} (hr : s.blk.inReady = true) :
    exec (.inByte x) s = .next { s with blk := s.blk.takeByte x, env := { s.env with inp := s.env.inp.tail } } :=
  congrArg Host.Outcome.next (if_pos hr)

/-- An IN EOS the block is ready for is taken. -/
theorem exec_inEos_ready (x : Byte) {s : State} (hr : s.blk.inReady = true) :
    exec (.inEos x) s = .next { s with blk := s.blk.takeEos, env := { s.env with inp := s.env.inp.tail } } :=
  congrArg Host.Outcome.next (if_pos hr)

theorem Block.inReady_of_dHdr {b : Block} (hp : b.phase = .dHdr) : b.inReady = true := b.inReady_iff.mpr (.inl hp)

theorem Block.takeByte_dHdr (x : Byte) {b : Block} (hp : b.phase = .dHdr) : b.takeByte x = b.headerByte x := by
  rw [Block.takeByte, hp]

theorem Block.takeEos_dHdr {b : Block} (hp : b.phase = .dHdr) : b.takeEos = b.raiseError .truncated .header := by
  rw [Block.takeEos, hp]

theorem Block.takeEos_of_pixel {b : Block} (hp : b.phase = .dSkip ∨ b.phase = .dPix ∨ b.phase = .dPad) :
    b.takeEos = b.raiseError .truncated .pixel := by
  rw [Block.takeEos]
  rcases hp with e | e | e <;> rw [e]

/-- A store at an index of the vector. -/
theorem setIfInBounds_of_lt {α : Type} {n i : Nat} (v : Vector α n) (x : α) (hi : i < n) : v.setIfInBounds i x = v.set i x :=
  Vector.ext fun j hj => by rw [Vector.getElem_setIfInBounds hj, Vector.getElem_set]

/-- A header byte before the 54th is stored and counted (40_header_parser.md R95). -/
theorem Block.headerByte_of_lt (x : Byte) {b : Block} (h : b.hpos.toNat < 53) :
    b.headerByte x = { b with hdr := b.hdr.set b.hpos.toNat x, hpos := b.hpos + 1, pos := b.pos + 1 } := by
  have hnext : (b.hpos + 1).toNat ≠ 54 := by rw [add_one_toNat (by omega)]; omega
  rw [Block.headerByte, if_neg hnext, setIfInBounds_of_lt]

/-- The 54th header byte is stored and counted, and the validator runs in the same step (R95, R104). -/
theorem Block.headerByte_last (x : Byte) {b : Block} (h : b.hpos = 53) :
    b.headerByte x = ({ b with hdr := b.hdr.set 53 x, hpos := 54, pos := b.pos + 1 }).validate := by
  rw [Block.headerByte, h]
  dsimp only
  rw [setIfInBounds_of_lt b.hdr x (show (53 : BitVec 6).toNat < 54 by decide)]
  rfl

/-! ### The validator and the seek, by case -/

theorem Block.validate_badSignature {b : Block} (hs : signatureOk b.hdr = false) :
    b.validate = b.raiseError .badSignature .header := by
  rw [Block.validate, hs]; rfl

theorem Block.validate_unsupported {b : Block} (hs : signatureOk b.hdr = true) (hv : variantCause b.hdr ≠ 0) :
    b.validate = ({ b with errVcause := variantCause b.hdr }).raiseError .unsupportedVariant .header := by
  rw [Block.validate, if_pos hs]; exact if_neg hv

theorem Block.validate_ok {b : Block} (hs : signatureOk b.hdr = true) (hv : variantCause b.hdr = 0) :
    b.validate = b.validated := by
  rw [Block.validate, if_pos hs]; exact if_pos hv

/-- The block with HV set and the geometry of its header latched (R103). -/
def Block.latched (b : Block) : Block :=
  { b with hv := true, gw := BitVec.ofNat 32 (u32le b.hdr 18), gh := BitVec.ofNat 32 (u32le b.hdr 22) }

theorem Block.validated_parse {b : Block} (hop : b.op = 0x1) : b.validated = { b.latched with phase := .done } :=
  if_pos hop

theorem Block.validated_of_ne {b : Block} (hop : b.op ≠ 0x1) : b.validated = b.latched.pixelStart :=
  if_neg hop

/-- The latched geometry is the header's. -/
theorem Block.latched_geometry (b : Block) :
    b.latched.gw.toNat = u32le b.hdr 18 ∧ b.latched.gh.toNat = u32le b.hdr 22 :=
  ⟨BitVec.toNat_ofNat .. |>.trans (Nat.mod_eq_of_lt (u32le_lt _ _)),
    BitVec.toNat_ofNat .. |>.trans (Nat.mod_eq_of_lt (u32le_lt _ _))⟩

/-- The pixel data is empty exactly when a dimension is 0 (41_row_aligner.md R114). -/
theorem Block.noPixels_iff (b : Block) : b.rowBytes * b.gh.toNat = 0 ↔ b.gw.toNat = 0 ∨ b.gh.toNat = 0 := by
  rw [Nat.mul_eq_zero, Block.rowBytes, ← Nat.le_zero, ← not_lt, rowBytesOf_pos, not_not]

section seek

variable {b : Block}

/-- The seek of an empty geometry is the end (41_row_aligner.md R116). -/
theorem Block.pixelStart_empty (h : b.gw.toNat = 0 ∨ b.gh.toNat = 0) :
    b.pixelStart = { b with j := 0, k := 0, n := 0, phase := .done } :=
  if_pos (b.noPixels_iff.mpr h)

variable (hw : b.gw.toNat ≠ 0) (hh : b.gh.toNat ≠ 0)
include hw hh

/-- The seek to data from index 54 on skips the gap, if there is one. -/
theorem Block.pixelStart_after (ho : 54 ≤ hdrOffset b.hdr) :
    b.pixelStart =
      { b with
        j := 0, k := 0, n := 0, rpos := 54, skip := BitVec.ofNat 32 (hdrOffset b.hdr - 54),
        phase := if 0 < hdrOffset b.hdr - 54 then .dSkip else .dPix } :=
  (if_neg (mt b.noPixels_iff.mp (not_or.mpr ⟨hw, hh⟩))).trans (if_pos ho)

/-- The seek to data that begins in the header replays it from HDR. -/
theorem Block.pixelStart_before (ho : hdrOffset b.hdr < 54) :
    b.pixelStart =
      { b with j := 0, k := 0, n := 0, rpos := BitVec.ofNat 6 (hdrOffset b.hdr), skip := 0, phase := .dPix } :=
  (if_neg (mt b.noPixels_iff.mp (not_or.mpr ⟨hw, hh⟩))).trans (if_neg (not_le.mpr ho))

end seek

end Sys2Proof.Machine

/-! ## A header byte (O24, O25, O26) -/

namespace Sys2Proof.Machine

/-- Settles O24: the block is ready in D_HDR, and a byte before the 54th is only stored. -/
theorem headerByteIsStored : Obligations.HeaderByteIsStored := by
  intro x s hp hlt
  rw [exec_inByte_ready x (Block.inReady_of_dHdr hp), Block.takeByte_dHdr x hp, Block.headerByte_of_lt x hlt]

/-- The 54th header byte, taken from IN: it is stored and counted, and the validator runs. -/
theorem exec_inByte_last (x : Byte) {s : State} (hp : s.blk.phase = .dHdr) (h53 : s.blk.hpos = 53) :
    exec (.inByte x) s = .next { s with
      blk := ({ s.blk with hdr := s.blk.hdr.set 53 x, hpos := 54, pos := s.blk.pos + 1 }).validate
      env := { s.env with inp := s.env.inp.tail } } := by
  rw [exec_inByte_ready x (Block.inReady_of_dHdr hp), Block.takeByte_dHdr x hp, Block.headerByte_last x h53]

/-- Settles O25: the validator's two rejections. -/
theorem lastHeaderByteRejects : Obligations.LastHeaderByteRejects := by
  intro x s hp h53 h b e
  have hexec : exec (.inByte x) s = .next { s with blk := b.validate, env := e } := exec_inByte_last x hp h53
  refine ⟨fun hs => ?_, fun hs hv => ?_⟩
  · rw [hexec, Block.validate_badSignature (b := b) hs]; rfl
  · rw [hexec, Block.validate_unsupported (b := b) hs hv]; rfl

/-- Settles O26: the validator accepts, PARSE ends there, and DECODE seeks, case by case of the geometry and of OFFSET. -/
theorem lastHeaderByteAccepts : Obligations.LastHeaderByteAccepts := by
  intro x s hp h53 h w ht b e seek hs hv
  let b₀ : Block := { s.blk with hdr := h, hpos := 54, pos := s.blk.pos + 1 }
  have hexec : exec (.inByte x) s = .next { s with blk := b₀.validated, env := e } := by
    rw [exec_inByte_last x hp h53, Block.validate_ok (b := b₀) hs hv]
  have hdecode : s.blk.op = 0x2 → exec (.inByte x) s = .next { s with blk := b.pixelStart, env := e } := fun hop => by
    rw [hexec, Block.validated_of_ne (b := b₀) (show s.blk.op ≠ 0x1 by simp [hop])]
    rfl
  obtain ⟨hgw, hgh⟩ : b.gw.toNat = w ∧ b.gh.toNat = ht := b₀.latched_geometry
  obtain ⟨hw31, hh31⟩ := variantCause_dims hv
  refine ⟨hw31, hh31, fun hop => ?_, fun hop h0 => ?_, fun hop hw hh ho => ?_, fun hop hw hh ho => ?_,
    fun hop hw hh ho => ?_⟩
  · rw [hexec, Block.validated_parse (b := b₀) hop]
    rfl
  · rw [hdecode hop, Block.pixelStart_empty (b := b) (by rwa [hgw, hgh])]
  · rw [hdecode hop, Block.pixelStart_after (b := b) (hgw ▸ hw) (hgh ▸ hh) (ho : hdrOffset h = 54).ge]
    simp only [show hdrOffset b.hdr = 54 from ho]
    rfl
  · rw [hdecode hop, Block.pixelStart_after (b := b) (hgw ▸ hw) (hgh ▸ hh) (ho : 54 < hdrOffset h).le,
      if_pos (Nat.sub_pos_of_lt ho)]
  · rw [hdecode hop, Block.pixelStart_before (b := b) (hgw ▸ hw) (hgh ▸ hh) ho]

end Sys2Proof.Machine

/-! ## An end of source (O30) -/

namespace Sys2Proof.Machine

/-- Settles O30: an EOS the block is ready for is TRUNCATED, at the stage of the phase. -/
theorem eosTruncates : Obligations.EosTruncates := by
  intro x s e
  refine ⟨fun hp => ?_, fun hp => ?_⟩
  · rw [exec_inEos_ready x (Block.inReady_of_dHdr hp), Block.takeEos_dHdr hp]
    rfl
  · rw [exec_inEos_ready x (s.blk.inReady_iff.mpr (.inr hp)), Block.takeEos_of_pixel (hp.imp_right And.left)]
    rfl

end Sys2Proof.Machine

/-! ## PARSE computes `parseHeader` (O53)

In the header phase the block waits for an IN word alone, so on any schedule of the channels its state after `n` words is
`State.collecting src n`, whatever the command; the last word of the phase leads to `State.headerEnd src`, which
`Block.headerEnd_ok` and `Block.headerEnd_error` compare with the reference.  For PARSE that is the end of the run. -/

namespace Sys2Proof.Machine

/-! ### What the header phase collects -/

/-- The header buffer `h` with the first `n` bytes of a source stored in it.  Irreducible, so that comparing two blocks
does not compute the buffer. -/
@[irreducible] def storedHeader (src : List Byte) (n : Nat) (h : Vector Byte 54) : Vector Byte 54 :=
  Vector.ofFn fun i : Fin 54 => if i.val < n then srcAt src i else h[i]

theorem storedHeader_zero (src : List Byte) (h : Vector Byte 54) : storedHeader src 0 h = h :=
  Vector.ext fun i hi => by simp [storedHeader]

theorem storedHeader_succ (src : List Byte) {n : Nat} (h : Vector Byte 54) (hn : n < 54) :
    (storedHeader src n h).set n (srcAt src n) = storedHeader src (n + 1) h := by
  refine Vector.ext fun i hi => ?_
  simp only [storedHeader, Vector.getElem_set, Vector.getElem_ofFn]
  by_cases hni : n = i
  · simp [hni]
  · simp [hni, show i < n + 1 ↔ i < n by omega]

theorem storedHeader_all (src : List Byte) (h : Vector Byte 54) : storedHeader src 54 h = headerOf src :=
  Vector.ext fun i hi => by simp [storedHeader, headerOf]

/-- A block that has just started the header phase, after `n` bytes of a source (40_header_parser.md R95). -/
def Block.collecting (src : List Byte) (n : Nat) (b : Block) : Block :=
  { b with hdr := storedHeader src n b.hdr, hpos := BitVec.ofNat 6 n, pos := BitVec.ofNat 64 n }

theorem Block.collecting_zero (src : List Byte) (op : BitVec 4) (b : Block) :
    (b.startDecodeFamily op).collecting src 0 = b.startDecodeFamily op := by
  rw [Block.collecting, storedHeader_zero]; rfl

theorem ofNat_add_one (k n : Nat) : BitVec.ofNat k n + 1 = BitVec.ofNat k (n + 1) := (BitVec.ofNat_add n 1).symm

theorem Block.collecting_headerByte (src : List Byte) {n : Nat} (b : Block) (hn : n < 53) :
    (b.collecting src n).headerByte (srcAt src n) = b.collecting src (n + 1) := by
  have hpos : (b.collecting src n).hpos.toNat = n := by
    show (BitVec.ofNat 6 n).toNat = n
    rw [BitVec.toNat_ofNat]; omega
  rw [Block.headerByte_of_lt _ (hpos.symm ▸ hn)]
  simp only [hpos]
  simp only [Block.collecting, storedHeader_succ src b.hdr (show n < 54 by omega), ofNat_add_one]

theorem Block.collecting_headerByte_last (src : List Byte) (b : Block) :
    (b.collecting src 53).headerByte (srcAt src 53) = (b.collecting src 54).validate := by
  rw [Block.headerByte_last _ rfl, Block.collecting, Block.collecting]
  dsimp only
  rw [storedHeader_succ src b.hdr (by omega)]
  rfl

/-- How many IN words the header phase takes of a source and its EOS. -/
def headerWords (src : List Byte) : Nat := min (src.length + 1) 54

/-- The block at the end of its header phase: a source too short has met its EOS (R96), any other has run the validator. -/
def Block.headerEnd (src : List Byte) (b : Block) : Block :=
  if src.length < 54 then (b.collecting src src.length).raiseError .truncated .header
  else (b.collecting src 54).validate

/-! ### The header phase on a schedule of the channels -/

/-- A turn the block does not wait for is used up without effect, on every channel and on the block's own turn (log 2). -/
theorem stepped_unready {s : State} {u : Turn} {ts : List Turn} (ht : s.env.turns = u :: ts)
    (hu : u ≠ .port .bus ∧ u ≠ .reset) (hw : ¬ s.blk.waitsFor u) (hpin : s.blk.pinReady = false)
    (hbout : s.blk.boutValid = false) : stepped s = { s with env := { s.env with turns := ts } } := by
  match u with
  | .port .bus => exact absurd rfl hu.1
  | .reset => exact absurd rfl hu.2
  | .port .pin => exact stepped_pin_unready ht hpin
  | .port .bout => exact stepped_bout_unready ht hbout
  | .block | .port .pout | .port .inp => exact stepped_of_not_waitsFor (by simp [decodeRound]) ht hw

/-- In the header phase the block waits for an IN word alone (20_memory.md R62). -/
theorem Block.waitsFor_dHdr {b : Block} {u : Turn} (hp : b.phase = .dHdr) (hpo : b.pout = none) :
    b.waitsFor u ↔ u = .port .inp := by
  rcases u with p | _ | _
  · cases p <;> simp [Block.waitsFor, Block.inReady_of_dHdr hp, hpo]
  · simp [Block.waitsFor, Block.replayReady, hp]
  · simp [Block.waitsFor]

/-- Once a run has ended with POUT empty, the block waits for nothing. -/
theorem Block.not_waitsFor_of_ended {b : Block} (he : b.phase.ended) (hpo : b.pout = none) (u : Turn) : ¬ b.waitsFor u := by
  have hin : b.inReady = false := by rcases he with e | e <;> simp [Block.inReady, e]
  have hreplay : b.replayReady = false := by rcases he with e | e <;> simp [Block.replayReady, e]
  rcases u with p | _ | _
  · cases p <;> simp [Block.waitsFor, hin, hpo]
  · simp [Block.waitsFor, hreplay]
  · simp [Block.waitsFor]

/-- Once a run has ended with POUT empty, no schedule of the channels changes the block or takes a word. -/
theorem ran_ended {s : State} {ts : List Turn} (hts : channelsOnly ts) (ht : s.env.turns = ts)
    (he : s.blk.phase.ended) (hpo : s.blk.pout = none) :
    ran ts.length s = { s with env := { s.env with turns := [] } } := by
  induction ts generalizing s with
  | nil => show s = _; rw [← ht]
  | cons u ts ih =>
    obtain ⟨hu, hts⟩ := List.forall_mem_cons.mp hts
    have hstep : stepped s = { s with env := { s.env with turns := ts } } := by
      refine stepped_unready ht hu (Block.not_waitsFor_of_ended he hpo u) ?_ ?_
      all_goals rcases he with e | e <;> simp [Block.pinReady, Block.boutValid, e]
    show ran ts.length (stepped s) = _
    rw [hstep]
    exact ih hts rfl he hpo

/-- In the header phase the IN word at the head of the queue is taken (R95, R96). -/
theorem stepped_inp_dHdr {s : State} {w : BitVec 9} {q : List (BitVec 9)} {ts : List Turn} (hp : s.blk.phase = .dHdr)
    (ht : s.env.turns = .port .inp :: ts) (hq : s.env.inp = w :: q) :
    stepped s =
      { s with
        blk := if w.getLsbD 8 then s.blk.raiseError .truncated .header else s.blk.headerByte (w.extractLsb' 0 8)
        env := { s.env with turns := ts, inp := q } } := by
  rw [stepped_inp ht hq, if_pos (Block.inReady_of_dHdr hp), Block.takeEos_dHdr hp, Block.takeByte_dHdr _ hp]

/-- The state `s` after `n` words of the header phase, with the turns `ts` to come. -/
def State.collecting (src : List Byte) (n : Nat) (ts : List Turn) (s : State) : State :=
  { s with blk := s.blk.collecting src n, env := { s.env with inp := s.env.inp.drop n, turns := ts } }

/-- The state `s` after the header phase, with the turns `ts` to come. -/
def State.headerEnd (src : List Byte) (ts : List Turn) (s : State) : State :=
  { s with blk := s.blk.headerEnd src, env := { s.env with inp := s.env.inp.drop (headerWords src), turns := ts } }

section phase

variable {s : State} {src : List Byte} {eos : BitVec 9} {rest : List (BitVec 9)} {n : Nat} {u : Turn} {ts : List Turn}

/-- The words a source offers: a byte at each index of the source, then the EOS. -/
theorem drop_source_byte (hq : s.env.inp = src.map byteWord ++ eos :: rest) (hn : n < src.length) :
    s.env.inp.drop n = byteWord (srcAt src n) :: s.env.inp.drop (n + 1) := by
  have hlen : n < s.env.inp.length := by simp [hq]; omega
  rw [List.drop_eq_getElem_cons hlen]
  simp [hq, srcAt, hn]

theorem drop_source_eos (hq : s.env.inp = src.map byteWord ++ eos :: rest) :
    s.env.inp.drop src.length = eos :: s.env.inp.drop (src.length + 1) := by
  have hlen : src.length < s.env.inp.length := by simp [hq]
  rw [List.drop_eq_getElem_cons hlen]
  simp [hq]

/-- A turn other than the one on IN is used up. -/
theorem stepped_collecting_other (hp : s.blk.phase = .dHdr) (hpo : s.blk.pout = none)
    (hu : u ≠ .port .bus ∧ u ≠ .reset) (hin : u ≠ .port .inp) :
    stepped (s.collecting src n (u :: ts)) = s.collecting src n ts := by
  have hp' : (s.blk.collecting src n).phase = .dHdr := hp
  have hw : ¬ (s.blk.collecting src n).waitsFor u := mt (Block.waitsFor_dHdr hp' hpo).mp hin
  refine stepped_unready (s := s.collecting src n _) rfl hu hw ?_ ?_
  · simp [State.collecting, Block.pinReady, hp']
  · simp [State.collecting, Block.boutValid, hp']

/-- A source byte taken. -/
theorem stepped_collecting_byte (hp : s.blk.phase = .dHdr) (hq : s.env.inp = src.map byteWord ++ eos :: rest)
    (hn : n < src.length) :
    stepped (s.collecting src n (.port .inp :: ts)) =
      { s with
        blk := (s.blk.collecting src n).headerByte (srcAt src n)
        env := { s.env with inp := s.env.inp.drop (n + 1), turns := ts } } := by
  have heos : (byteWord (srcAt src n)).getLsbD 8 = false := in_eos_append 0#1 _
  have hdata : (byteWord (srcAt src n)).extractLsb' 0 8 = srcAt src n := in_data_append 0#1 _
  rw [stepped_inp_dHdr (s := s.collecting src n _) hp rfl (drop_source_byte hq hn), heos, hdata]
  rfl

/-- An IN turn before the last of the header phase stores a byte. -/
theorem stepped_collecting_succ (hp : s.blk.phase = .dHdr) (hq : s.env.inp = src.map byteWord ++ eos :: rest)
    (hn : n + 1 < headerWords src) :
    stepped (s.collecting src n (.port .inp :: ts)) = s.collecting src (n + 1) ts := by
  unfold headerWords at hn
  rw [stepped_collecting_byte hp hq (by omega), Block.collecting_headerByte src _ (by omega)]
  rfl

/-- The last IN turn of the header phase ends it: it takes the EOS of a short source, or the 54th byte. -/
theorem stepped_collecting_last (hp : s.blk.phase = .dHdr) (hq : s.env.inp = src.map byteWord ++ eos :: rest)
    (heos : eos.getLsbD 8 = true) (hn : n + 1 = headerWords src) :
    stepped (s.collecting src n (.port .inp :: ts)) = s.headerEnd src ts := by
  rw [State.headerEnd, Block.headerEnd, ← hn]
  unfold headerWords at hn
  by_cases hshort : src.length < 54
  · obtain rfl : n = src.length := by omega
    rw [stepped_inp_dHdr (s := s.collecting src _ _) hp rfl (drop_source_eos hq), if_pos heos, if_pos hshort]
    rfl
  · obtain rfl : n = 53 := by omega
    rw [stepped_collecting_byte hp hq (by omega), Block.collecting_headerByte_last, if_neg hshort]

/-- A schedule with enough IN turns runs the header phase to its end, if its end is the end of the run. -/
theorem ran_collecting (hp : s.blk.phase = .dHdr) (hpo : s.blk.pout = none)
    (hq : s.env.inp = src.map byteWord ++ eos :: rest) (heos : eos.getLsbD 8 = true)
    (he : (s.blk.headerEnd src).phase.ended) (hpe : (s.blk.headerEnd src).pout = none)
    (hts : channelsOnly ts) (hn : n < headerWords src) (hcount : headerWords src ≤ n + ts.count (.port .inp)) :
    ran ts.length (s.collecting src n ts) = s.headerEnd src [] := by
  induction ts generalizing n with
  | nil => rw [List.count_nil] at hcount; omega
  | cons u ts ih =>
    obtain ⟨hu, hts'⟩ := List.forall_mem_cons.mp hts
    show ran ts.length (stepped _) = _
    by_cases hin : u = .port .inp
    · subst hin
      rw [List.count_cons_self] at hcount
      by_cases hlast : n + 1 = headerWords src
      · rw [stepped_collecting_last hp hq heos hlast]
        exact ran_ended hts' rfl he hpe
      · rw [stepped_collecting_succ hp hq (by omega)]
        exact ih hts' (by omega) (by omega)
    · rw [List.count_cons_of_ne hin] at hcount
      rw [stepped_collecting_other hp hpo hu hin]
      exact ih hts' hn hcount

end phase

/-! ### The end of the header phase and `parseHeader` -/

/-- When the reference accepts (R106). -/
theorem parseHeader_eq_ok {src : List Byte} {h : Vector Byte 54} (hok : parseHeader src = .ok h) :
    54 ≤ src.length ∧ h = headerOf src ∧ signatureOk (headerOf src) = true ∧ variantCause (headerOf src) = 0 := by
  unfold parseHeader at hok
  dsimp only at hok
  split_ifs at hok with hshort hsig hvar
  obtain rfl := Except.ok.inj hok
  exact ⟨not_lt.mp hshort, rfl, hsig, hvar⟩

/-- When the reference rejects, and with which error (R106). -/
theorem parseHeader_eq_error {src : List Byte} {e : FormatError} (herr : parseHeader src = .error e) :
    (src.length < 54 ∧ e = .truncated)
    ∨ (54 ≤ src.length ∧ signatureOk (headerOf src) = false ∧ e = .badSignature)
    ∨ (54 ≤ src.length ∧ signatureOk (headerOf src) = true ∧ variantCause (headerOf src) ≠ 0
        ∧ e = .unsupportedVariant (variantCause (headerOf src))) := by
  unfold parseHeader at herr
  dsimp only at herr
  split_ifs at herr with hshort hsig hvar <;> obtain rfl := Except.error.inj herr
  · exact .inl ⟨hshort, rfl⟩
  · exact .inr (.inr ⟨not_lt.mp hshort, hsig, hvar, rfl⟩)
  · exact .inr (.inl ⟨not_lt.mp hshort, Bool.eq_false_iff.mpr hsig, rfl⟩)

/-- The buffer after 54 bytes is the header of the source. -/
theorem Block.collecting_hdr (src : List Byte) (b : Block) : (b.collecting src 54).hdr = headerOf src :=
  storedHeader_all src b.hdr

/-- Where the reference accepts, the header phase ends in the latched header. -/
theorem Block.headerEnd_ok {src : List Byte} {h : Vector Byte 54} (b : Block) (hok : parseHeader src = .ok h) :
    b.headerEnd src = (b.collecting src 54).validated := by
  obtain ⟨hlen, -, hsig, hvar⟩ := parseHeader_eq_ok hok
  rw [← b.collecting_hdr] at hsig hvar
  rw [Block.headerEnd, if_neg (not_lt.mpr hlen), Block.validate_ok hsig hvar]

/-- Where the reference rejects, the header phase ends in its error. -/
theorem Block.headerEnd_error {src : List Byte} {e : FormatError} {b : Block} (hb : b.errVcause = 0)
    (herr : parseHeader src = .error e) :
    b.headerEnd src =
      ({ b.collecting src (min src.length 54) with errVcause := e.vcause }).raiseError e.code .header := by
  have hcause : { b with errVcause := 0 } = b := by rw [← hb]
  rcases parseHeader_eq_error herr with ⟨hlen, rfl⟩ | ⟨hlen, hsig, rfl⟩ | ⟨hlen, hsig, hvar, rfl⟩
  · rw [Block.headerEnd, if_pos hlen, min_eq_left hlen.le, ← hcause]
    rfl
  · rw [← b.collecting_hdr] at hsig
    rw [Block.headerEnd, if_neg (not_lt.mpr hlen), min_eq_right hlen, Block.validate_badSignature hsig, ← hcause]
    rfl
  · rw [← b.collecting_hdr] at hsig hvar ⊢
    rw [Block.headerEnd, if_neg (not_lt.mpr hlen), min_eq_right hlen, Block.validate_unsupported hsig hvar]
    rfl

/-- The header phase of PARSE ends the run, with POUT empty. -/
theorem Block.headerEnd_parse_ended (src : List Byte) (b : Block) :
    ((b.startDecodeFamily 0x1).headerEnd src).phase.ended ∧ ((b.startDecodeFamily 0x1).headerEnd src).pout = none := by
  cases hres : parseHeader src with
  | ok h => rw [Block.headerEnd_ok _ hres, Block.validated_parse rfl]; exact ⟨.inl rfl, rfl⟩
  | error e => rw [Block.headerEnd_error rfl hres]; exact ⟨.inr rfl, rfl⟩

/-- PARSE of a source runs its header phase to the end (R97, R105). -/
theorem FeedsSource.ran_parse {s : State} {src : List Byte} {ts : List Turn} (h : FeedsSource s 0x1 src ts)
    (hts : channelsOnly ts) (hcount : headerWords src ≤ ts.count (.port .inp)) :
    ∃ bus, ran (ts.length + 1) s =
      { s with
        blk := (s.blk.startDecodeFamily 0x1).headerEnd src
        env := { s.env with inp := s.env.inp.drop (headerWords src), turns := [], bus := bus } } := by
  obtain ⟨eos, rest, hinp, heos⟩ := h.source
  obtain ⟨bus, hstart⟩ := h.stepped_start (.inl rfl)
  obtain ⟨hended, hpout⟩ := s.blk.headerEnd_parse_ended src
  refine ⟨bus, ?_⟩
  let s₁ : State := { s with blk := s.blk.startDecodeFamily 0x1, env := { s.env with turns := ts, bus := bus } }
  have hzero : s₁.collecting src 0 ts = s₁ := by
    rw [State.collecting, Block.collecting_zero]; rfl
  have hs : stepped s = s₁.collecting src 0 ts := hstart.trans hzero.symm
  show ran ts.length (stepped s) = _
  rw [hs]
  exact ran_collecting rfl rfl hinp heos hended hpout hts (by unfold headerWords; omega) (by omega)

/-- Settles O53: PARSE runs its header phase to the end, which is what the reference says. -/
theorem parseRefinesParseHeader : Obligations.ParseRefinesParseHeader := by
  intro s src ts h hts hcount
  obtain ⟨bus, hran⟩ := h.ran_parse hts hcount
  refine ⟨_, run_eq _ s, ?_⟩
  rw [hran]
  refine ⟨rfl, rfl, fun hd hok => ?_, fun e herr => ?_⟩
  · obtain ⟨hlen, rfl, -⟩ := parseHeader_eq_ok hok
    have hhdr := (s.blk.startDecodeFamily 0x1).collecting_hdr src
    obtain ⟨hgw, hgh⟩ := ((s.blk.startDecodeFamily 0x1).collecting src 54).latched_geometry
    rw [hhdr] at hgw hgh
    have hwords : headerWords src = 54 := min_eq_right (by omega)
    dsimp only
    rw [Block.headerEnd_ok _ hok, Block.validated_parse rfl, hwords]
    exact ⟨rfl, hhdr, rfl, hgw, hgh, rfl, rfl⟩
  · dsimp only
    rw [Block.headerEnd_error rfl herr]
    refine ⟨rfl, rfl, rfl, rfl, ?_, rfl⟩
    exact (BitVec.toNat_ofNat ..).trans (Nat.mod_eq_of_lt (by omega))

end Sys2Proof.Machine

/-! ## The padding of a row (O10, O11) -/

namespace Sys2Proof.Machine

/-- Settles O10: PAD is w mod 4, and `3w + p` is a multiple of 4 exactly when `p` and `w` agree mod 4. -/
theorem paddingIsLeast : Obligations.PaddingIsLeast := by
  intro w
  rw [padOf_eq]
  exact ⟨by omega, by omega, fun p hp => by omega, rfl⟩

/-- Settles O11: a row is `3w + w mod 4` bytes long. -/
theorem rowBytesBounds : Obligations.RowBytesBounds := by
  intro w h
  have hrow := rowBytesOf_eq w
  refine ⟨by omega, fun hw => by omega, ?_⟩
  rw [Nat.mul_eq_zero, ← Nat.le_zero, ← not_lt, rowBytesOf_pos, not_not]

end Sys2Proof.Machine

/-! ## The rules of the gap and of the pixel data -/

namespace Sys2Proof.Machine

/-! ### When an IN byte is taken there, and as what -/

theorem Block.inReady_of_pixel {b : Block} (hp : b.phase = .dPix ∨ b.phase = .dPad) (hr : b.rpos = 54) (hpo : b.pout = none) :
    b.inReady = true :=
  b.inReady_iff.mpr (.inr (.inr ⟨hp, hr, hpo⟩))

theorem Block.takeByte_dSkip (x : Byte) {b : Block} (hp : b.phase = .dSkip) : b.takeByte x = b.gapByte := by
  rw [Block.takeByte, hp]

theorem Block.takeByte_of_pixel (x : Byte) {b : Block} (hp : b.phase = .dPix ∨ b.phase = .dPad) :
    b.takeByte x = ({ b with pos := b.pos + 1 }).consume x := by
  rw [Block.takeByte]
  rcases hp with e | e <;> rw [e]

/-- A data byte the block is ready for in the pixel phase is counted in POS and consumed (R117). -/
theorem exec_inByte_pixel (x : Byte) {s : State} (hp : s.blk.phase = .dPix ∨ s.blk.phase = .dPad) (hr : s.blk.rpos = 54)
    (hpo : s.blk.pout = none) :
    exec (.inByte x) s = .next { s with
      blk := ({ s.blk with pos := s.blk.pos + 1 }).consume x, env := { s.env with inp := s.env.inp.tail } } := by
  rw [exec_inByte_ready x (Block.inReady_of_pixel hp hr hpo), Block.takeByte_of_pixel x hp]

theorem Block.consume_dPix (x : Byte) {b : Block} (hp : b.phase = .dPix) : b.consume x = b.consumePix x :=
  if_neg (by simp [hp])

theorem Block.consume_dPad (x : Byte) {b : Block} (hp : b.phase = .dPad) : b.consume x = b.consumePad :=
  if_pos hp

/-- What a data byte does depends neither on rpos nor on POS (41_row_aligner.md R117). -/
theorem Block.consume_place (x : Byte) (b : Block) (r : BitVec 6) (p : BitVec 64) :
    ({ b with rpos := r, pos := p }).consume x = { b.consume x with rpos := r, pos := p } := by
  unfold Block.consume Block.consumePad Block.consumePix Block.rowEnd Block.pixelWord Block.rowBytes Block.pad
  dsimp only
  split_ifs <;> rfl

/-! ### A data byte, case by case -/

/-- A gap byte is counted in POS and off `skip`; the last one starts the pixel data (R119). -/
theorem Block.gapByte_eq (b : Block) :
    b.gapByte =
      { b with pos := b.pos + 1, skip := b.skip - 1, phase := if b.skip - 1 = 0 then .dPix else b.phase } := by
  unfold Block.gapByte
  dsimp only
  split_ifs <;> rfl

/-- A row ends in the next row, or after the last one in D_DRAIN or DONE (R122). -/
theorem Block.rowEnd_eq (b : Block) :
    b.rowEnd =
      { b with
        j := b.j + 1, k := 0,
        phase := if b.j + 1 = b.gh then (if b.pout.isSome then .dDrain else .done) else .dPix } := by
  unfold Block.rowEnd
  dsimp only
  split_ifs <;> rfl

/-- The block with the pixel in POUT that the red byte `x` completes. -/
def Block.pixelFull (x : Byte) (b : Block) : Block :=
  { b with k := b.k + 1, pout := some (b.pixelWord x (b.k.toNat / 3)), n := 0 }

section pixel

variable (x : Byte) {b : Block}

/-- A blue or a green byte is held (R120). -/
theorem Block.consumePix_held (hn : b.n.toNat < 2) :
    b.consumePix x = { b with k := b.k + 1, pb := b.pb.set b.n.toNat x, n := b.n + 1 } := by
  rw [Block.consumePix, if_pos hn, setIfInBounds_of_lt]

theorem Block.k_succ (hk : b.k.toNat < b.rowBytes) : (b.k + 1).toNat = b.k.toNat + 1 := by
  have hrow : b.rowBytes = 3 * b.gw.toNat + b.gw.toNat % 4 := rowBytesOf_eq _
  exact add_one_toNat (by omega)

theorem Block.lt_rowBytes (hk : b.k.toNat < 3 * b.gw.toNat) : b.k.toNat < b.rowBytes :=
  Nat.lt_add_right _ hk

variable (hn : ¬ b.n.toNat < 2)
include hn

/-- A red byte completes the pixel, and at the row's end there is more to do. -/
theorem Block.consumePix_red :
    b.consumePix x =
      if (b.k + 1).toNat = 3 * b.gw.toNat then
        if 0 < b.pad then { b.pixelFull x with phase := .dPad } else (b.pixelFull x).rowEnd
      else b.pixelFull x :=
  if_neg hn

/-- The red byte of a pixel that is not its row's last. -/
theorem Block.consumePix_inner (hk : b.k.toNat < 3 * b.gw.toNat) (hlast : b.k.toNat + 1 ≠ 3 * b.gw.toNat) :
    b.consumePix x = b.pixelFull x := by
  rw [b.consumePix_red x hn, Block.k_succ (Block.lt_rowBytes hk), if_neg hlast]

/-- The red byte of a row's last pixel, where the row has padding. -/
theorem Block.consumePix_padded (hk : b.k.toNat < 3 * b.gw.toNat) (hlast : b.k.toNat + 1 = 3 * b.gw.toNat)
    (hpad : b.pad ≠ 0) : b.consumePix x = { b.pixelFull x with phase := .dPad } := by
  rw [b.consumePix_red x hn, Block.k_succ (Block.lt_rowBytes hk), if_pos hlast, if_pos (Nat.pos_of_ne_zero hpad)]

/-- The red byte of a row's last pixel, where the row has no padding. -/
theorem Block.consumePix_rowEnd (hk : b.k.toNat < 3 * b.gw.toNat) (hlast : b.k.toNat + 1 = 3 * b.gw.toNat)
    (hpad : b.pad = 0) : b.consumePix x = (b.pixelFull x).rowEnd := by
  rw [b.consumePix_red x hn, Block.k_succ (Block.lt_rowBytes hk), if_pos hlast, if_neg (by omega)]

end pixel

section padding

variable {b : Block} (hk : b.k.toNat < b.rowBytes)
include hk

/-- A padding byte that is not its row's last (R121). -/
theorem Block.consumePad_inner (hlast : b.k.toNat + 1 ≠ b.rowBytes) : b.consumePad = { b with k := b.k + 1 } := by
  rw [← Block.k_succ hk] at hlast
  exact if_neg hlast

/-- The last padding byte of a row ends it. -/
theorem Block.consumePad_rowEnd (hlast : b.k.toNat + 1 = b.rowBytes) :
    b.consumePad = ({ b with k := b.k + 1 }).rowEnd := by
  rw [← Block.k_succ hk] at hlast
  exact if_pos hlast

end padding

end Sys2Proof.Machine

/-! ## A data byte and a pixel taken (O27, O28, O29, O31, O32) -/

namespace Sys2Proof.Machine

/-- Settles O27: the block is ready in D_SKIP, and a gap byte of any value does the same. -/
theorem gapByteIsDiscarded : Obligations.GapByteIsDiscarded := by
  intro x s hp
  have hlast : s.blk.skip - 1 = 0 ↔ s.blk.skip = 1 := by bv_omega
  rw [exec_inByte_ready x (s.blk.inReady_iff.mpr (.inr (.inl hp))), Block.takeByte_dSkip x hp, Block.gapByte_eq, hp]
  simp only [hlast]

/-- Settles O28: the two bytes that are held, and the three ways on from a completed pixel. -/
theorem pixelByteIsConsumed : Obligations.PixelByteIsConsumed := by
  intro x s hp hr hpo hk e b p full rowDone
  let b₀ : Block := { s.blk with pos := s.blk.pos + 1 }
  have hexec : exec (.inByte x) s = .next { s with blk := b₀.consumePix x, env := e } := by
    rw [exec_inByte_pixel x (.inl hp) hr hpo, Block.consume_dPix x (b := b₀) hp]
  have hfull : b₀.pixelFull x = full := by
    simp only [Block.pixelFull, Block.pixelWord, b₀, full, p, b, Bool.decide_and]
  have hred : s.blk.n = 2 → ¬ b₀.n.toNat < 2 := fun hn => by
    show ¬ s.blk.n.toNat < 2
    rw [hn]; decide
  refine ⟨fun hn => ?_, fun hn => ?_, fun hn hl => ?_, fun hn hl hpad => ?_, fun hn hl hpad => ?_⟩
  · have hn0 : b₀.n = 0 := hn
    rw [hexec, Block.consumePix_held x (by rw [hn0]; decide)]
    simp only [hn0]
    rfl
  · have hn1 : b₀.n = 1 := hn
    rw [hexec, Block.consumePix_held x (by rw [hn1]; decide)]
    simp only [hn1]
    rfl
  · rw [hexec, Block.consumePix_inner x (hred hn) hk hl, hfull]
  · rw [hexec, Block.consumePix_padded x (hred hn) hk hl hpad, hfull]
  · rw [hexec, Block.consumePix_rowEnd x (hred hn) hk hl hpad, hfull, Block.rowEnd_eq]
    rfl

/-- Settles O29: a padding byte is counted, and the last one ends the row, with POUT empty. -/
theorem paddingByteIsDiscarded : Obligations.PaddingByteIsDiscarded := by
  intro x s hp hr hpo hk e
  let b₀ : Block := { s.blk with pos := s.blk.pos + 1 }
  have hexec : exec (.inByte x) s = .next { s with blk := b₀.consumePad, env := e } := by
    rw [exec_inByte_pixel x (.inr hp) hr hpo, Block.consume_dPad x (b := b₀) hp]
  refine ⟨fun hl => ?_, fun hl => ?_⟩
  · rw [hexec, Block.consumePad_inner (b := b₀) hk hl]
  · rw [hexec, Block.consumePad_rowEnd (b := b₀) hk hl, Block.rowEnd_eq]
    simp [b₀, hpo]

/-- Settles O31: the meaning of the take, where POUT holds a word. -/
theorem poutTakeGivesPixel : Obligations.PoutTakeGivesPixel := by
  intro s p hp
  show execPoutTake s = _
  rw [execPoutTake, hp]
  rfl

/-- Settles O32: the replay step and the IN transfer consume the same byte, and the consumption depends neither on rpos nor
on POS. -/
theorem replayServesHeaderByte : Obligations.ReplayServesHeaderByte := by
  intro s hp hr hpo
  let x := s.blk.hdr[s.blk.rpos.toNat]
  let t : State := { s with blk := { s.blk.consume x with rpos := s.blk.rpos + 1, pos := s.blk.pos } }
  let t' : State :=
    { s with
      blk := { s.blk.consume x with rpos := 54, pos := s.blk.pos + 1 }, env := { s.env with inp := s.env.inp.tail } }
  have hready : s.blk.replayReady = true := s.blk.replayReady_iff.mpr ⟨hp, hr, hpo⟩
  have hreplay : s.blk.replay = t.blk := by
    rw [Block.replay, hdrAt_of_lt s.blk.hdr hr]
    exact s.blk.consume_place x _ _
  have hstep (ts : List Turn) : State.internalStep { s with env := { s.env with turns := ts } }
      = { t with env := { t.env with turns := ts } } := by
    rw [State.internalStep, if_pos hready, State.onBlock, hreplay]
  refine ⟨t, t', ?_, fun ts => ?_, ?_, rfl⟩
  · rw [step_eq, stepped_nil rfl, hstep]
  · rw [step_eq, stepped_block rfl]
    exact congrArg Host.Outcome.next (hstep ts)
  · refine (exec_inByte_pixel x (s := { s with blk := { s.blk with rpos := 54 } }) hp rfl hpo).trans ?_
    exact congrArg (fun b => Host.Outcome.next { s with blk := b, env := { s.env with inp := s.env.inp.tail } })
      (s.blk.consume_place x _ _)

end Sys2Proof.Machine

/-! ## Decoding an encoded grid (O58)

The file's first 54 bytes are the generated header, which the checks accept; after it byte `m` of the pixel in column `c` of
stored row `j` stands at `j * ROWBYTES + (3 * c + m)`, because rows, and pixels in a row, all have one length. -/

namespace Sys2Proof.Machine

/-- Where an element of the concatenation of lists of one length stands. -/
theorem getD_flatMap_of_forall {α β : Type} {l : List α} {f : α → List β} {c : Nat} (h : ∀ x ∈ l, (f x).length = c)
    {j i : Nat} (hj : j < l.length) (hi : i < c) (d : β) : (l.flatMap f).getD (j * c + i) d = (f l[j]).getD i d := by
  induction l generalizing j with
  | nil => cases hj
  | cons x l ih =>
    obtain ⟨hx, hl⟩ := List.forall_mem_cons.mp h
    rw [List.flatMap_cons]
    cases j with
    | zero => rw [Nat.zero_mul, Nat.zero_add, List.getD_append _ _ _ _ (hx.symm ▸ hi), List.getElem_cons_zero]
    | succ j =>
      have hsplit : (j + 1) * c + i = c + (j * c + i) := by rw [Nat.succ_mul]; omega
      rw [hsplit, List.getD_append_right _ _ _ _ (by omega), hx, Nat.add_sub_cancel_left]
      exact ih hl (Nat.lt_of_succ_lt_succ hj)

/-! ### The header of the file -/

theorem headerOf_genHeaderBytes (cfg : Config) (w h : Nat) (rows : List Byte) :
    headerOf (genHeaderBytes cfg w h ++ rows) = genHeader cfg w h := by
  refine Vector.ext fun i hi => ?_
  rw [← hdrAt_of_lt _ hi, ← hdrAt_of_lt _ hi, hdrAt_genHeader, hdrAt_of_lt _ hi, headerOf, Vector.getElem_ofFn]
  exact List.getD_append _ _ _ _ (by rwa [length_genHeaderBytes])

/-- A generated header puts the pixel data right after itself (42_encoder.md R135). -/
theorem hdrOffset_genHeader (cfg : Config) (w h : Nat) : hdrOffset (genHeader cfg w h) = 54 := by
  simp only [hdrOffset, u32le, hdrAt_genHeader, genHeaderBytes_eq, leBytes_succ, leBytes_zero]
  rfl

theorem parseHeader_genHeaderBytes (cfg : Config) {w h : Nat} (rows : List Byte) (hw : w < 2 ^ 31) (hh : h < 2 ^ 31) :
    parseHeader (genHeaderBytes cfg w h ++ rows) = .ok (genHeader cfg w h) := by
  obtain ⟨-, -, hsig, hvar⟩ := genHeader_u32 cfg w h hw hh
  have hlen : ¬ (genHeaderBytes cfg w h ++ rows).length < 54 := by
    rw [List.length_append, length_genHeaderBytes]; omega
  rw [parseHeader, if_neg hlen, headerOf_genHeaderBytes, if_pos hsig, hvar]
  rfl

/-! ### The pixels of the file -/

/-- A stored row begins with the bytes of its pixels, blue, green, red (R144). -/
theorem getD_rowBytesOut {w c m : Nat} {row : List Pixel} (hw : row.length = w) (hc : c < row.length) (hm : m < 3) :
    (rowBytesOut w row).getD (3 * c + m) 0 = [row[c].b, row[c].g, row[c].r].getD m 0 := by
  have hthree : ∀ p ∈ row, [p.b, p.g, p.r].length = 3 := fun _ _ => rfl
  have hlen : (row.flatMap fun p => [p.b, p.g, p.r]).length = row.length * 3 := length_flatMap_of_forall hthree
  rw [rowBytesOut, List.getD_append _ _ _ _ (by omega), Nat.mul_comm]
  exact getD_flatMap_of_forall hthree hc hm 0

section file

variable {cfg : Config} {w h : Nat} {g : Grid} (hs : g.hasSize w h)
include hs

/-- Byte `m` of the pixel in column `c` of stored row `j`, which is grid row `h - 1 - j`. -/
theorem srcAt_encoded {j c m : Nat} (hj : h - 1 - j < g.length) (hjh : j < h) (hc : c < g[h - 1 - j].length) (hm : m < 3) :
    srcAt (genHeaderBytes cfg w h ++ g.reverse.flatMap (rowBytesOut w)) (54 + j * rowBytesOf w + 3 * c + m)
      = [g[h - 1 - j][c].b, g[h - 1 - j][c].g, g[h - 1 - j][c].r].getD m 0 := by
  obtain ⟨hrows, hcols⟩ := hs
  have hrow : g[h - 1 - j].length = w := hcols _ (List.getElem_mem hj)
  have hlens : ∀ row ∈ g.reverse, (rowBytesOut w row).length = rowBytesOf w := fun row hr =>
    length_rowBytesOut (hcols row (List.mem_reverse.mp hr))
  have hin : 3 * c + m < rowBytesOf w := by rw [rowBytesOf]; omega
  have hrev : g.reverse[j]'(by rw [List.length_reverse]; omega) = g[h - 1 - j] := by
    rw [List.getElem_reverse]; simp only [hrows]
  rw [srcAt, List.getD_append_right _ _ _ _ (by rw [length_genHeaderBytes]; omega), length_genHeaderBytes,
    show 54 + j * rowBytesOf w + 3 * c + m - 54 = j * rowBytesOf w + (3 * c + m) by omega, getD_flatMap_of_forall hlens (by rw [List.length_reverse]; omega) hin, hrev,
    getD_rowBytesOut hrow hc hm]

/-- The grid that the reference reads from the file is the grid encoded. -/
theorem gridOf_encoded (hw : w < 2 ^ 31) (hh : h < 2 ^ 31) :
    gridOf (genHeaderBytes cfg w h ++ g.reverse.flatMap (rowBytesOut w)) (genHeader cfg w h) = g := by
  obtain ⟨hgw, hgh, -, -⟩ := genHeader_u32 cfg w h hw hh
  have hrows := hs.1
  simp only [gridOf, hgw, hgh, hdrOffset_genHeader]
  refine List.ext_getElem (by simp [hrows]) fun r hr hr' => ?_
  rw [List.getElem_map, List.getElem_range]
  have hcols : g[r].length = w := hs.2 _ (List.getElem_mem hr')
  refine List.ext_getElem (by simp [hcols]) fun c hc hc' => ?_
  rw [List.getElem_map, List.getElem_range]
  obtain ⟨j, hjh, rfl⟩ : ∃ j, j < h ∧ r = h - 1 - j := ⟨h - 1 - r, by omega, by omega⟩
  have hbyte (m : Nat) (hm : m < 3) := srcAt_encoded (cfg := cfg) hs hr' hjh hc' hm
  have hblue := hbyte 0 (by omega)
  rw [Nat.add_zero] at hblue
  rw [show h - 1 - (h - 1 - j) = j by omega, pixelAt, hbyte 2 (by omega), hbyte 1 (by omega), hblue]
  rfl

end file

/-- Settles O58: the file parses to its generated header, is long enough for its pixels, and holds the grid's. -/
theorem decodeOfEncodedGrid : Obligations.DecodeOfEncodedGrid := by
  intro cfg w h g out hs hok
  have hlen := length_encodeImage hs hok
  obtain ⟨-, hbig, rfl⟩ := encodeImage_eq_ok hok
  obtain ⟨hw, hh⟩ : w < 2 ^ 31 ∧ h < 2 ^ 31 := by omega
  obtain ⟨hgw, hgh, -, -⟩ := genHeader_u32 cfg w h hw hh
  have hlong : ¬ (genHeaderBytes cfg w h ++ g.reverse.flatMap (rowBytesOut w)).length
      < hdrOffset (genHeader cfg w h) + pixelBytes (genHeader cfg w h) := by
    rw [hlen, fileSizeOf, hdrOffset_genHeader, pixelBytes, hgw, hgh, Config.hdrBytes]; omega
  rw [decodeImage, parseHeader_genHeaderBytes cfg _ hw hh]
  simp only [hlong, if_false, ite_self, gridOf_encoded hs hw hh]

end Sys2Proof.Machine

/-! ## DECODE computes `decodeImage` (O54)

After the header phase the block consumes the source from OFFSET on, one byte after the other, whether a byte comes from IN or is
replayed from HDR.  `Block.completed` is the list of POUT words of the pixels completed so far: each byte consumed adds to it
what it puts into POUT (`Block.Pixels.consume`), and so the words given to the host and the word in POUT are together always
that list (`State.PixelRun.given`).  `State.DecodeRun` says where a run may stand, and every step on a schedule of the channels
keeps it. -/

namespace Sys2Proof.Machine

/-! ### The pixels of the grid in stored order -/

/-- The POUT words before stored row `j`, column `c`. -/
def pixelWords (g : Grid) (w h j c : Nat) : List (BitVec 96) :=
  ((List.range j).flatMap fun j => (List.range w).map fun c => gridWord g w h j c)
    ++ (List.range c).map fun c => gridWord g w h j c

section words

variable (g : Grid) (w h j c : Nat)

theorem pixelWords_succ : pixelWords g w h j (c + 1) = pixelWords g w h j c ++ [gridWord g w h j c] := by
  simp [pixelWords, List.range_succ]

/-- The end of a row is the start of the next one. -/
theorem pixelWords_row : pixelWords g w h (j + 1) 0 = pixelWords g w h j w := by
  simp [pixelWords, List.range_succ]

/-- The end of the last row is all of the grid. -/
theorem pixelWords_all : pixelWords g w h h 0 = gridWords g w h := by
  simp [pixelWords, gridWords]

theorem gridWords_empty (he : w = 0 ∨ h = 0) : gridWords g w h = [] := by
  rcases he with rfl | rfl <;> simp [gridWords]

end words

/-- The reference's pixel in stored row `j`, column `c` (41_row_aligner.md R115, R128). -/
theorem gridOf_getD (src : List Byte) (hd : Vector Byte 54) {j c : Nat} (hj : j < u32le hd 22) (hc : c < u32le hd 18)
    (p : Pixel) :
    ((gridOf src hd).getD (u32le hd 22 - 1 - j) []).getD c p
      = pixelAt src (hdrOffset hd + j * rowBytesOf (u32le hd 18) + 3 * c) := by
  have hr : u32le hd 22 - 1 - j < u32le hd 22 := by omega
  have hrow : u32le hd 22 - 1 - (u32le hd 22 - 1 - j) = j := by omega
  simp [gridOf, List.getD, hr, hc, hrow]

/-! ### What the reference answers -/

section reference

variable {src : List Byte} {h : Vector Byte 54} (hok : parseHeader src = .ok h)
include hok

theorem decodeImage_eq_ok (hlong : pixelBytes h = 0 ∨ hdrOffset h + pixelBytes h ≤ src.length) :
    decodeImage src = .ok (gridOf src h) := by
  rw [decodeImage, hok]
  rcases hlong with h0 | hle
  · exact if_pos h0
  · simp only [not_lt.mpr hle, if_false, ite_self]

theorem decodeImage_eq_truncated (h0 : pixelBytes h ≠ 0) (hshort : src.length < hdrOffset h + pixelBytes h) :
    decodeImage src = .error .truncated := by
  rw [decodeImage, hok]
  exact (if_neg h0).trans (if_pos hshort)

end reference

theorem decodeImage_eq_error {src : List Byte} {e : FormatError} (herr : parseHeader src = .error e) :
    decodeImage src = .error e := by
  rw [decodeImage, herr]

/-! ### What the consumption of a data byte can do -/

/-- The six outcomes of a data byte consumed in the pixel phase, with what holds of the row in each (R120, R121, R122). -/
inductive Block.Consumes (x : Byte) (b : Block) : Block → Prop where
  | hold (hn : b.n.toNat < 2) : b.phase = .dPix → b.n.toNat = b.k.toNat % 3 → b.k.toNat < 3 * b.gw.toNat →
      Consumes x b { b with k := b.k + 1, pb := b.pb.set b.n.toNat x, n := b.n + 1 }
  | inner : b.phase = .dPix → b.n.toNat = 2 → b.k.toNat % 3 = 2 → b.k.toNat + 1 < 3 * b.gw.toNat →
      Consumes x b (b.pixelFull x)
  | padded : b.n.toNat = 2 → b.k.toNat % 3 = 2 → b.k.toNat + 1 = 3 * b.gw.toNat →
      Consumes x b { b.pixelFull x with phase := .dPad }
  | row : b.n.toNat = 2 → b.k.toNat % 3 = 2 → b.k.toNat + 1 = 3 * b.gw.toNat → b.pad = 0 →
      Consumes x b { b.pixelFull x with j := b.j + 1, k := 0, phase := if b.j + 1 = b.gh then .dDrain else .dPix }
  | padding : b.phase = .dPad → b.n = 0 → 3 * b.gw.toNat ≤ b.k.toNat → b.k.toNat + 1 < b.rowBytes →
      Consumes x b { b with k := b.k + 1 }
  | padRow : b.n = 0 → 3 * b.gw.toNat ≤ b.k.toNat → b.k.toNat + 1 = b.rowBytes →
      Consumes x b { b with j := b.j + 1, k := 0, phase := if b.j + 1 = b.gh then .done else .dPix }

/-- In the pixel phase the row is one of the image's, and the byte is one of the row's. -/
theorem Block.Inv.row_bounds {b : Block} (h : b.Inv) (hp : b.phase = .dPix ∨ b.phase = .dPad) :
    b.j.toNat < b.gh.toNat ∧ b.k.toNat < b.rowBytes := by
  have hpos := h.position
  rcases hp with e | e <;> simp only [Block.positionOk, e] at hpos
  · obtain ⟨hj, hk, -⟩ := hpos
    exact ⟨hj, Block.lt_rowBytes hk⟩
  · obtain ⟨hj, -, hk, -⟩ := hpos
    exact ⟨hj, hk⟩

/-- In the pixel phase rpos and POS say where the next byte stands in the source (20_memory.md R53). -/
theorem Block.Inv.place {b : Block} (h : b.Inv) (hp : b.phase = .dPix ∨ b.phase = .dPad) :
    b.rpos.toNat = min 54 b.sourceIndex ∧ b.pos.toNat = max 54 b.sourceIndex := by
  have hpos := h.position
  rcases hp with e | e <;> simp only [Block.positionOk, e] at hpos
  · obtain ⟨-, -, -, hrpos, hpos, -⟩ := hpos
    exact ⟨hrpos, hpos⟩
  · obtain ⟨-, -, -, -, hrpos, hpos, -⟩ := hpos
    exact ⟨hrpos, hpos⟩

theorem Block.Inv.consumes {b : Block} (h : b.Inv) (x : Byte) (hp : b.phase = .dPix ∨ b.phase = .dPad)
    (hpo : b.pout = none) : b.Consumes x (b.consume x) := by
  have hpos := h.position
  obtain ⟨-, hrow⟩ := h.row_bounds hp
  rcases hp with e | e <;> simp only [Block.positionOk, e] at hpos
  · obtain ⟨-, hk, hn, -⟩ := hpos
    rw [Block.consume_dPix x e]
    by_cases hheld : b.n.toNat < 2
    · rw [Block.consumePix_held x hheld]
      exact .hold hheld e hn hk
    · by_cases hlast : b.k.toNat + 1 = 3 * b.gw.toNat
      · by_cases hpad : b.pad = 0
        · rw [Block.consumePix_rowEnd x hheld hk hlast hpad, Block.rowEnd_eq]
          exact .row (by omega) (by omega) hlast hpad
        · rw [Block.consumePix_padded x hheld hk hlast hpad]
          exact .padded (by omega) (by omega) hlast
      · rw [Block.consumePix_inner x hheld hk hlast]
        exact .inner e (by omega) (by omega) (by omega)
  · obtain ⟨-, hk, -, hn, -⟩ := hpos
    rw [Block.consume_dPad x e]
    by_cases hlast : b.k.toNat + 1 = b.rowBytes
    · rw [Block.consumePad_rowEnd hrow hlast, Block.rowEnd_eq]
      simp only [hpo, Option.isSome_none, Bool.false_eq_true, if_false]
      exact hpo ▸ .padRow hn hk hlast
    · rw [Block.consumePad_inner hrow hlast]
      exact .padding e hn hk (by omega)

/-- Each byte consumed is one further in the source (20_memory.md R53). -/
theorem Block.Consumes.sourceIndex {x : Byte} {b b' : Block} (e : b.Consumes x b') (hj : b.j.toNat < b.gh.toNat) :
    b'.sourceIndex = b.sourceIndex + 1 := by
  have hrow : b.rowBytes = 3 * b.gw.toNat + b.pad := rfl
  have hj1 : (b.j + 1).toNat = b.j.toNat + 1 := add_one_toNat (by omega)
  have hmul : (b.j.toNat + 1) * b.rowBytes = b.j.toNat * b.rowBytes + b.rowBytes := Nat.succ_mul _ _
  have hk1 : b.k.toNat < b.rowBytes → (b.k + 1).toNat = b.k.toNat + 1 := Block.k_succ
  have hnext : b.k.toNat + 1 = b.rowBytes →
      hdrOffset b.hdr + (b.j + 1).toNat * b.rowBytes + 0 = b.sourceIndex + 1 := fun hend => by
    rw [hj1, hmul, Block.sourceIndex]; omega
  have hsame : b.k.toNat < b.rowBytes →
      hdrOffset b.hdr + b.j.toNat * b.rowBytes + (b.k + 1).toNat = b.sourceIndex + 1 := fun hlt => by
    rw [hk1 hlt, Block.sourceIndex]; omega
  cases e with
  | hold | inner | padded | padding => exact hsame (by omega)
  | row | padRow => exact hnext (by omega)

/-! ### The pixel data of a source -/

/-- The source index of the blue byte of the pixel in progress. -/
def Block.pixelBase (b : Block) : Nat := hdrOffset b.hdr + b.j.toNat * b.rowBytes + 3 * (b.k.toNat / 3)

/-- The POUT words of the pixels completed so far. -/
def Block.completed (src : List Byte) (b : Block) : List (BitVec 96) :=
  pixelWords (gridOf src b.hdr) b.gw.toNat b.gh.toNat b.j.toNat (b.k.toNat / 3)

/-- The POUT word the block offers, if it offers one. -/
def Block.offered (b : Block) : List (BitVec 96) := b.pout.toList.map PoutWord.pack

/-- A block past the header of a source with pixels: pb holds the bytes of the pixel in progress, and DONE is after the last
row. -/
structure Block.Pixels (src : List Byte) (b : Block) : Prop where
  phase : b.phase ∈ [Phase.dSkip, .dPix, .dPad, .dDrain, .done]
  hdr : b.hdr = headerOf src
  nonempty : pixelBytes b.hdr ≠ 0
  held : ∀ i, (hi : i < 2) → i < b.n.toNat → b.pb[i] = srcAt src (b.pixelBase + i)
  finished : b.phase = .done → b.j = b.gh ∧ b.k = 0 ∧ b.pos.toNat = max 54 b.sourceIndex

/-- Past the header phase the latched geometry is the header's (10_state.md R25). -/
theorem Block.Inv.geometry {b : Block} (h : b.Inv) (hp : b.phase ∈ [Phase.dSkip, .dPix, .dPad, .dDrain, .done]) :
    u32le b.hdr 18 = b.gw.toNat ∧ u32le b.hdr 22 = b.gh.toNat := by
  have hhv : b.hv = true := by
    apply h.hv_phase <;> intro e <;> simp [e] at hp
  obtain ⟨-, -, hgw, hgh⟩ := h.hv_valid hhv
  exact ⟨hgw, hgh⟩

section consume

variable {src : List Byte} {b b' : Block}

/-- The word a completed pixel puts into POUT is the reference's (R129). -/
theorem Block.Pixels.pixelWord_pack (h : b.Pixels src) (hinv : b.Inv) (hj : b.j.toNat < b.gh.toNat) (hn : b.n.toNat = 2)
    (hk3 : b.k.toNat % 3 = 2) (hk : b.k.toNat < 3 * b.gw.toNat) :
    (b.pixelWord (srcAt src b.sourceIndex) (b.k.toNat / 3)).pack
      = gridWord (gridOf src b.hdr) b.gw.toNat b.gh.toNat b.j.toNat (b.k.toNat / 3) := by
  obtain ⟨hgw, hgh⟩ := hinv.geometry h.phase
  have hred : b.sourceIndex = b.pixelBase + 2 := by rw [Block.sourceIndex, Block.pixelBase]; omega
  have hgrid (p : Pixel) := gridOf_getD src b.hdr (j := b.j.toNat) (c := b.k.toNat / 3) (by omega) (by omega) p
  have hblue : b.pb[0] = srcAt src b.pixelBase := h.held 0 (by omega) (by omega)
  have hgreen : b.pb[1] = srcAt src (b.pixelBase + 1) := h.held 1 (by omega) (by omega)
  have hvrow : b.gh - 1 - b.j = BitVec.ofNat 32 (b.gh.toNat - 1 - b.j.toNat) := by bv_omega
  rw [hgw, hgh] at hgrid
  rw [gridWord, hgrid, Block.pixelWord, hblue, hgreen, hred, hvrow]
  rfl

/-- The pixels completed grow by what the byte puts into POUT. -/
theorem Block.Consumes.completed (e : b.Consumes (srcAt src b.sourceIndex) b') (h : b.Pixels src) (hinv : b.Inv)
    (hj : b.j.toNat < b.gh.toNat) (hpo : b.pout = none) : b'.completed src = b.completed src ++ b'.offered := by
  have hrow : b.rowBytes = 3 * b.gw.toNat + b.gw.toNat % 4 := rowBytesOf_eq _
  have hj1 : (b.j + 1).toNat = b.j.toNat + 1 := add_one_toNat (by omega)
  have hk1 : b.k.toNat < b.rowBytes → (b.k + 1).toNat = b.k.toNat + 1 := Block.k_succ
  have hquiet : b'.completed src = b.completed src → b'.pout = none → b'.completed src = b.completed src ++ b'.offered :=
    fun hc hp => by rw [hc, Block.offered, hp]; exact (List.append_nil _).symm
  have hfull : b.n.toNat = 2 → b.k.toNat % 3 = 2 → b.k.toNat < 3 * b.gw.toNat →
      pixelWords (gridOf src b.hdr) b.gw.toNat b.gh.toNat b.j.toNat ((b.k.toNat + 1) / 3)
        = b.completed src ++ (b.pixelFull (srcAt src b.sourceIndex)).offered := fun hn hk3 hk => by
    rw [show (b.k.toNat + 1) / 3 = b.k.toNat / 3 + 1 by omega, pixelWords_succ, ← h.pixelWord_pack hinv hj hn hk3 hk]
    rfl
  have hend : pixelWords (gridOf src b.hdr) b.gw.toNat b.gh.toNat (b.j + 1).toNat ((0 : BitVec 34).toNat / 3)
      = pixelWords (gridOf src b.hdr) b.gw.toNat b.gh.toNat b.j.toNat b.gw.toNat := by
    rw [hj1]; exact pixelWords_row ..
  cases e with
  | hold hn _ hmod hk =>
    refine hquiet ?_ hpo
    rw [Block.completed, Block.completed, hk1 (Block.lt_rowBytes hk), show (b.k.toNat + 1) / 3 = b.k.toNat / 3 by omega]
  | inner _ hn hk3 hk =>
    rw [← hfull hn hk3 (by omega), ← hk1 (by omega)]
    rfl
  | padded hn hk3 hk =>
    refine Eq.trans ?_ (hfull hn hk3 (by omega))
    rw [← hk1 (by omega)]
    rfl
  | row hn hk3 hk =>
    refine hend.trans (Eq.trans ?_ (hfull hn hk3 (by omega)))
    rw [show (b.k.toNat + 1) / 3 = b.gw.toNat by omega]
  | padding _ _ hk hlt =>
    refine hquiet ?_ hpo
    rw [Block.completed, Block.completed, hk1 (by omega), show (b.k.toNat + 1) / 3 = b.k.toNat / 3 by omega]
  | padRow _ hk hlt =>
    refine hquiet (hend.trans ?_) hpo
    rw [Block.completed, show b.k.toNat / 3 = b.gw.toNat by omega]

/-- pb holds the bytes of the pixel in progress after the byte as before it. -/
theorem Block.Consumes.held (e : b.Consumes (srcAt src b.sourceIndex) b') (h : b.Pixels src) :
    ∀ i, (hi : i < 2) → i < b'.n.toNat → b'.pb[i] = srcAt src (b'.pixelBase + i) := by
  cases e with
  | hold hn _ hmod hk =>
    intro i hi hin
    have hk1 : (b.k + 1).toNat = b.k.toNat + 1 := Block.k_succ (Block.lt_rowBytes hk)
    have hn1 : (b.n + 1).toNat = b.n.toNat + 1 := add_one_toNat (by omega)
    have hbase : hdrOffset b.hdr + b.j.toNat * b.rowBytes + 3 * ((b.k + 1).toNat / 3) = b.pixelBase := by
      rw [hk1, Block.pixelBase]; omega
    have hin : i < (b.n + 1).toNat := hin
    show (b.pb.set b.n.toNat (srcAt src b.sourceIndex))[i]
      = srcAt src (hdrOffset b.hdr + b.j.toNat * b.rowBytes + 3 * ((b.k + 1).toNat / 3) + i)
    rw [hbase, Vector.getElem_set]
    split
    · next hni => rw [← hni, hmod, Block.sourceIndex, Block.pixelBase]; congr 1; omega
    · exact h.held i hi (by omega)
  | inner | padded | row => intro i hi hin; cases hin
  | padding _ hn | padRow hn => intro i hi hin; rw [show _ = (0 : BitVec 2) from hn] at hin; cases hin

/-- Where the byte leads; DONE is after the last row. -/
theorem Block.Consumes.phase {x : Byte} (e : b.Consumes x b') :
    b'.phase ∈ [Phase.dSkip, .dPix, .dPad, .dDrain, .done] ∧ (b'.phase = .done → b'.j = b'.gh ∧ b'.k = 0) := by
  cases e with
  | hold _ hp | inner hp | padding hp => simp [Block.pixelFull, hp]
  | padded => simp
  | row => dsimp only; split <;> simp
  | padRow =>
    dsimp only
    split
    · next hlast => exact ⟨by simp, fun _ => ⟨hlast, rfl⟩⟩
    · simp

/-- The header buffer is no part of what a data byte changes. -/
theorem Block.Consumes.hdr {x : Byte} (e : b.Consumes x b') : b'.hdr = b.hdr := by
  cases e <;> rfl

/-- A byte of the source consumed, at its new place, from IN or from HDR. -/
theorem Block.Pixels.consume (h : b.Pixels src) (hinv : b.Inv) (hp : b.phase = .dPix ∨ b.phase = .dPad)
    (hpo : b.pout = none) (r : BitVec 6) {p : BitVec 64} (hpos : p.toNat = max 54 (b.sourceIndex + 1))
    (hb : b' = ({ b with rpos := r, pos := p }).consume (srcAt src b.sourceIndex)) :
    b'.Pixels src ∧ b'.completed src = b.completed src ++ b'.offered := by
  have hj := (hinv.row_bounds hp).1
  have e := hinv.consumes (srcAt src b.sourceIndex) hp hpo
  rw [Block.consume_place] at hb
  have hsrc := e.sourceIndex hj
  have hheld := e.held h
  have hcomp := e.completed h hinv hj hpo
  obtain ⟨hphase, hdone⟩ := e.phase
  subst hb
  refine ⟨⟨hphase, e.hdr.trans h.hdr, e.hdr ▸ h.nonempty, hheld, fun hd => ?_⟩, hcomp⟩
  obtain ⟨hjd, hkd⟩ := hdone hd
  exact ⟨hjd, hkd, hpos.trans (congrArg _ hsrc.symm)⟩

end consume

/-! ### What a step on a schedule of the channels can do -/

/-- What a step of a block that neither takes from PIN nor offers on BOUT can do on such a schedule, with `ts` the turns left:
nothing, a replay step, a take on POUT, or a transfer on IN. -/
inductive State.ChannelStep (t : State) (ts : List Turn) : State → Prop where
  | idle : ChannelStep t ts { t with env := { t.env with turns := ts } }
  | replay : t.blk.replayReady = true →
      ChannelStep t ts { t with blk := t.blk.replay, env := { t.env with turns := ts } }
  | pout (p : PoutWord) : t.blk.pout = some p →
      ChannelStep t ts
        { t with blk := t.blk.poutTaken, env := { t.env with turns := ts, pixelsOut := t.env.pixelsOut ++ [p.pack] } }
  | inp (w : BitVec 9) (q : List (BitVec 9)) : t.blk.inReady = true → t.env.inp = w :: q →
      ChannelStep t ts
        { t with
          blk := if w.getLsbD 8 then t.blk.takeEos else t.blk.takeByte (w.extractLsb' 0 8)
          env := { t.env with turns := ts, inp := q } }

/-- The block's own step. -/
theorem internalStep_channelStep (t : State) (ts : List Turn) :
    t.ChannelStep ts (State.internalStep { t with env := { t.env with turns := ts } }) := by
  rw [State.internalStep]
  split
  · exact .replay ‹_›
  · exact .idle

theorem stepped_channelStep {t : State} (hts : channelsOnly t.env.turns) (hpin : t.blk.pinReady = false)
    (hbout : t.blk.boutValid = false) : t.ChannelStep t.env.turns.tail (stepped t) := by
  cases hturns : t.env.turns with
  | nil =>
    have ht : t = { t with env := { t.env with turns := [] } } := by rw [← hturns]
    rw [stepped_nil hturns]
    exact ht ▸ internalStep_channelStep t []
  | cons u ts =>
    have hu := hts u (hturns ▸ List.mem_cons_self)
    by_cases hw : t.blk.waitsFor u
    · match u with
      | .block => rw [stepped_block hturns]; exact internalStep_channelStep t ts
      | .port .pout =>
        obtain ⟨p, hp⟩ := Option.isSome_iff_exists.mp hw
        rw [stepped_pout hturns, hp]
        exact .pout p hp
      | .port .inp =>
        cases hq : t.env.inp with
        | nil => rw [stepped_inp_nil hturns hq]; exact .idle
        | cons w q => rw [stepped_inp hturns hq, if_pos (show t.blk.inReady = true from hw)]; exact .inp w q hw hq
    · rw [stepped_unready hturns hu hw hpin hbout]
      exact .idle

/-- Such a step uses up the turn and gives the host no byte. -/
theorem State.ChannelStep.env {t t' : State} {ts : List Turn} (e : t.ChannelStep ts t') :
    t'.env.turns = ts ∧ t'.env.bytesOut = t.env.bytesOut := by
  cases e <;> exact ⟨rfl, rfl⟩

/-! ### Where a run of DECODE may stand -/

/-- What R129 says of DONE: the reference accepts, and the host has the words of its grid. -/
def State.Decoded (t : State) (src : List Byte) (s : State) : Prop :=
  ∃ g, decodeImage src = .ok g
    ∧ t.env.pixelsOut = s.env.pixelsOut ++ gridWords g t.blk.gw.toNat t.blk.gh.toNat
    ∧ t.blk.gw.toNat = u32le (headerOf src) 18 ∧ t.blk.gh.toNat = u32le (headerOf src) 22
    ∧ t.blk.pos.toNat = (if pixelBytes (headerOf src) = 0 then 54
        else max 54 (hdrOffset (headerOf src) + pixelBytes (headerOf src)))
    ∧ t.env.inp = s.env.inp.drop t.blk.pos.toNat

/-- What R129 says of ERROR: the reference rejects, with the same error. -/
def State.Rejected (t : State) (src : List Byte) (s : State) : Prop :=
  ∃ e, decodeImage src = .error e
    ∧ t.blk.errCode = e.code ∧ t.blk.errVcause = e.vcause
    ∧ (∀ h, parseHeader src = .ok h → t.blk.errStage = .pixel ∧ t.blk.pos.toNat = src.length
        ∧ t.env.inp = s.env.inp.drop (src.length + 1))
    ∧ (∀ e', parseHeader src = .error e' → t.blk.errStage = .header ∧ t.blk.pos.toNat = min src.length 54)

/-- A run past the header of a source that the checks accept: POS words are taken, and the words given and the word offered are
those of the pixels completed. -/
structure State.PixelRun (t : State) (src : List Byte) (s : State) : Prop where
  pixels : t.blk.Pixels src
  accepted : parseHeader src = .ok (headerOf src)
  inp : t.env.inp = s.env.inp.drop t.blk.pos.toNat
  pos_le : t.blk.pos.toNat ≤ src.length
  given : t.env.pixelsOut ++ t.blk.offered = s.env.pixelsOut ++ t.blk.completed src

/-- Where a run of DECODE may stand that has started the header phase in `s`: in the header phase, in the pixel data, or at an
end without pixels. -/
inductive State.DecodeRun (src : List Byte) (s : State) : State → Prop where
  | header (n : Nat) (ts : List Turn) : n < headerWords src → DecodeRun src s (s.collecting src n ts)
  | pixels {t : State} : t.PixelRun src s → DecodeRun src s t
  | empty {t : State} : t.blk.phase = .done → t.blk.pout = none → t.Decoded src s → DecodeRun src s t
  | error {t : State} : t.blk.phase = .error → t.blk.pout = none → t.Rejected src s → DecodeRun src s t

/-- A host that offers a source to a DECODE that has just started. -/
structure State.StartsDecode (s : State) (src : List Byte) : Prop where
  block : ∃ b : Block, s.blk = b.startDecodeFamily 0x2
  source : ∃ eos rest, s.env.inp = src.map byteWord ++ eos :: rest ∧ eos.getLsbD 8 = true

theorem State.StartsDecode.phase {src : List Byte} {s : State} (hs : s.StartsDecode src) : s.blk.phase = .dHdr := by
  obtain ⟨b, hb⟩ := hs.block
  rw [hb]; rfl

theorem State.StartsDecode.pout {src : List Byte} {s : State} (hs : s.StartsDecode src) : s.blk.pout = none := by
  obtain ⟨b, hb⟩ := hs.block
  rw [hb]; rfl

/-! ### The header phase -/

/-- At the start of the pixel data no pixel is completed. -/
theorem Block.completed_start {src : List Byte} {b : Block} (hj : b.j = 0) (hk : b.k = 0) : b.completed src = [] := by
  simp [Block.completed, hj, hk, pixelWords]

section header

variable {src : List Byte} {s : State}

/-- Where the header phase leads if the reference accepts the header: to the pixel data, or to DONE if there is none (R116). -/
theorem State.StartsDecode.headerEnd_ok (hs : s.StartsDecode src) {h : Vector Byte 54} (hok : parseHeader src = .ok h)
    (ts : List Turn) : State.DecodeRun src s (s.headerEnd src ts) := by
  obtain ⟨b, hb⟩ := hs.block
  obtain ⟨hlen, rfl, -⟩ := parseHeader_eq_ok hok
  let c : Block := (s.blk.collecting src 54).latched
  have hend : s.blk.headerEnd src = c.pixelStart := by
    rw [Block.headerEnd_ok _ hok, Block.validated_of_ne (b := s.blk.collecting src 54) (show s.blk.op ≠ 0x1 by simp [hb])]
  have hhdr : c.hdr = headerOf src := s.blk.collecting_hdr src
  obtain ⟨hgw, hgh⟩ : c.gw.toNat = u32le c.hdr 18 ∧ c.gh.toNat = u32le c.hdr 22 :=
    (s.blk.collecting src 54).latched_geometry
  have hsize : pixelBytes c.hdr = c.rowBytes * c.gh.toNat := by rw [pixelBytes, ← hgw, ← hgh]; rfl
  have hempty := c.noPixels_iff
  rw [← hsize] at hempty
  have hwords : headerWords src = 54 := min_eq_right (by omega)
  have hpout : c.pout = none := hs.pout
  have hpos : c.pos.toNat = 54 := rfl
  rw [State.headerEnd, hend, hwords]
  by_cases h0 : pixelBytes c.hdr = 0
  · rw [Block.pixelStart_empty (hempty.mp h0)]
    rw [hhdr] at h0 hgw hgh
    refine .empty rfl hpout ⟨_, decodeImage_eq_ok hok (.inl h0), ?_, hgw, hgh, ?_, rfl⟩
    · dsimp only
      rw [gridWords_empty _ _ _ (hempty.mp (hhdr ▸ h0)), List.append_nil]
    · rw [if_pos h0]; exact hpos
  · have hrun (r : BitVec 6) (k : Word) (p : Phase) (hp : p = .dSkip ∨ p = .dPix) : State.DecodeRun src s
        { s with
          blk := { c with j := 0, k := 0, n := 0, rpos := r, skip := k, phase := p },
          env := { s.env with inp := s.env.inp.drop 54, turns := ts } } := by
      refine .pixels ⟨⟨?_, hhdr, h0, fun i _ hi => absurd hi (Nat.not_lt_zero i), fun hd => ?_⟩, hok, rfl, hlen, ?_⟩
      · rcases hp with rfl | rfl <;> simp
      · rcases hp with rfl | rfl <;> cases hd
      · dsimp only
        rw [Block.completed_start rfl rfl, Block.offered, hpout]
        rfl
    obtain ⟨hw, hh⟩ := not_or.mp (mt hempty.mpr h0)
    rcases le_or_gt 54 (hdrOffset c.hdr) with ho | ho
    · rw [Block.pixelStart_after hw hh ho]
      exact hrun _ _ _ (by split <;> simp)
    · rw [Block.pixelStart_before hw hh ho]
      exact hrun _ _ _ (.inr rfl)

/-- Where it leads if the reference rejects the header: to its error (R107). -/
theorem State.StartsDecode.headerEnd_error (hs : s.StartsDecode src) {e : FormatError} (herr : parseHeader src = .error e)
    (ts : List Turn) : State.DecodeRun src s (s.headerEnd src ts) := by
  obtain ⟨b, hb⟩ := hs.block
  have hend := Block.headerEnd_error (b := s.blk) (by rw [hb]; rfl) herr
  rw [State.headerEnd, hend]
  refine .error ?_ ?_ ⟨e, decodeImage_eq_error herr, ?_, ?_, fun h hok => ?_, fun e' _ => ⟨?_, ?_⟩⟩
  · rfl
  · rfl
  · rfl
  · rfl
  · rw [hok] at herr; cases herr
  · rfl
  · exact (BitVec.toNat_ofNat ..).trans (Nat.mod_eq_of_lt (by omega))

theorem State.StartsDecode.headerEnd (hs : s.StartsDecode src) (ts : List Turn) :
    State.DecodeRun src s (s.headerEnd src ts) := by
  cases hres : parseHeader src with
  | ok h => exact hs.headerEnd_ok hres ts
  | error e => exact hs.headerEnd_error hres ts

/-- A step in the header phase: only a turn on IN changes it, and its last one ends it. -/
theorem State.StartsDecode.collecting_step (hs : s.StartsDecode src) {n : Nat} (hn : n < headerWords src) {ts : List Turn}
    (hts : channelsOnly ts) : State.DecodeRun src s (stepped (s.collecting src n ts)) := by
  obtain ⟨eos, rest, hq, heos⟩ := hs.source
  have hp := hs.phase
  have hpo := hs.pout
  cases ts with
  | nil =>
    have hreplay : ¬ (s.collecting src n []).blk.replayReady = true := by
      rw [Block.replayReady_iff]
      simp [State.collecting, Block.collecting, hp]
    rw [stepped_nil rfl, State.internalStep, if_neg hreplay]
    exact .header n [] hn
  | cons u ts =>
    obtain ⟨hu, -⟩ := List.forall_mem_cons.mp hts
    by_cases hin : u = .port .inp
    · subst hin
      by_cases hlast : n + 1 = headerWords src
      · rw [stepped_collecting_last hp hq heos hlast]
        exact hs.headerEnd ts
      · rw [stepped_collecting_succ hp hq (by omega)]
        exact .header (n + 1) ts (by omega)
    · rw [stepped_collecting_other hp hpo hu hin]
      exact .header n ts hn

end header

/-! ### The pixel data -/

section pixels

variable {src : List Byte} {s t : State}

/-- A step that leads to the block `b'` without a take: the words given and the word offered are still those completed. -/
theorem State.PixelRun.advance (h : t.PixelRun src s) (hpo : t.blk.pout = none) {b' : Block} (hpix : b'.Pixels src)
    (hcomp : b'.completed src = t.blk.completed src ++ b'.offered) {e : Env} (hout : e.pixelsOut = t.env.pixelsOut)
    (hinp : e.inp = s.env.inp.drop b'.pos.toNat) (hle : b'.pos.toNat ≤ src.length) :
    ({ t with blk := b', env := e } : State).PixelRun src s := by
  refine ⟨hpix, h.accepted, hinp, hle, ?_⟩
  have hgiven := h.given
  rw [Block.offered, hpo, Option.toList_none, List.map_nil, List.append_nil] at hgiven
  dsimp only
  rw [hcomp, ← List.append_assoc, ← hgiven, hout]

/-- A replay step serves the source's byte (R118). -/
theorem State.PixelRun.replay (h : t.PixelRun src s) (hinv : t.blk.Inv) (hr : t.blk.replayReady = true) (ts : List Turn) :
    ({ t with blk := t.blk.replay, env := { t.env with turns := ts } } : State).PixelRun src s := by
  obtain ⟨hp, hlt, hpo⟩ := t.blk.replayReady_iff.mp hr
  obtain ⟨hrpos, hpos⟩ := hinv.place hp
  have hidx : t.blk.rpos.toNat = t.blk.sourceIndex := by omega
  have hbyte : hdrAt t.blk.hdr t.blk.rpos.toNat = srcAt src t.blk.sourceIndex := by
    rw [h.pixels.hdr, hdrAt_of_lt _ hlt, headerOf, Vector.getElem_ofFn, ← hidx]
  obtain ⟨hpix, hcomp⟩ := h.pixels.consume (b' := t.blk.replay) hinv hp hpo (t.blk.rpos + 1) (p := t.blk.pos)
    (by omega) (by rw [Block.replay, hbyte])
  have hsame : t.blk.replay.pos = t.blk.pos := by rw [Block.replay_frame]
  exact h.advance hpo hpix hcomp rfl (hsame ▸ h.inp) (hsame ▸ h.pos_le)

/-- The host's take gives it the word offered; the one in D_DRAIN is the last. -/
theorem State.PixelRun.pout (h : t.PixelRun src s) (hinv : t.blk.Inv) {p : PoutWord} (hpo : t.blk.pout = some p)
    (ts : List Turn) :
    ({ t with
        blk := t.blk.poutTaken
        env := { t.env with turns := ts, pixelsOut := t.env.pixelsOut ++ [p.pack] } } : State).PixelRun src s := by
  have hphase := h.pixels.phase
  refine ⟨⟨?_, h.pixels.hdr, h.pixels.nonempty, h.pixels.held, fun hd => ?_⟩, h.accepted, h.inp, h.pos_le, ?_⟩
  · rw [Block.poutTaken_phase]
    split
    · simp
    · exact hphase
  · by_cases hdrain : t.blk.phase = .dDrain
    · have hpos := hinv.position
      simp only [Block.positionOk, hdrain] at hpos
      obtain ⟨hj, hk, -, -, -, hpos, -⟩ := hpos
      exact ⟨hj, hk, hpos⟩
    · rw [Block.poutTaken_phase, if_neg hdrain] at hd
      exact h.pixels.finished hd
  · have hgiven := h.given
    rw [Block.offered, hpo] at hgiven
    dsimp only
    rw [Block.offered, Block.poutTaken_pout]
    exact (List.append_nil _).trans hgiven

/-- A gap byte leaves the pixel data where it was. -/
theorem Block.Pixels.gapByte {b : Block} (h : b.Pixels src) (hinv : b.Inv) (hp : b.phase = .dSkip) (hpo : b.pout = none) :
    b.gapByte.Pixels src ∧ b.gapByte.completed src = b.completed src ++ b.gapByte.offered := by
  have hpos := hinv.position
  simp only [Block.positionOk, hp] at hpos
  obtain ⟨-, -, hn, -⟩ := hpos
  rw [Block.gapByte_eq, hp]
  refine ⟨⟨?_, h.hdr, h.nonempty, fun i _ hi => ?_, fun hd => ?_⟩, ?_⟩
  · dsimp only; split <;> simp
  · rw [show _ = (0 : BitVec 2) from hn] at hi; exact absurd hi (Nat.not_lt_zero i)
  · dsimp only at hd; split at hd <;> cases hd
  · simp only [Block.offered, hpo]
    exact (List.append_nil _).symm

/-- In the pixel data the block is ready on IN exactly where POS is the index of the next byte. -/
theorem Block.Inv.pos_eq {b : Block} (h : b.Inv) (hp : b.phase = .dPix ∨ b.phase = .dPad) (hr : b.rpos = 54) :
    b.pos.toNat = b.sourceIndex := by
  obtain ⟨hrpos, hpos⟩ := h.place hp
  have h54 : b.rpos.toNat = 54 := by rw [hr]; rfl
  omega

theorem Block.Inv.pout_of_inReady {b : Block} (h : b.Inv) (hr : b.inReady = true) : b.pout = none := by
  cases hpo : b.pout with
  | none => rfl
  | some p => rw [(h.pout_excludes hpo).2.2] at hr; cases hr

/-- Past the header phase the block is ready on IN in the gap, or in the pixel data past the header's bytes. -/
theorem Block.Pixels.inReady_cases {b : Block} (h : b.Pixels src) (hr : b.inReady = true) :
    b.phase = .dSkip ∨ ((b.phase = .dPix ∨ b.phase = .dPad) ∧ b.rpos = 54) := by
  rcases b.inReady_iff.mp hr with e | e | ⟨e, hrpos, -⟩
  · have hphase := h.phase
    rw [e] at hphase
    simp at hphase
  · exact .inl e
  · exact .inr ⟨e, hrpos⟩

/-- A source byte taken from IN. -/
theorem State.PixelRun.byte (h : t.PixelRun src s) (hinv : t.blk.Inv) (hr : t.blk.inReady = true)
    (hlt : t.blk.pos.toNat < src.length) (ts : List Turn) :
    ({ t with
        blk := t.blk.takeByte (srcAt src t.blk.pos.toNat)
        env := { t.env with turns := ts, inp := s.env.inp.drop (t.blk.pos.toNat + 1) } } : State).PixelRun src s := by
  have hpo := hinv.pout_of_inReady hr
  have hbound := hinv.pos_lt
  have hpos : (t.blk.takeByte (srcAt src t.blk.pos.toNat)).pos.toNat = t.blk.pos.toNat + 1 := by
    rw [Block.takeByte_pos _ hr]
    exact add_one_toNat (by omega)
  have hnext : (t.blk.takeByte (srcAt src t.blk.pos.toNat)).Pixels src
      ∧ (t.blk.takeByte (srcAt src t.blk.pos.toNat)).completed src
        = t.blk.completed src ++ (t.blk.takeByte (srcAt src t.blk.pos.toNat)).offered := by
    rcases h.pixels.inReady_cases hr with hp | ⟨hp, hrpos⟩
    · rw [Block.takeByte_dSkip _ hp]
      exact h.pixels.gapByte hinv hp hpo
    · have hidx := hinv.pos_eq hp hrpos
      have h54 := (hinv.place hp).2
      refine h.pixels.consume hinv hp hpo t.blk.rpos (p := t.blk.pos + 1) ?_ ?_
      · rw [add_one_toNat (by omega)]; omega
      · rw [Block.takeByte_of_pixel _ hp, hidx]
  exact h.advance hpo hnext.1 hnext.2 rfl (by rw [hpos]) (by omega)

/-- Where the block is ready on IN it has not taken all of the pixel data. -/
theorem Block.Pixels.pos_lt_end {b : Block} (h : b.Pixels src) (hinv : b.Inv) (hr : b.inReady = true) :
    b.pos.toNat < hdrOffset b.hdr + pixelBytes b.hdr := by
  rcases h.inReady_cases hr with hp | ⟨hp, hrpos⟩
  · have hpos := hinv.position
    simp only [Block.positionOk, hp] at hpos
    obtain ⟨-, -, -, -, -, -, hskip, hgap, -⟩ := hpos
    have hskip : b.skip.toNat ≠ 0 := fun e => hskip (BitVec.eq_of_toNat_eq e)
    omega
  · obtain ⟨hj, hk⟩ := hinv.row_bounds hp
    obtain ⟨hgw, hgh⟩ := hinv.geometry h.phase
    have hrow := Block.mul_row_le hj
    have hsize : pixelBytes b.hdr = b.rowBytes * b.gh.toNat := by rw [pixelBytes, hgw, hgh]; rfl
    rw [hinv.pos_eq hp hrpos, Block.sourceIndex]
    omega

/-- The EOS taken: the source is too short for its pixels (R124, R125). -/
theorem State.PixelRun.eos (h : t.PixelRun src s) (hinv : t.blk.Inv) (hr : t.blk.inReady = true)
    (hend : t.blk.pos.toNat = src.length) (ts : List Turn) :
    State.DecodeRun src s
      { t with blk := t.blk.takeEos, env := { t.env with turns := ts, inp := s.env.inp.drop (src.length + 1) } } := by
  have hp := h.pixels.inReady_cases hr
  have hshort := h.pixels.pos_lt_end hinv hr
  rw [h.pixels.hdr, hend] at hshort
  have hne : t.blk.phase ≠ .error := by rcases hp with e | ⟨e | e, -⟩ <;> simp [e]
  rw [Block.takeEos_of_pixel (hp.imp_right And.left)]
  refine .error rfl rfl ⟨.truncated, ?_, rfl, (hinv.no_error hne).2.2, fun _ _ => ⟨rfl, hend, rfl⟩, fun e he => ?_⟩
  · exact decodeImage_eq_truncated h.accepted (h.pixels.hdr ▸ h.pixels.nonempty) hshort
  · rw [h.accepted] at he; cases he

/-- In DONE the run has given all of the reference's grid (R123). -/
theorem State.PixelRun.decoded (h : t.PixelRun src s) (hinv : t.blk.Inv) (hd : t.blk.phase = .done) : t.Decoded src s := by
  obtain ⟨hj, hk, hpos⟩ := h.pixels.finished hd
  obtain ⟨hgw, hgh⟩ := hinv.geometry h.pixels.phase
  have hnonempty := h.pixels.nonempty
  have hle := h.pos_le
  have hsize : pixelBytes t.blk.hdr = t.blk.gh.toNat * t.blk.rowBytes := by
    rw [pixelBytes, hgw, hgh, Nat.mul_comm]; rfl
  have hsrc : t.blk.sourceIndex = hdrOffset t.blk.hdr + pixelBytes t.blk.hdr := by
    rw [Block.sourceIndex, hj, hk, hsize]; rfl
  have hnone : t.blk.offered = [] := by
    have hpo : t.blk.pout = none := by
      cases hpo : t.blk.pout with
      | none => rfl
      | some p => have hbusy := (hinv.pout_excludes hpo).1; rw [hd] at hbusy; cases hbusy
    rw [Block.offered, hpo]; rfl
  have hall : t.blk.completed src = gridWords (gridOf src t.blk.hdr) t.blk.gw.toNat t.blk.gh.toNat := by
    rw [Block.completed, hj, hk, ← pixelWords_all]; rfl
  have hgiven := h.given
  rw [hnone, List.append_nil, hall] at hgiven
  rw [hsrc] at hpos
  rw [h.pixels.hdr] at hgw hgh hnonempty hgiven hpos
  exact ⟨_, decodeImage_eq_ok h.accepted (.inr (by omega)), hgiven, hgw.symm, hgh.symm, by rw [if_neg hnonempty, hpos], h.inp⟩

end pixels

/-! ### Every step keeps the run -/

section run

variable {src : List Byte} {s t : State}

/-- The IN word at the head of the queue is the source's byte at POS, or the EOS after its last. -/
theorem State.PixelRun.head (h : t.PixelRun src s) (hs : s.StartsDecode src) {w : BitVec 9} {q : List (BitVec 9)}
    (hin : t.env.inp = w :: q) :
    (t.blk.pos.toNat < src.length ∧ w = byteWord (srcAt src t.blk.pos.toNat) ∧ q = s.env.inp.drop (t.blk.pos.toNat + 1))
    ∨ (t.blk.pos.toNat = src.length ∧ w.getLsbD 8 = true ∧ q = s.env.inp.drop (src.length + 1)) := by
  obtain ⟨eos, rest, hq, heos⟩ := hs.source
  rw [h.inp] at hin
  rcases h.pos_le.lt_or_eq with hlt | hend
  · rw [drop_source_byte hq hlt] at hin
    obtain ⟨rfl, rfl⟩ := List.cons.inj hin
    exact .inl ⟨hlt, rfl, rfl⟩
  · rw [hend, drop_source_eos hq] at hin
    obtain ⟨rfl, rfl⟩ := List.cons.inj hin
    exact .inr ⟨hend, heos, rfl⟩

theorem State.PixelRun.step (h : t.PixelRun src s) (hs : s.StartsDecode src) (hinv : t.blk.Inv) {ts : List Turn} {t' : State}
    (e : t.ChannelStep ts t') : State.DecodeRun src s t' := by
  cases e with
  | idle => exact .pixels ⟨h.pixels, h.accepted, h.inp, h.pos_le, h.given⟩
  | replay hr => exact .pixels (h.replay hinv hr ts)
  | pout p hpo => exact .pixels (h.pout hinv hpo ts)
  | inp w q hr hin =>
    rcases h.head hs hin with ⟨hlt, rfl, rfl⟩ | ⟨hend, heos, rfl⟩
    · have hbyte : (byteWord (srcAt src t.blk.pos.toNat)).getLsbD 8 = false := in_eos_append 0#1 _
      have hdata : (byteWord (srcAt src t.blk.pos.toNat)).extractLsb' 0 8 = srcAt src t.blk.pos.toNat := in_data_append 0#1 _
      rw [hbyte, hdata]
      exact .pixels (h.byte hinv hr hlt ts)
    · rw [if_pos heos]
      exact h.eos hinv hr hend ts

/-- Once a run has ended with POUT empty, a step only uses up its turn. -/
theorem State.ChannelStep.of_ended {t' : State} {ts : List Turn} (e : t.ChannelStep ts t') (he : t.blk.phase.ended)
    (hpo : t.blk.pout = none) : t' = { t with env := { t.env with turns := ts } } := by
  have hwait := Block.not_waitsFor_of_ended he hpo
  cases e with
  | idle => rfl
  | replay hr => exact absurd hr (hwait .block)
  | pout p hp => rw [hpo] at hp; cases hp
  | inp w q hr => exact absurd hr (hwait (.port .inp))

/-- A run is in a phase of the decode direction, or has ended. -/
theorem State.DecodeRun.phase (h : State.DecodeRun src s t) (hs : s.StartsDecode src) :
    t.blk.phase.decoding ∨ t.blk.phase.ended := by
  cases h with
  | header n ts => exact .inl (by simp [State.collecting, Block.collecting, Phase.decoding, hs.phase])
  | pixels h =>
    have hp := h.pixels.phase
    simp only [Phase.decoding, Phase.ended, List.mem_cons, List.not_mem_nil, or_false] at hp ⊢
    tauto
  | empty hd => exact .inr (.inl hd)
  | error hd => exact .inr (.inr hd)

theorem State.DecodeRun.step (h : State.DecodeRun src s t) (hs : s.StartsDecode src) (hinv : t.blk.Inv)
    (hts : channelsOnly t.env.turns) :
    State.DecodeRun src s (stepped t) ∧ (stepped t).env.bytesOut = t.env.bytesOut ∧ channelsOnly (stepped t).env.turns := by
  have hnot : t.blk.pinReady = false ∧ t.blk.boutValid = false := by
    have hp := h.phase hs
    simp only [Phase.decoding, Phase.ended, List.mem_cons, List.not_mem_nil, or_false] at hp
    rcases hp with (e | e | e | e | e) | e | e <;> simp [Block.pinReady, Block.boutValid, e]
  have e := stepped_channelStep hts hnot.1 hnot.2
  obtain ⟨hturns, hbytes⟩ := e.env
  refine ⟨?_, hbytes, fun u hu => hts u (List.mem_of_mem_tail (hturns ▸ hu))⟩
  cases h with
  | header n ts hn => exact hs.collecting_step hn hts
  | pixels h => exact h.step hs hinv e
  | empty hd hpo hres => rw [e.of_ended (.inl hd) hpo]; exact .empty hd hpo hres
  | error hd hpo hres => rw [e.of_ended (.inr hd) hpo]; exact .error hd hpo hres

/-- So does every run. -/
theorem State.DecodeRun.ran (hs : s.StartsDecode src) (n : Nat) (h : State.DecodeRun src s t) (hinv : t.blk.Inv)
    (hts : channelsOnly t.env.turns) :
    State.DecodeRun src s (ran n t) ∧ (ran n t).blk.Inv ∧ (ran n t).env.bytesOut = t.env.bytesOut := by
  induction n generalizing t with
  | zero => exact ⟨h, hinv, rfl⟩
  | succ n ih =>
    obtain ⟨hstep, hbytes, hturns⟩ := h.step hs hinv hts
    have hnext := ih hstep (stepKeepsInv _ _ hinv (step_eq t)) hturns
    rw [hbytes] at hnext
    exact hnext

/-- A run in DONE has decoded. -/
theorem State.DecodeRun.decoded (h : State.DecodeRun src s t) (hs : s.StartsDecode src) (hinv : t.blk.Inv)
    (hd : t.blk.phase = .done) : t.Decoded src s := by
  cases h with
  | header n ts => cases hs.phase.symm.trans hd
  | pixels h => exact h.decoded hinv hd
  | empty _ _ hres => exact hres
  | error he => rw [he] at hd; cases hd

/-- A run in ERROR has rejected. -/
theorem State.DecodeRun.rejected (h : State.DecodeRun src s t) (hs : s.StartsDecode src) (hd : t.blk.phase = .error) :
    t.Rejected src s := by
  cases h with
  | header n ts => cases hs.phase.symm.trans hd
  | pixels h => have hp := h.pixels.phase; rw [hd] at hp; simp at hp
  | empty he => rw [he] at hd; cases hd
  | error _ _ hres => exact hres

end run

/-- Settles O54: the step that starts DECODE starts such a run, and every point of it is one that R129 allows. -/
theorem decodeRefinesDecodeImage : Obligations.DecodeRefinesDecodeImage := by
  intro s src ts h hts n
  obtain ⟨bus, hstart⟩ := h.stepped_start (.inr rfl)
  let s₁ : State := { s with blk := s.blk.startDecodeFamily 0x2, env := { s.env with turns := ts, bus := bus } }
  have hs : s₁.StartsDecode src := ⟨⟨s.blk, rfl⟩, h.source⟩
  have hzero : s₁.collecting src 0 ts = s₁ := by
    rw [State.collecting, Block.collecting_zero]; rfl
  have hrun₁ : State.DecodeRun src s₁ s₁ := by
    have := State.DecodeRun.header (src := src) (s := s₁) 0 ts (by unfold headerWords; omega)
    rwa [hzero] at this
  have hinv₁ : s₁.blk.Inv := Block.Inv.commandStart 0x2 s.blk (.inr ⟨rfl, .inr rfl⟩)
  obtain ⟨hrun, hinv, hbytes⟩ := State.DecodeRun.ran hs n hrun₁ hinv₁ hts
  refine ⟨ran n s₁, ?_, hbytes, ?_, fun hd => ?_, fun hd => ?_⟩
  · rw [run_eq, ran, hstart]
  · have hp := hrun.phase hs
    simp only [Phase.decoding, Phase.ended, List.mem_cons, List.not_mem_nil, or_false] at hp
    rcases hp with (e | e | e | e | e) | e | e <;> simp [Phase.busy, e]
  · exact hrun.decoded hs hinv hd
  · exact hrun.rejected hs hd

end Sys2Proof.Machine

/-! ## The rules of the encode direction -/

namespace Sys2Proof.Machine

/-! ### When a PIN word or a BOUT byte passes -/

/-- A PIN word the block is ready for is taken (42_encoder.md R138). -/
theorem exec_pin_ready (x bl g r : Byte) {s : State} (hr : s.blk.pinReady = true) :
    exec (.pin x bl g r) s =
      .next { s with blk := s.blk.takePixel r g bl, env := { s.env with pin := s.env.pin.tail } } :=
  congrArg Host.Outcome.next (if_pos hr)

/-- The host's take of an offered byte gives it the byte, with LAST at output position FSIZE-1 (R142). -/
theorem exec_boutTake_valid {s : State} {x : Byte} (hv : s.blk.boutValid = true) (hx : s.blk.boutData = x) :
    exec .boutTake s = .next { s with
      blk := s.blk.boutTaken,
      env := { s.env with bytesOut := s.env.bytesOut ++
        [boutWord (decide (s.blk.pos.toNat + 1 = 54 + rowBytesOf s.blk.gw.toNat * s.blk.gh.toNat)) x] } } :=
  hx ▸ congrArg Host.Outcome.next (if_pos hv)

section offer

variable {b : Block}

theorem Block.boutData_eHdr (hp : b.phase = .eHdr) : b.boutData = hdrAt b.hdr b.hpos.toNat := by
  rw [Block.boutData, hp]

theorem Block.boutData_ePix (hp : b.phase = .ePix) : b.boutData = b.ebuf.toList.getD (3 - b.en.toNat) 0 := by
  rw [Block.boutData, hp, List.getD_eq_getElem?_getD]
  dsimp only
  rw [Vector.getElem?_toList]

theorem Block.boutData_ePad (hp : b.phase = .ePad) : b.boutData = 0 := by
  rw [Block.boutData, hp]

end offer

/-! ### A byte taken, case by case -/

/-- A stored row ends in the next row, or after the last one in DONE (R141). -/
theorem Block.eRowEnd_eq (b : Block) :
    b.eRowEnd = { b with j := b.j + 1, k := 0, phase := if b.j + 1 = b.gh then .done else .ePix } := rfl

section header

variable {b : Block} (hp : b.phase = .eHdr)
include hp

/-- A header byte before the 54th is counted (R136). -/
theorem Block.boutTaken_header (h : b.hpos.toNat < 53) :
    b.boutTaken = { b with pos := b.pos + 1, hpos := b.hpos + 1 } := by
  have hnext : (b.hpos + 1).toNat ≠ 54 := by rw [add_one_toNat (by omega)]; omega
  rw [Block.boutTaken, hp]
  exact if_neg hnext

/-- The 54th header byte starts the pixels, or ends the command when there are none (R136). -/
theorem Block.boutTaken_headerEnd (h : b.hpos = 53) :
    b.boutTaken =
      { b with
        pos := b.pos + 1, hpos := 54, j := 0, k := 0, en := 0, phase := if b.gw = 0 then .done else .ePix } := by
  rw [Block.boutTaken, hp]
  dsimp only
  rw [h]
  rfl

end header

/-- The byte taken is the last of the row's last pixel. -/
abbrev Block.lastOfPixels (b : Block) : Prop := b.en = 1 ∧ b.k.toNat + 1 = 3 * b.gw.toNat

section pixel

variable {b : Block} (hp : b.phase = .ePix) (hk : b.k.toNat < 3 * b.gw.toNat)
include hp hk

/-- A pixel byte is counted, and after the last of the row's last pixel there is more to do (R139). -/
theorem Block.boutTaken_pixel :
    b.boutTaken =
      let b' := { b with pos := b.pos + 1, k := b.k + 1, en := b.en - 1 }
      if b.lastOfPixels then (if 0 < b.pad then { b' with phase := .ePad } else b'.eRowEnd) else b' := by
  have hlast : b.en - 1 = 0 ∧ (b.k + 1).toNat = 3 * b.gw.toNat ↔ b.lastOfPixels := by
    rw [Block.k_succ (Block.lt_rowBytes hk), Block.lastOfPixels]
    exact and_congr_left' (by bv_omega)
  rw [Block.boutTaken, hp]
  simp only [hlast]
  rfl

/-- A pixel byte that is not its row's last. -/
theorem Block.boutTaken_pixelInner (hlast : ¬ b.lastOfPixels) :
    b.boutTaken = { b with pos := b.pos + 1, k := b.k + 1, en := b.en - 1 } := by
  rw [Block.boutTaken_pixel hp hk]
  exact if_neg hlast

/-- The last byte of the row's last pixel, where the row has padding. -/
theorem Block.boutTaken_padded (hlast : b.lastOfPixels) (hpad : b.pad ≠ 0) :
    b.boutTaken = { b with pos := b.pos + 1, k := b.k + 1, en := b.en - 1, phase := .ePad } := by
  rw [Block.boutTaken_pixel hp hk]
  exact (if_pos hlast).trans (if_pos (Nat.pos_of_ne_zero hpad))

/-- The last byte of the row's last pixel, where the row has no padding. -/
theorem Block.boutTaken_pixelRow (hlast : b.lastOfPixels) (hpad : b.pad = 0) :
    b.boutTaken = ({ b with pos := b.pos + 1, k := b.k + 1, en := b.en - 1 }).eRowEnd := by
  rw [Block.boutTaken_pixel hp hk]
  exact (if_pos hlast).trans (if_neg (by omega))

end pixel

section padding

variable {b : Block} (hp : b.phase = .ePad) (hk : b.k.toNat < b.rowBytes)
include hp hk

/-- A padding byte that is not its row's last (R140). -/
theorem Block.boutTaken_padInner (hlast : b.k.toNat + 1 ≠ b.rowBytes) :
    b.boutTaken = { b with pos := b.pos + 1, k := b.k + 1 } := by
  rw [← Block.k_succ hk] at hlast
  rw [Block.boutTaken, hp]
  exact if_neg hlast

/-- The last padding byte of a row ends it. -/
theorem Block.boutTaken_padRow (hlast : b.k.toNat + 1 = b.rowBytes) :
    b.boutTaken = ({ b with pos := b.pos + 1, k := b.k + 1 }).eRowEnd := by
  rw [← Block.k_succ hk] at hlast
  rw [Block.boutTaken, hp]
  exact if_pos hlast

end padding

end Sys2Proof.Machine

/-! ## A pixel taken and a byte emitted (O34, O35, O36, O37) -/

namespace Sys2Proof.Machine

/-- Settles O34: the block is ready on PIN exactly where ebuf is empty, and three bytes are left right after. -/
theorem pinLoadsPixel : Obligations.PinLoadsPixel := by
  intro s x bl g r hp b
  refine ⟨fun hen => ⟨exec_pin_ready x bl g r (s.blk.pinReady_iff.mpr ⟨hp, hen⟩), ?_, ?_⟩, fun hen => ?_⟩
  · simp [Block.pinReady, b]
  · exact b.boutValid_iff.mpr (.inr (.inr ⟨hp, show (3 : BitVec 2) ≠ 0 by decide⟩))
  · exact congrArg Host.Outcome.next (if_neg fun hr => hen (s.blk.pinReady_iff.mp hr).2)

/-- Settles O35: the byte offered is HDR[hpos], and the 54th take ends the header. -/
theorem headerByteIsEmitted : Obligations.HeaderByteIsEmitted := by
  intro s hp hlt e
  have hdata : s.blk.boutData = s.blk.hdr[s.blk.hpos.toNat] := (Block.boutData_eHdr hp).trans (hdrAt_of_lt _ hlt)
  have hexec := exec_boutTake_valid (s.blk.boutValid_iff.mpr (.inl hp)) hdata
  refine ⟨fun h => ?_, fun h => ?_⟩
  · rw [hexec, Block.boutTaken_header hp h]
  · rw [hexec, Block.boutTaken_headerEnd hp (BitVec.eq_of_toNat_eq h)]

/-- Settles O36: the byte offered is the first left in ebuf, and the row's last pixel byte leads to the padding or ends the
row. -/
theorem pixelByteIsEmitted : Obligations.PixelByteIsEmitted := by
  intro s hp hen hk e b rowDone
  have hexec := exec_boutTake_valid (s.blk.boutValid_iff.mpr (.inr (.inr ⟨hp, hen⟩))) (Block.boutData_ePix hp)
  refine ⟨fun hl => ?_, fun hl hpad => ?_, fun hl hpad => ?_⟩
  · rw [hexec, Block.boutTaken_pixelInner hp hk hl]
  · rw [hexec, Block.boutTaken_padded hp hk hl hpad]
  · rw [hexec, Block.boutTaken_pixelRow hp hk hl hpad, Block.eRowEnd_eq]

/-- Settles O37: the byte offered is zero, and the row's last padding byte ends the row. -/
theorem paddingByteIsEmitted : Obligations.PaddingByteIsEmitted := by
  intro s hp hk e
  have hexec := exec_boutTake_valid (s.blk.boutValid_iff.mpr (.inr (.inl hp))) (Block.boutData_ePad hp)
  refine ⟨fun hl => ?_, fun hl => ?_⟩
  · rw [hexec, Block.boutTaken_padInner hp hk hl]
  · rw [hexec, Block.boutTaken_padRow hp hk hl, Block.eRowEnd_eq]

end Sys2Proof.Machine

/-! ## ENCODE's acceptance and the generated header (O20, O12) -/

namespace Sys2Proof.Machine

/-- Settles O20: the three outcomes of the acceptance, which exclude each other. -/
theorem encodeAcceptance : Obligations.EncodeAcceptance := by
  intro x s hbusy w h b tooLarge
  have hexec : exec (.encodeCmd x) s = .next { s with blk := s.blk.acceptEncode s.cfg } := by
    rw [← Block.whenIdle_idle (Block.acceptEncode s.cfg) hbusy]
    rfl
  rw [hexec]
  rcases s.blk.acceptEncode_cases s.cfg with ⟨h0, e⟩ | ⟨h0, hbig, e⟩ | ⟨h0, hbig, e⟩ <;> rw [e]
  · exact ⟨fun _ => rfl, fun hne => absurd h0 hne, fun hne => absurd h0 hne⟩
  · exact ⟨fun hz => absurd hz h0, fun _ _ => rfl, fun _ hfit => absurd hbig hfit⟩
  · exact ⟨fun hz => absurd hz h0, fun _ hlarge => absurd hlarge hbig, fun _ _ => rfl⟩

/-- Two byte strings that begin with a number at one width agree in the number and in what comes after it. -/
theorem leBytes_append_inj {n u v : Nat} {xs ys : List Byte} (hu : u < 256 ^ n) (hv : v < 256 ^ n)
    (he : leBytes n u ++ xs = leBytes n v ++ ys) : u = v ∧ xs = ys := by
  obtain ⟨hhead, htail⟩ := List.append_inj he (by rw [length_leBytes, length_leBytes])
  exact ⟨by rw [← leNat_leBytes n u hu, hhead, leNat_leBytes n v hv], htail⟩

/-- A dimension below 2^31 is its own signed value (00_scope.md R10). -/
theorem s32_of_lt {v : Nat} (hv : v < 2 ^ 31) : s32 v = v := if_pos hv

/-- The fields of a generated header (42_encoder.md R135): the fifteen fields tile the buffer, and so do the numbers that the
generator puts in it, width by width, so they agree. -/
theorem genHeader_fields (cfg : Config) {w h : Nat} (hw : w < 2 ^ 31) (hh : h < 2 ^ 31) (hf : fileSizeOf w h < 2 ^ 32) :
    let d := genHeader cfg w h
    hdrFsize d = fileSizeOf w h ∧ hdrRsvd d = 0 ∧ hdrOffset d = 54 ∧ hdrIhsize d = 40 ∧ u32le d 18 = w ∧ u32le d 22 = h
      ∧ hdrPlanes d = 1 ∧ hdrBpp d = 24 ∧ hdrCompr d = 0 ∧ hdrImgsize d = 0 ∧ hdrXres d = 100 ∧ hdrYres d = 100
      ∧ hdrClrused d = cfg.clrUsedEnc.toNat ∧ hdrClrimp d = 0 := by
  intro d
  have htile : genHeaderBytes cfg w h = _ := headerFieldsTileBuffer d
  simp only [genHeaderBytes, List.append_assoc] at htile
  obtain ⟨-, htile⟩ := List.append_inj htile.symm (by rw [length_leBytes]; rfl)
  obtain ⟨hfsize, htile⟩ := leBytes_append_inj (u32le_lt d 2) hf htile
  obtain ⟨hrsvd, htile⟩ := leBytes_append_inj (u32le_lt d 6) (by decide) htile
  obtain ⟨hoffset, htile⟩ := leBytes_append_inj (u32le_lt d 10) (by decide) htile
  obtain ⟨hihsize, htile⟩ := leBytes_append_inj (u32le_lt d 14) (by decide) htile
  obtain ⟨hwidth, htile⟩ := leBytes_append_inj (u32le_lt d 18) (hw.trans (by decide)) htile
  obtain ⟨hheight, htile⟩ := leBytes_append_inj (u32le_lt d 22) (hh.trans (by decide)) htile
  obtain ⟨hplanes, htile⟩ := leBytes_append_inj (u16le_lt d 26) (by decide) htile
  obtain ⟨hbpp, htile⟩ := leBytes_append_inj (u16le_lt d 28) (by decide) htile
  obtain ⟨hcompr, htile⟩ := leBytes_append_inj (u32le_lt d 30) (by decide) htile
  obtain ⟨himgsize, htile⟩ := leBytes_append_inj (u32le_lt d 34) (by decide) htile
  obtain ⟨hxres, htile⟩ := leBytes_append_inj (u32le_lt d 38) (by decide) htile
  obtain ⟨hyres, htile⟩ := leBytes_append_inj (u32le_lt d 42) (by decide) htile
  obtain ⟨hclrused, htile⟩ := leBytes_append_inj (u32le_lt d 46) cfg.clrUsedEnc.isLt htile
  obtain ⟨hclrimp, -⟩ := leBytes_append_inj (u32le_lt d 50) (by decide) (congrArg (· ++ []) htile)
  exact ⟨hfsize, hrsvd, hoffset, hihsize, hwidth, hheight, hplanes, hbpp, hcompr, himgsize, hxres, hyres, hclrused, hclrimp⟩

/-- Settles O12: the fields by `genHeader_fields`, the checks by `genHeader_u32`. -/
theorem generatedHeaderFields : Obligations.GeneratedHeaderFields := by
  intro cfg w h hw hh hf d
  obtain ⟨hfsize, hrsvd, hoffset, hihsize, hwidth, hheight, hrest⟩ := genHeader_fields cfg hw hh hf
  obtain ⟨hplanes, hbpp, hcompr, himgsize, hxres, hyres, hclrused, hclrimp⟩ := hrest
  obtain ⟨-, -, hsig, hvar⟩ := genHeader_u32 cfg w h hw hh
  obtain ⟨hsig0, hsig1⟩ := (signatureOk_iff d).mp hsig
  have hsigned : hdrWidth d = w ∧ hdrHeight d = h := by
    rw [hdrWidth, hdrHeight, s32le, s32le, hwidth, hheight]
    exact ⟨s32_of_lt hw, s32_of_lt hh⟩
  exact ⟨hsig0, hsig1, hfsize, hrsvd, hoffset, hihsize, hsigned.1, hsigned.2, hwidth, hheight, hplanes, hbpp, hcompr,
    himgsize, hxres, hyres, hclrused, hclrimp, hsig, hvar⟩

end Sys2Proof.Machine

/-! ## ENCODE computes `encodeImage` (O56)

The block gives the file byte by byte: POS is always the index of the next one, and the bytes left in ebuf are the file's next
ones (`Block.Emitting.loaded`), because the pixel loaded is the grid's at row `j`, column `k / 3`.  So the byte offered is the
file's at POS (`Block.Emitting.boutData`).  `State.EncodeRun` says where a run may stand, and every step on a schedule of the
channels keeps it. -/

namespace Sys2Proof.Machine

/-! ### The bytes of the file -/

section file

variable {cfg : Config} {w h : Nat} {g : Grid} {out : List Byte} (hok : encodeImage cfg w h g = .ok out)
include hok

/-- The file begins with the generated header (42_encoder.md R144). -/
theorem srcAt_fileHeader {i : Nat} (hi : i < 54) : srcAt out i = hdrAt (genHeader cfg w h) i := by
  obtain ⟨-, -, hout⟩ := encodeImage_eq_ok hok
  rw [hdrAt_genHeader, hout]
  exact List.getD_append _ _ _ _ (by rwa [length_genHeaderBytes])

/-- Byte `i` of stored row `j` of the file. -/
theorem srcAt_fileRow (hs : g.hasSize w h) {j i : Nat} (hj : j < g.reverse.length) (hi : i < rowBytesOf w) :
    srcAt out (54 + j * rowBytesOf w + i) = (rowBytesOut w g.reverse[j]).getD i 0 := by
  obtain ⟨-, -, hout⟩ := encodeImage_eq_ok hok
  have hlens : ∀ row ∈ g.reverse, (rowBytesOut w row).length = rowBytesOf w := fun row hrow =>
    length_rowBytesOut (hs.2 row (List.mem_reverse.mp hrow))
  rw [hout, srcAt, List.getD_append_right _ _ _ _ (by rw [length_genHeaderBytes]; omega), length_genHeaderBytes,
    Nat.add_assoc, Nat.add_sub_cancel_left, getD_flatMap_of_forall hlens hj hi]

end file

/-- A stored row ends with zero bytes. -/
theorem getD_rowBytesOut_padding {w i : Nat} {row : List Pixel} (hw : row.length = w) (hi : 3 * w ≤ i) :
    (rowBytesOut w row).getD i 0 = 0 := by
  have hlen : (row.flatMap fun p => [p.b, p.g, p.r]).length = row.length * 3 := length_flatMap_of_forall fun _ _ => rfl
  rw [rowBytesOut, List.getD_append_right _ _ _ _ (by omega), List.getD_eq_getElem?_getD, List.getElem?_replicate]
  split <;> rfl

/-- A grid has a stored row for each row, as long as the grid is wide. -/
theorem Grid.hasSize.storedRow {w h j : Nat} {g : Grid} (hs : g.hasSize w h) (hj : j < h) :
    ∃ hrow : j < g.reverse.length, g.reverse[j].length = w := by
  have hrow : j < g.reverse.length := by rwa [List.length_reverse, hs.1]
  exact ⟨hrow, hs.2 _ (List.mem_reverse.mp (List.getElem_mem hrow))⟩

/-- One more word of the file. -/
theorem fileWords_take_succ (out : List Byte) {n : Nat} (hn : n < out.length) :
    (fileWords out).take (n + 1)
      = (fileWords out).take n ++ [boutWord (decide (n + 1 = out.length)) (srcAt out n)] := by
  have hlen : n < (fileWords out).length := by simpa [fileWords] using hn
  rw [← List.take_append_getElem hlen]
  simp [fileWords, srcAt, hn]

/-- The word offered for column `c` of stored row `j` is that pixel's (42_encoder.md R137). -/
theorem pixelOfPin_head {w h : Nat} {g : Grid} (hs : g.hasSize w h) {ws rest q : List Word} {x : Word}
    (hws : ws.map pixelOfPin = g.reverse.flatten) {j c : Nat} (hj : j < g.reverse.length) (hc : c < g.reverse[j].length)
    (hx : (ws ++ rest).drop (j * w + c) = x :: q) : pixelOfPin x = g.reverse[j][c] := by
  have hlens : ∀ row ∈ g.reverse, (id row).length = w := fun row hrow => hs.2 row (List.mem_reverse.mp hrow)
  have hcw : c < w := hlens _ (List.getElem_mem hj) ▸ hc
  have hlen : ws.length = h * w := by rw [← hs.length_flatten, ← hws, List.length_map]
  have hn : j * w + c < ws.length := by
    have hrows : (j + 1) * w ≤ h * w := Nat.mul_le_mul_right w (by rw [← hs.1, ← List.length_reverse]; exact hj)
    rw [Nat.succ_mul] at hrows
    omega
  have hpixel := getD_flatMap_of_forall hlens hj hcw (pixelOfPin x)
  rw [List.flatMap_id, ← hws, id_eq] at hpixel
  rw [List.drop_eq_getElem_cons (by rw [List.length_append]; omega), List.getElem_append_left hn] at hx
  obtain ⟨rfl, -⟩ := List.cons.inj hx
  rwa [List.getD_eq_getElem _ _ (by rwa [List.length_map]), List.getElem_map, List.getD_eq_getElem _ _ hc] at hpixel

/-! ### What the take of a byte can do -/

/-- The six outcomes of the host's take of a byte, with what holds of the position in each (R136, R139, R140, R141). -/
inductive Block.Emits (b : Block) : Block → Prop where
  | header : b.phase = .eHdr → b.en = 0 → Emits b { b with pos := b.pos + 1, hpos := b.hpos + 1 }
  | headerEnd : b.phase = .eHdr → b.pos.toNat = 53 →
      Emits b
        { b with
          pos := b.pos + 1, hpos := 54, j := 0, k := 0, en := 0, phase := if b.gw = 0 then .done else .ePix }
  | pixel : b.phase = .ePix → b.en ≠ 0 → b.k.toNat < 3 * b.gw.toNat →
      Emits b { b with pos := b.pos + 1, k := b.k + 1, en := b.en - 1 }
  | padded : b.phase = .ePix → b.en ≠ 0 → b.k.toNat < 3 * b.gw.toNat →
      Emits b { b with pos := b.pos + 1, k := b.k + 1, en := b.en - 1, phase := .ePad }
  | padding : b.phase = .ePad → b.en = 0 → 3 * b.gw.toNat ≤ b.k.toNat → b.k.toNat < b.rowBytes →
      Emits b { b with pos := b.pos + 1, k := b.k + 1 }
  | row : b.phase = .ePix ∨ b.phase = .ePad → 3 * b.gw.toNat ≤ b.k.toNat + b.en.toNat → b.k.toNat + 1 = b.rowBytes →
      Emits b
        { b with
          pos := b.pos + 1, j := b.j + 1, k := 0, en := 0, phase := if b.j + 1 = b.gh then .done else .ePix }

/-- Past the header POS says where the byte stands in the file (R26). -/
theorem Block.Inv.outputPlace {b : Block} (h : b.Inv) (hp : b.phase = .ePix ∨ b.phase = .ePad) :
    b.j.toNat < b.gh.toNat ∧ b.k.toNat < b.rowBytes ∧ b.pos.toNat = 54 + b.j.toNat * b.rowBytes + b.k.toNat := by
  have hpos := h.position
  rcases hp with e | e <;> simp only [Block.positionOk, e] at hpos
  · obtain ⟨hj, hk, -, -, hpos, -⟩ := hpos
    exact ⟨hj, Block.lt_rowBytes hk, hpos⟩
  · obtain ⟨hj, -, hk, -, hpos, -⟩ := hpos
    exact ⟨hj, hk, hpos⟩

theorem Block.Inv.emits {b : Block} (h : b.Inv) (hv : b.boutValid = true) : b.Emits b.boutTaken := by
  have hpos := h.position
  rcases b.boutValid_iff.mp hv with e | e | ⟨e, hne⟩ <;> simp only [Block.positionOk, e] at hpos
  · obtain ⟨hlt, hpos, -, hen, -⟩ := hpos
    by_cases hlast : b.hpos.toNat = 53
    · rw [Block.boutTaken_headerEnd e (BitVec.eq_of_toNat_eq hlast)]
      exact .headerEnd e (by omega)
    · rw [Block.boutTaken_header e (by omega)]
      exact .header e hen
  · obtain ⟨-, hk, hlt, hen, -⟩ := hpos
    by_cases hlast : b.k.toNat + 1 = b.rowBytes
    · rw [Block.boutTaken_padRow e hlt hlast, Block.eRowEnd_eq]
      exact hen ▸ .row (.inr e) (by omega) hlast
    · rw [Block.boutTaken_padInner e hlt hlast]
      exact .padding e hen hk hlt
  · obtain ⟨-, hk, -⟩ := hpos
    by_cases hlast : b.lastOfPixels
    · obtain ⟨hen, hk3⟩ := hlast
      have hrow : b.rowBytes = 3 * b.gw.toNat + b.pad := rfl
      by_cases hpad : b.pad = 0
      · rw [Block.boutTaken_pixelRow e hk ⟨hen, hk3⟩ hpad, Block.eRowEnd_eq]
        have hen1 : b.en.toNat = 1 := by rw [hen]; rfl
        have hnone : b.en - 1 = 0 := by rw [hen]; rfl
        exact hnone ▸ .row (.inl e) (by omega) (by omega)
      · rw [Block.boutTaken_padded e hk ⟨hen, hk3⟩ hpad]
        exact .padded e hne hk
    · rw [Block.boutTaken_pixelInner e hk hlast]
      exact .pixel e hne hk

/-- The take of a byte is counted in POS, which does not wrap. -/
theorem Block.Inv.boutTaken_pos_toNat {b : Block} (h : b.Inv) (hv : b.boutValid = true) :
    b.boutTaken.pos.toNat = b.pos.toNat + 1 := by
  have hlt := h.pos_lt
  rw [Block.boutTaken_pos hv]
  exact add_one_toNat (by omega)

section emits

variable {b b' : Block}

/-- The take of a byte takes no pixel. -/
theorem Block.Emits.pixelsTaken (e : b.Emits b') (h : b.Inv) : b'.pixelsTaken = b.pixelsTaken := by
  have hkeep (hk : b.k.toNat < b.rowBytes) (hen : b.en ≠ 0) :
      (b.k + 1).toNat + (b.en - 1).toNat = b.k.toNat + b.en.toNat := by
    have hen0 : b.en.toNat ≠ 0 := fun c => hen (BitVec.eq_of_toNat_eq c)
    have hen1 : (b.en - 1).toNat = b.en.toNat - 1 := by bv_omega
    rw [Block.k_succ hk]; omega
  cases e with
  | header hp => exact (if_pos hp).trans (if_pos hp).symm
  | headerEnd hp =>
    rw [Block.pixelsTaken_of_ne (by dsimp only; split <;> simp), Block.pixelsTaken, if_pos hp]
    simp
  | pixel hp hen hk =>
    rw [Block.pixelsTaken_of_ne (by simp [hp]), Block.pixelsTaken_of_ne (by simp [hp]), hkeep (Block.lt_rowBytes hk) hen]
  | padded hp hen hk =>
    rw [Block.pixelsTaken_of_ne (by simp), Block.pixelsTaken_of_ne (by simp [hp]), hkeep (Block.lt_rowBytes hk) hen]
  | padding hp hen hk hlt =>
    rw [Block.pixelsTaken_of_ne (by simp [hp]), Block.pixelsTaken_of_ne (by simp [hp]), Block.k_succ hlt]
    dsimp only
    omega
  | row hp hk _ =>
    obtain ⟨hj, -, -⟩ := h.outputPlace hp
    have hj1 : (b.j + 1).toNat = b.j.toNat + 1 := add_one_toNat (by omega)
    have hne : b.phase ≠ .eHdr := by rcases hp with hp | hp <;> simp [hp]
    rw [Block.pixelsTaken_of_ne (by dsimp only; split <;> simp), Block.pixelsTaken_of_ne hne, hj1, Nat.succ_mul]
    have hzero : ((0 : BitVec 34).toNat + (0 : BitVec 2).toNat) / 3 = 0 := rfl
    dsimp only
    omega

/-- The take that ends the run is the one of the file's last byte, after the grid's last pixel (R142). -/
theorem Block.Emits.finished (e : b.Emits b') (h : b.Inv) (hd : b'.phase = .done) :
    b.pos.toNat + 1 = b.fileSize ∧ b'.pixelsTaken = b.gh.toNat * b.gw.toNat := by
  have hsize : b.fileSize = 54 + b.rowBytes * b.gh.toNat := rfl
  rw [Block.pixelsTaken_of_ne (by rw [hd]; simp)]
  cases e with
  | header hp | pixel hp | padding hp => cases hp.symm.trans hd
  | padded => cases hd
  | headerEnd hp hpos =>
    have hgw : b.gw = 0 := by_contra fun hne => nomatch (if_neg hne).symm.trans hd
    have hempty : b.rowBytes = 0 := by rw [Block.rowBytes, hgw]; rfl
    rw [hsize, hpos, hempty, hgw]
    simp
  | row hp hk hlast =>
    obtain ⟨hj, -, hpos⟩ := h.outputPlace hp
    have hend : b.j + 1 = b.gh := by_contra fun hne => nomatch (if_neg hne).symm.trans hd
    have hj1 : b.gh.toNat = b.j.toNat + 1 := by rw [← hend]; exact add_one_toNat (by omega)
    constructor
    · rw [hsize, hj1, Nat.mul_comm, Nat.succ_mul, hpos]
      omega
    · dsimp only
      rw [hend]
      simp

/-- The byte taken leaves ebuf, if it came from there; else ebuf holds no byte. -/
theorem Block.Emits.en (e : b.Emits b') : b'.en = 0 ∨ (b.en ≠ 0 ∧ b'.en = b.en - 1) := by
  cases e with
  | header _ hen | padding _ hen => exact .inl hen
  | headerEnd | row => exact .inl rfl
  | pixel _ hen | padded _ hen => exact .inr ⟨hen, rfl⟩

end emits

/-! ### The block in an encode run -/

/-- A block in an encode run with file `out`: the bytes left in ebuf are the file's next ones, and DONE is after the last. -/
structure Block.Emitting (cfg : Config) (w h : Word) (out : List Byte) (b : Block) : Prop where
  phase : b.phase = .done ∨ b.phase.encoding
  gw : b.gw = w
  gh : b.gh = h
  hdr : b.hdr = genHeader cfg w.toNat h.toNat
  loaded : ∀ i < b.en.toNat, b.ebuf.toList.getD (3 - b.en.toNat + i) 0 = srcAt out (b.pos.toNat + i)
  finished : b.phase = .done → b.pos.toNat = b.fileSize ∧ b.pixelsTaken = b.gh.toNat * b.gw.toNat

section emitting

variable {cfg : Config} {w h : Word} {g : Grid} {out : List Byte} {b : Block}

/-- The byte offered is the file's at POS. -/
theorem Block.Emitting.boutData (he : b.Emitting cfg w h out) (hs : g.hasSize w.toNat h.toNat)
    (hok : encodeImage cfg w.toNat h.toNat g = .ok out) (hinv : b.Inv) (hv : b.boutValid = true) :
    b.boutData = srcAt out b.pos.toNat := by
  obtain ⟨-, rfl, rfl, hhdr, hloaded, -⟩ := he
  have hpos := hinv.position
  rcases b.boutValid_iff.mp hv with hp | hp | ⟨hp, hen⟩
  · simp only [Block.positionOk, hp] at hpos
    obtain ⟨hlt, hpos, -⟩ := hpos
    rw [Block.boutData_eHdr hp, hhdr, hpos, srcAt_fileHeader hok hlt]
  · simp only [Block.positionOk, hp] at hpos
    obtain ⟨-, hpad, -⟩ := hpos
    obtain ⟨hj, hk, hpos⟩ := hinv.outputPlace (.inr hp)
    obtain ⟨hrow, hlen⟩ := hs.storedRow hj
    rw [Block.boutData_ePad hp, hpos, Block.rowBytes, srcAt_fileRow hok hs hrow hk, getD_rowBytesOut_padding hlen hpad]
  · have hen0 : b.en.toNat ≠ 0 := fun c => hen (BitVec.eq_of_toNat_eq c)
    rw [Block.boutData_ePix hp]
    exact hloaded 0 (by omega)

/-- The take of a byte goes on with the file's next one. -/
theorem Block.Emitting.boutTaken (he : b.Emitting cfg w h out) (hinv : b.Inv) (hv : b.boutValid = true) :
    b.boutTaken.Emitting cfg w h out := by
  have e := hinv.emits hv
  have hframe := b.boutTaken_frame
  have hpos := hinv.boutTaken_pos_toNat hv
  obtain ⟨hgw, hgh, hsize⟩ := b.boutTaken_geometry
  refine ⟨(hinv.boutTaken_progress hv).imp_right And.left, hgw.trans he.gw, hgh.trans he.gh,
    (congrArg Block.hdr hframe :).trans he.hdr, fun i hi => ?_, fun hd => ?_⟩
  · have hebuf : b.boutTaken.ebuf = b.ebuf := (congrArg Block.ebuf hframe :)
    rcases e.en with hnone | ⟨hne, hen⟩
    · rw [hnone] at hi; exact absurd hi (Nat.not_lt_zero i)
    · have hen0 : b.en.toNat ≠ 0 := fun c => hne (BitVec.eq_of_toNat_eq c)
      have hen1 : b.boutTaken.en.toNat = b.en.toNat - 1 := by rw [hen]; bv_omega
      have hnext := he.loaded (i + 1) (by omega)
      rw [hebuf, hen1, hpos, show 3 - (b.en.toNat - 1) + i = 3 - b.en.toNat + (i + 1) by omega, hnext,
        Nat.add_right_comm, Nat.add_assoc]
  · obtain ⟨hlast, hall⟩ := e.finished hinv hd
    rw [hpos, hsize, hgw, hgh]
    exact ⟨hlast, hall⟩

/-- The pixel taken is loaded with the file's next three bytes. -/
theorem Block.Emitting.takePixel (he : b.Emitting cfg w h out) (hs : g.hasSize w.toNat h.toNat)
    (hok : encodeImage cfg w.toNat h.toNat g = .ok out) (hinv : b.Inv) (hr : b.pinReady = true)
    {ws rest q : List Word} {x : Word} (hws : ws.map pixelOfPin = g.reverse.flatten)
    (hx : (ws ++ rest).drop b.pixelsTaken = x :: q) :
    (b.takePixel (x.extractLsb' 0 8) (x.extractLsb' 8 8) (x.extractLsb' 16 8)).Emitting cfg w h out := by
  obtain ⟨hp, hen⟩ := b.pinReady_iff.mp hr
  obtain ⟨hphase, rfl, rfl, hhdr, -, hfin⟩ := he
  refine ⟨hphase, rfl, rfl, hhdr, fun i hi => ?_, fun hd => ?_⟩
  · have hi3 : i < 3 := hi
    have hposition := hinv.position
    have hen0 : b.en.toNat = 0 := by rw [hen]; rfl
    simp only [Block.positionOk, hp, hen0] at hposition
    obtain ⟨hj, hk, hk3, -, hpos, -⟩ := hposition
    obtain ⟨hrow, hlen⟩ := hs.storedRow hj
    have hcol : b.k.toNat / 3 < g.reverse[b.j.toNat].length := by omega
    have htaken : b.pixelsTaken = b.j.toNat * b.gw.toNat + b.k.toNat / 3 := by
      rw [Block.pixelsTaken_of_ne (by simp [hp]), hen0]; omega
    rw [htaken] at hx
    have hpixel := pixelOfPin_head hs hws hrow hcol hx
    have hin : 3 * (b.k.toNat / 3) + i < rowBytesOf b.gw.toNat := by rw [rowBytesOf]; omega
    have hplace : b.pos.toNat + i = 54 + b.j.toNat * rowBytesOf b.gw.toNat + (3 * (b.k.toNat / 3) + i) := by
      rw [hpos, Block.rowBytes]; omega
    show _ = srcAt out (b.pos.toNat + i)
    rw [hplace, srcAt_fileRow hok hs hrow hin, getD_rowBytesOut hlen hcol hi3, ← hpixel]
    exact congrArg (List.getD _ · 0) (Nat.zero_add i)
  · exact nomatch hp.symm.trans hd

end emitting

/-! ### What a step on a schedule of the channels can do -/

theorem Phase.encoding.busy {p : Phase} (h : p.encoding) : p.busy = true := by
  simp only [Phase.encoding, List.mem_cons, List.not_mem_nil, or_false] at h
  rcases h with rfl | rfl | rfl <;> rfl

/-- Outside the decode direction the block waits for no turn of its own, of IN or of POUT. -/
theorem Block.Inv.not_waitsFor {b : Block} (h : b.Inv) (hp : ¬ b.phase.decoding) (u : Turn) : ¬ b.waitsFor u := by
  have hpout : b.pout = none := by
    by_contra hne
    refine hp ?_
    rcases h.pout_phase (Option.isSome_iff_ne_none.mpr hne) with e | e | e <;> simp [Phase.decoding, e]
  simp only [Phase.decoding, List.mem_cons, List.not_mem_nil, or_false, not_or] at hp
  rcases u with p | _ | _
  · cases p <;> simp [Block.waitsFor, Block.inReady_iff, hp, hpout]
  · simp [Block.waitsFor, Block.replayReady, hp]
  · simp [Block.waitsFor]

/-- What a step of such a block can do, with `ts` the turns left: nothing, or a transfer on PIN or on BOUT. -/
inductive State.EncoderStep (t : State) (ts : List Turn) : State → Prop where
  | idle : EncoderStep t ts { t with env := { t.env with turns := ts } }
  | pin (x : Word) (q : List Word) : t.blk.pinReady = true → t.env.pin = x :: q →
      EncoderStep t ts
        { t with
          blk := t.blk.takePixel (x.extractLsb' 0 8) (x.extractLsb' 8 8) (x.extractLsb' 16 8)
          env := { t.env with turns := ts, pin := q } }
  | bout : t.blk.boutValid = true →
      EncoderStep t ts
        { t with
          blk := t.blk.boutTaken
          env := { t.env with turns := ts, bytesOut := t.env.bytesOut ++ [t.blk.boutOffer] } }

theorem stepped_encoderStep {t : State} (hts : channelsOnly t.env.turns) (hinv : t.blk.Inv) (hp : ¬ t.blk.phase.decoding) :
    t.EncoderStep t.env.turns.tail (stepped t) := by
  have hwait := hinv.not_waitsFor hp
  cases hturns : t.env.turns with
  | nil =>
    have ht : t = { t with env := { t.env with turns := [] } } := by rw [← hturns]
    rw [stepped_nil hturns, State.internalStep, if_neg (show ¬ t.blk.replayReady = true from hwait .block)]
    exact ht ▸ .idle
  | cons u ts =>
    have hu := hts u (hturns ▸ List.mem_cons_self)
    match u with
    | .port .bus => exact absurd rfl hu.1
    | .reset => exact absurd rfl hu.2
    | .block | .port .pout | .port .inp =>
      rw [stepped_of_not_waitsFor (by simp [decodeRound]) hturns (hwait _)]
      exact .idle
    | .port .pin =>
      cases hq : t.env.pin with
      | nil => rw [stepped_pin_nil hturns hq]; exact .idle
      | cons x q =>
        rw [stepped_pin hturns hq]
        split
        · exact .pin x q ‹_› hq
        · exact .idle
    | .port .bout =>
      rw [stepped_bout hturns]
      split
      · exact .bout ‹_›
      · exact .idle

theorem State.EncoderStep.turns {t t' : State} {ts : List Turn} (e : t.EncoderStep ts t') : t'.env.turns = ts := by
  cases e <;> rfl

theorem channelsOnly.tail {ts : List Turn} (h : channelsOnly ts) : channelsOnly ts.tail :=
  fun u hu => h u (List.mem_of_mem_tail hu)

/-! ### A run of ENCODE that is rejected -/

/-- When the reference rejects, and with which error (R132, R144). -/
theorem encodeImage_eq_error {cfg : Config} {w h : Nat} {g : Grid} {e : FormatError}
    (herr : encodeImage cfg w h g = .error e) :
    (h = 0 ∧ e = .emptyImage)
    ∨ (h ≠ 0 ∧ (2 ^ 31 ≤ w ∨ 2 ^ 31 ≤ h ∨ 2 ^ 32 ≤ fileSizeOf w h) ∧ e = .tooLarge) := by
  unfold encodeImage at herr
  split_ifs at herr with h0 hbig <;> obtain rfl := Except.error.inj herr
  · exact .inl ⟨h0, rfl⟩
  · exact .inr ⟨h0, hbig, rfl⟩

/-- Where the reference rejects, ENCODE's acceptance raises its error. -/
theorem Block.acceptEncode_error {cfg : Config} {b : Block} {g : Grid} {e : FormatError}
    (herr : encodeImage cfg b.encW.toNat b.encH.toNat g = .error e) :
    b.acceptEncode cfg = (b.commandStart 0x3).raiseError e.code .command := by
  rcases b.acceptEncode_cases cfg with ⟨h0, ha⟩ | ⟨h0, hbig, ha⟩ | ⟨h0, hbig, ha⟩ <;>
    rcases encodeImage_eq_error herr with ⟨h0', rfl⟩ | ⟨h0', hbig', rfl⟩
  · exact ha
  · exact absurd h0 h0'
  · exact absurd h0' h0
  · exact ha
  · exact absurd h0' h0
  · exact absurd hbig' hbig

/-- In ERROR a schedule of the channels only uses up its turns. -/
theorem ran_error {t : State} (n : Nat) (hts : channelsOnly t.env.turns) (hinv : t.blk.Inv) (hp : t.blk.phase = .error) :
    ∃ ts, ran n t = { t with env := { t.env with turns := ts } } := by
  induction n generalizing t with
  | zero => exact ⟨t.env.turns, rfl⟩
  | succ n ih =>
    have e := stepped_encoderStep hts hinv (by simp [Phase.decoding, hp])
    have hstep : stepped t = { t with env := { t.env with turns := t.env.turns.tail } } := by
      generalize stepped t = t' at e
      cases e with
      | idle => rfl
      | pin x q hr => cases hp.symm.trans (t.blk.pinReady_iff.mp hr).1
      | bout hv => rw [Block.boutValid_iff] at hv; simp [hp] at hv
    rw [ran, hstep]
    exact ih hts.tail hinv hp

/-! ### A run of ENCODE that is accepted -/

/-- Where a run of ENCODE with file `out` may stand that the host started in `s`: the host has the first POS words of the
file, and the pixels taken have left its queue. -/
structure State.EncodeRun (w h : Word) (out : List Byte) (s t : State) : Prop where
  inv : t.blk.Inv
  block : t.blk.Emitting s.cfg w h out
  given : t.env.bytesOut = s.env.bytesOut ++ (fileWords out).take t.blk.pos.toNat
  taken : t.env.pin = s.env.pin.drop t.blk.pixelsTaken
  pixelsOut : t.env.pixelsOut = s.env.pixelsOut

section run

variable {w h : Word} {g : Grid} {out : List Byte} {s t : State} (hs : g.hasSize w.toNat h.toNat)
  (hok : encodeImage s.cfg w.toNat h.toNat g = .ok out)
include hs hok

/-- The byte the host takes is the file's next word (R142). -/
theorem State.EncodeRun.bout (hrun : State.EncodeRun w h out s t) (hv : t.blk.boutValid = true) (ts : List Turn) :
    State.EncodeRun w h out s
      { t with
        blk := t.blk.boutTaken
        env := { t.env with turns := ts, bytesOut := t.env.bytesOut ++ [t.blk.boutOffer] } } := by
  obtain ⟨hinv, hblk, hgiven, htaken, hpixels⟩ := hrun
  have hlen := length_encodeImage hs hok
  have hsize : t.blk.fileSize = fileSizeOf w.toNat h.toNat := by rw [Block.fileSize, hblk.gw, hblk.gh]
  have hlt : t.blk.pos.toNat < t.blk.fileSize := by
    refine hinv.pos_lt_fileSize (hblk.phase.resolve_left fun hd => ?_)
    rw [Block.boutValid_iff, hd] at hv
    simp at hv
  have hpos := hinv.boutTaken_pos_toNat hv
  refine ⟨hinv.boutTaken hv, hblk.boutTaken hinv hv, ?_, ?_, hpixels⟩
  · dsimp only
    rw [hgiven, hpos, fileWords_take_succ _ (by omega), ← List.append_assoc, Block.boutOffer, hblk.boutData hs hok hinv hv,
      hsize, hlen]
  · dsimp only
    rw [(hinv.emits hv).pixelsTaken hinv]
    exact htaken

/-- The word the block takes is the grid's next pixel (R137, R138). -/
theorem State.EncodeRun.pin (hrun : State.EncodeRun w h out s t) {ws rest q : List Word} {x : Word}
    (hpin : s.env.pin = ws ++ rest) (hws : ws.map pixelOfPin = g.reverse.flatten)
    (hr : t.blk.pinReady = true) (hq : t.env.pin = x :: q) (ts : List Turn) :
    State.EncodeRun w h out s
      { t with
        blk := t.blk.takePixel (x.extractLsb' 0 8) (x.extractLsb' 8 8) (x.extractLsb' 16 8)
        env := { t.env with turns := ts, pin := q } } := by
  obtain ⟨hinv, hblk, hgiven, htaken, hpixels⟩ := hrun
  have hhead : (ws ++ rest).drop t.blk.pixelsTaken = x :: q := by rw [← hpin, ← htaken, hq]
  refine ⟨hinv.takePixel _ _ _ hr, hblk.takePixel hs hok hinv hr hws hhead, hgiven, ?_, hpixels⟩
  dsimp only
  rw [(hinv.takePixel_counts hr).2, ← List.drop_drop, hpin, hhead]
  rfl

/-- Every step keeps the run, and so does every run. -/
theorem State.EncodeRun.ran {ws rest : List Word} (hpin : s.env.pin = ws ++ rest)
    (hws : ws.map pixelOfPin = g.reverse.flatten) (n : Nat) (hrun : State.EncodeRun w h out s t)
    (hts : channelsOnly t.env.turns) : State.EncodeRun w h out s (ran n t) := by
  induction n generalizing t with
  | zero => exact hrun
  | succ n ih =>
    have hdir : ¬ t.blk.phase.decoding := by
      have hp := hrun.block.phase
      simp only [Phase.encoding, List.mem_cons, List.not_mem_nil, or_false] at hp
      rcases hp with e | e | e | e <;> simp [Phase.decoding, e]
    have e := stepped_encoderStep hts hrun.inv hdir
    refine ih ?_ (e.turns ▸ hts.tail)
    generalize stepped t = t' at e
    cases e with
    | idle => exact ⟨hrun.inv, hrun.block, hrun.given, hrun.taken, hrun.pixelsOut⟩
    | pin x q hr hq => exact hrun.pin hs hok hpin hws hr hq _
    | bout hv => exact hrun.bout hs hok hv _

/-- In DONE the host has the whole file, and the grid's pixels have left its queue. -/
theorem State.EncodeRun.done (hrun : State.EncodeRun w h out s t) (hd : t.blk.phase = .done) :
    t.env.bytesOut = s.env.bytesOut ++ fileWords out ∧ t.env.pin = s.env.pin.drop (w.toNat * h.toNat) := by
  obtain ⟨-, ⟨-, hgw, hgh, -, -, hfin⟩, hgiven, htaken, -⟩ := hrun
  obtain ⟨hpos, hall⟩ := hfin hd
  have hsize : t.blk.pos.toNat = (fileWords out).length := by
    rw [hpos, Block.fileSize, hgw, hgh, ← length_encodeImage hs hok, fileWords, List.length_mapIdx]
  rw [hsize, List.take_length] at hgiven
  rw [hall, hgw, hgh, Nat.mul_comm] at htaken
  exact ⟨hgiven, htaken⟩

end run

/-- The three writes of a host that feeds a grid the reference rejects raise its error. -/
theorem FeedsGrid.ran_start_error {s : State} {w h : Word} {g : Grid} {ts : List Turn} {e : FormatError}
    (hf : FeedsGrid s w h g ts) (herr : encodeImage s.cfg w.toNat h.toNat g = .error e) :
    ∃ (b : Block) (bus : List BusReq), b.Inv ∧ b.phase = .error ∧ b.errCode = e.code ∧ b.errStage = .command
      ∧ ran 3 s = { s with blk := b, env := { s.env with turns := ts, bus := bus } } := by
  obtain ⟨bus, hstart⟩ := hf.ran_start
  have hblk := Block.acceptEncode_error (b := { s.blk with encW := w, encH := h }) herr
  refine ⟨_, bus, Block.Inv.acceptEncode s.cfg _, ?_, ?_, ?_, hstart⟩ <;> rw [hblk] <;> rfl

/-- The three writes of a host that feeds a grid the reference accepts start such a run. -/
theorem FeedsGrid.encodeRun {s : State} {w h : Word} {g : Grid} {ts : List Turn} {out : List Byte}
    (hf : FeedsGrid s w h g ts) (hok : encodeImage s.cfg w.toNat h.toNat g = .ok out) :
    State.EncodeRun w h out s (ran 3 s) ∧ (ran 3 s).env.turns = ts := by
  obtain ⟨bus, hstart⟩ := hf.ran_start
  obtain ⟨h0, hbig, -⟩ := encodeImage_eq_ok hok
  have hinv := Block.Inv.acceptEncode s.cfg { s.blk with encW := w, encH := h }
  have hblk := Block.acceptEncode_ok s.cfg (b := { s.blk with encW := w, encH := h }) h0 hbig
  rw [hblk] at hinv
  rw [hstart, hblk]
  refine ⟨⟨hinv, ⟨?_, rfl, rfl, rfl, fun i hi => ?_, fun hd => nomatch hd⟩, ?_, rfl, rfl⟩, rfl⟩
  · exact .inr (by simp [Phase.encoding])
  · exact absurd hi (Nat.not_lt_zero i)
  · exact (List.append_nil _).symm

/-- Settles O56: a rejected ENCODE stays in its error, and every point of an accepted one is one that R145 allows. -/
theorem encodeRefinesEncodeImage : Obligations.EncodeRefinesEncodeImage := by
  intro s w h g ts hf hts n
  refine ⟨ran (n + 3) s, run_eq _ s, ?_⟩
  rw [Nat.add_comm n 3, ran_add]
  cases hres : encodeImage s.cfg w.toNat h.toNat g with
  | error e =>
    obtain ⟨b, bus, hinv, hphase, hcode, hstage, hstart⟩ := hf.ran_start_error hres
    rw [hstart]
    let s₁ : State := { s with blk := b, env := { s.env with turns := ts, bus := bus } }
    obtain ⟨ts', hend⟩ := ran_error (t := s₁) n hts hinv hphase
    rw [hend]
    refine ⟨rfl, fun e' he => ?_, fun out hok => nomatch hok⟩
    obtain rfl := Except.error.inj he
    exact ⟨hphase, hcode, hstage, rfl, rfl⟩
  | ok out =>
    obtain ⟨ws, rest, hpin, hws⟩ := hf.pixels
    obtain ⟨hstart, hturns⟩ := hf.encodeRun hres
    have hrun := hstart.ran hf.size hres hpin hws n (hturns ▸ hts)
    refine ⟨hrun.pixelsOut, fun e he => (nomatch he), fun out' hok => ?_⟩
    obtain rfl := Except.ok.inj hok
    refine ⟨hrun.block.phase.imp_right Phase.encoding.busy, hrun.given, fun hd => ?_⟩
    obtain ⟨hgiven, htaken⟩ := hrun.done hf.size hres hd
    exact ⟨hgiven, length_encodeImage hf.size hres, htaken⟩

end Sys2Proof.Machine

/-! ## The outcome of a command never depends on an earlier one (O59)

A command that starts clears every element but HDR, ENC_W and ENC_H, so two blocks that start the same command can differ in
HDR alone, and only where no byte of the run has been stored yet.  Until the validator runs, no step reads HDR and every IN byte
stores the same byte in both; when it runs, all 54 bytes have been stored, and from there on the two blocks are equal.  A run
that ends before, by an EOS or by ENCODE's rejection, ends in ERROR with HV = 0 and reads no byte of HDR either. -/

namespace Sys2Proof.Machine

/-! ### Blocks that differ in header bytes the run has not stored -/

/-- The block with another header buffer. -/
def Block.withHdr (h : Vector Byte 54) (b : Block) : Block := { b with hdr := h }

/-- No step of the run will read a byte in which `h` differs from the block's HDR: the run has ended in an error before the
validator, or it is in the header phase and the bytes stored so far are those of `h` too. -/
structure Block.HdrUnread (h : Vector Byte 54) (b : Block) : Prop where
  hv : b.hv = false
  pout : b.pout = none
  phase : b.phase = .error ∨ b.phase = .dHdr ∧ b.hpos.toNat < 54 ∧ ∀ i < b.hpos.toNat, hdrAt b.hdr i = hdrAt h i

/-- Two blocks that are equal, or differ in header bytes that no step will read. -/
def Block.SameRun (b₁ b₂ : Block) : Prop := b₁ = b₂ ∨ ∃ h, b₁.HdrUnread h ∧ b₂ = b₁.withHdr h

/-- Two states with the same host and build, and blocks that are the same to the run. -/
def State.SameRun (t₁ t₂ : State) : Prop := ∃ b, t₁.blk.SameRun b ∧ t₂ = { t₁ with blk := b }

/-! ### What a register read sees -/

/-- No register but the HF_* views reads HDR (20_memory.md R50). -/
theorem Block.withHdr_readReg (h : Vector Byte 54) (b : Block) {a : Byte} (ha : a.toNat < 0x40 ∨ 0x7C ≤ a.toNat) :
    (b.withHdr h).readReg a = b.readReg a := by
  unfold Block.readReg Block.regAt
  split
  · split
    any_goals (exfalso; omega) -- the addresses of the views
    all_goals rfl
  · rfl

/-- The same run shows the same registers, the HF_* views only where HV says that HDR is valid. -/
theorem Block.SameRun.readReg {b₁ b₂ : Block} (hs : b₁.SameRun b₂) {a : Byte}
    (ha : (a.toNat < 0x40 ∨ 0x7C ≤ a.toNat) ∨ b₁.hv = true) : b₁.readReg a = b₂.readReg a := by
  rcases hs with rfl | ⟨h, hu, rfl⟩
  · rfl
  · exact (b₁.withHdr_readReg h (ha.resolve_right (by simp [hu.hv]))).symm

/-! ### The start of a command -/

/-- A command start clears all that two blocks may differ in, but HDR, ENC_W and ENC_H (43_control.md R148); the phase is set
by the command that starts. -/
theorem Block.commandStart_withHdr {b₁ b₂ : Block} (hw : b₁.encW = b₂.encW) (hh : b₁.encH = b₂.encH) (op : BitVec 4)
    (p : Phase) :
    { b₂.commandStart op with phase := p } = ({ b₁.commandStart op with phase := p }).withHdr b₂.hdr := by
  simp only [Block.commandStart, Block.withHdr, hw, hh]

theorem Block.startDecodeFamily_sameRun {b₁ b₂ : Block} (hw : b₁.encW = b₂.encW) (hh : b₁.encH = b₂.encH) (op : BitVec 4) :
    (b₁.startDecodeFamily op).SameRun (b₂.startDecodeFamily op) :=
  .inr ⟨b₂.hdr, ⟨rfl, rfl, .inr ⟨rfl, by simp, fun i hi => absurd hi (by simp)⟩⟩,
    Block.commandStart_withHdr hw hh op .dHdr⟩

/-- A rejected start. -/
theorem Block.raiseError_commandStart_sameRun {b₁ b₂ : Block} (hw : b₁.encW = b₂.encW) (hh : b₁.encH = b₂.encH)
    (op : BitVec 4) (c : ErrCode) (g : Stage) :
    ((b₁.commandStart op).raiseError c g).SameRun ((b₂.commandStart op).raiseError c g) :=
  .inr ⟨b₂.hdr, ⟨rfl, rfl, .inl rfl⟩,
    congrArg (Block.raiseError c g) (Block.commandStart_withHdr hw hh op .error)⟩

/-- An accepted ENCODE writes the whole of HDR, and a rejected one reads none of it (42_encoder.md R132, R133). -/
theorem Block.acceptEncode_sameRun {b₁ b₂ : Block} (hw : b₁.encW = b₂.encW) (hh : b₁.encH = b₂.encH) (cfg : Config) :
    (b₁.acceptEncode cfg).SameRun (b₂.acceptEncode cfg) := by
  unfold Block.acceptEncode
  simp only [← hw, ← hh]
  split_ifs
  · exact Block.raiseError_commandStart_sameRun hw hh _ _ _
  · exact Block.raiseError_commandStart_sameRun hw hh _ _ _
  · exact .inl (by simp only [Block.commandStart, hw, hh])

/-- PARSE, DECODE and ENCODE that start read nothing of the block but ENC_W and ENC_H. -/
theorem Block.ctrlWrite_sameRun {b₁ b₂ : Block} (hw : b₁.encW = b₂.encW) (hh : b₁.encH = b₂.encH)
    (hb₁ : b₁.phase.busy = false) (hb₂ : b₂.phase.busy = false) {op : BitVec 4} (hop : op ∈ [0x1#4, 0x2#4, 0x3#4])
    (cfg : Config) : (b₁.ctrlWrite cfg op).SameRun (b₂.ctrlWrite cfg op) := by
  have hdecode {op : BitVec 4} :
      (b₁.whenIdle (Block.startDecodeFamily op)).SameRun (b₂.whenIdle (Block.startDecodeFamily op)) := by
    rw [Block.whenIdle_idle _ hb₁, Block.whenIdle_idle _ hb₂]
    exact Block.startDecodeFamily_sameRun hw hh op
  have hencode : (b₁.whenIdle (Block.acceptEncode cfg)).SameRun (b₂.whenIdle (Block.acceptEncode cfg)) := by
    rw [Block.whenIdle_idle _ hb₁, Block.whenIdle_idle _ hb₂]
    exact Block.acceptEncode_sameRun hw hh cfg
  simp only [List.mem_cons, List.not_mem_nil, or_false] at hop
  rcases hop with rfl | rfl | rfl
  · exact hdecode
  · exact hdecode
  · exact hencode

/-! ### A step of the run -/

/-- A header buffer after a store. -/
theorem hdrAt_set (h : Vector Byte 54) {p : Nat} (hp : p < 54) (x : Byte) (i : Nat) :
    hdrAt (h.set p x) i = if p = i then x else hdrAt h i := by
  rw [hdrAt, hdrAt, Vector.getElem?_set]
  split <;> rfl

/-- Two header buffers with the same bytes. -/
theorem hdr_ext {h h' : Vector Byte 54} (he : ∀ i < 54, hdrAt h i = hdrAt h' i) : h = h' :=
  Vector.ext fun i hi => by rw [← hdrAt_of_lt h hi, ← hdrAt_of_lt h' hi, he i hi]

section unread

variable {h : Vector Byte 54}

/-- A header byte is stored in both blocks; the 54th leaves no byte in which they differ, so the validator answers the same. -/
theorem Block.HdrUnread.headerByte {b : Block} (hu : b.HdrUnread h) (hp : b.phase = .dHdr) (x : Byte) :
    (b.headerByte x).SameRun ((b.withHdr h).headerByte x) := by
  obtain ⟨-, hlt, hsame⟩ := hu.phase.resolve_left (by simp [hp])
  have hstored : ∀ i < b.hpos.toNat + 1, hdrAt (b.hdr.set b.hpos.toNat x) i = hdrAt (h.set b.hpos.toNat x) i := by
    intro i hi
    rw [hdrAt_set _ hlt, hdrAt_set _ hlt]
    split
    · rfl
    · exact hsame i (by omega)
  by_cases h53 : b.hpos.toNat < 53
  · rw [Block.headerByte_of_lt x h53, Block.headerByte_of_lt (b := b.withHdr h) x h53]
    refine .inr ⟨h.set b.hpos.toNat x, ⟨hu.hv, hu.pout, .inr ⟨hp, ?_⟩⟩, rfl⟩
    dsimp only
    rw [add_one_toNat (by omega)]
    exact ⟨by omega, hstored⟩
  · have hlast : b.hpos.toNat = 53 := by omega
    have hpos : b.hpos = 53 := BitVec.eq_of_toNat_eq hlast
    simp only [hlast] at hstored
    rw [Block.headerByte_last x hpos, Block.headerByte_last (b := b.withHdr h) x hpos]
    exact .inl (congrArg (fun d => Block.validate { b with hdr := d, hpos := 54, pos := b.pos + 1 }) (hdr_ext hstored))

variable {t : State} {u : Turn} {ts : List Turn}

/-- In the header phase and in ERROR, with POUT empty, a turn of a channel other than IN's in the header phase is used up. -/
theorem stepped_header_or_error (hpo : t.blk.pout = none) (hp : t.blk.phase = .error ∨ t.blk.phase = .dHdr)
    (ht : t.env.turns = u :: ts) (hc : u ≠ .port .bus ∧ u ≠ .reset) (hin : ¬ (t.blk.phase = .dHdr ∧ u = .port .inp)) :
    stepped t = { t with env := { t.env with turns := ts } } := by
  have hw : ¬ t.blk.waitsFor u := by
    rcases hp with e | e
    · exact Block.not_waitsFor_of_ended (.inr e) hpo u
    · exact fun hw => hin ⟨e, (Block.waitsFor_dHdr e hpo).mp hw⟩
  refine stepped_unready ht hc hw ?_ ?_
  all_goals rcases hp with e | e <;> simp [Block.pinReady, Block.boutValid, e]

/-- Every step on a schedule of the channels is a step of the same run, and uses up the same turn. -/
theorem Block.HdrUnread.sameRun_step (hu : t.blk.HdrUnread h) (hts : channelsOnly t.env.turns) :
    (stepped t).SameRun (stepped (t.onBlock (Block.withHdr h))) ∧ (stepped t).env.turns = t.env.turns.tail := by
  have hp : t.blk.phase = .error ∨ t.blk.phase = .dHdr := hu.phase.imp_right And.left
  cases hturns : t.env.turns with
  | nil =>
    have hreplay : t.blk.replayReady = false := by rcases hp with e | e <;> simp [Block.replayReady, e]
    have hidle (d : Vector Byte 54) : stepped (t.onBlock (Block.withHdr d)) = t.onBlock (Block.withHdr d) :=
      (stepped_nil (s := t.onBlock (Block.withHdr d)) hturns).trans
        (if_neg (show ¬ t.blk.replayReady = true by simp [hreplay]))
    rw [hidle h, show stepped t = t from hidle t.blk.hdr, hturns]
    exact ⟨⟨_, .inr ⟨h, hu, rfl⟩, rfl⟩, rfl⟩
  | cons u ts =>
    by_cases hin : t.blk.phase = .dHdr ∧ u = .port .inp
    · obtain ⟨hd, rfl⟩ := hin
      cases hq : t.env.inp with
      | nil =>
        rw [stepped_inp_nil hturns hq, stepped_inp_nil (s := t.onBlock (Block.withHdr h)) hturns hq]
        exact ⟨⟨_, .inr ⟨h, hu, rfl⟩, rfl⟩, rfl⟩
      | cons w q =>
        rw [stepped_inp_dHdr hd hturns hq, stepped_inp_dHdr (s := t.onBlock (Block.withHdr h)) hd hturns hq]
        refine ⟨⟨_, ?_, rfl⟩, rfl⟩
        dsimp only
        split
        · exact .inr ⟨h, ⟨hu.hv, rfl, .inl rfl⟩, rfl⟩
        · exact hu.headerByte hd _
    · have hc := hts u (hturns ▸ List.mem_cons_self)
      rw [stepped_header_or_error hu.pout hp hturns hc hin,
        stepped_header_or_error (t := t.onBlock (Block.withHdr h)) hu.pout hp hturns hc hin]
      exact ⟨⟨_, .inr ⟨h, hu, rfl⟩, rfl⟩, rfl⟩

end unread

/-! ### The whole run -/

/-- On every schedule of the channels the same run stays the same. -/
theorem State.SameRun.ran {t₁ t₂ : State} (hs : t₁.SameRun t₂) (hts : channelsOnly t₁.env.turns) (n : Nat) :
    (ran n t₁).SameRun (ran n t₂) := by
  induction n generalizing t₁ t₂ with
  | zero => exact hs
  | succ n ih =>
    obtain ⟨b, rfl | ⟨h, hu, rfl⟩, rfl⟩ := hs
    · exact ⟨_, .inl rfl, rfl⟩
    · obtain ⟨hnext, hturns⟩ := hu.sameRun_step hts
      exact ih hnext (hturns ▸ hts.tail)

/-- Settles O59: the two commands start the same run, which stays the same, and shows the host the same words and registers. -/
theorem commandIgnoresHistory : Obligations.CommandIgnoresHistory := by
  intro s₁ s₂ v rest ts hb₁ hb₂ henv hcfg hw hh hbus hop hturns hts n
  have hstart : (stepped s₁).SameRun (stepped s₂) := by
    rw [stepped_bus_write hturns hbus, stepped_bus_write (henv ▸ hturns) (henv ▸ hbus), ← henv, ← hcfg]
    exact ⟨_, Block.ctrlWrite_sameRun hw hh hb₁ hb₂ hop s₁.cfg, rfl⟩
  have hturns₁ : (stepped s₁).env.turns = ts := by rw [stepped_bus_write hturns hbus]
  obtain ⟨b, hblk, hrun⟩ := hstart.ran (hturns₁ ▸ hts) n
  refine ⟨ran n (stepped s₁), ran n (stepped s₂), run_eq _ s₁, run_eq _ s₂, ?_⟩
  rw [hrun]
  exact ⟨rfl, fun a ha => hblk.readReg (.inl ha), fun hv a => hblk.readReg (.inr hv)⟩

end Sys2Proof.Machine

/-! ## Register writes (O17) -/

namespace Sys2Proof.Machine

/-- Settles O17: a write to CTRL is the dispatch that `exec_decodeCmdWord` gives for the command decoded from the value. -/
theorem registerWriteEffect : Obligations.RegisterWriteEffect := by
  intro s a v
  refine ⟨rfl, rfl, ?_, fun hctrl hw hh => exec_regWr_same (s.blk.writeReg_of_ne s.cfg v hctrl hw hh)⟩
  exact (exec_decodeCmdWord v s).symm

end Sys2Proof.Machine

/-! ## The commands (O18, O19, O21, O22, O23) -/

namespace Sys2Proof.Machine

/-- Settles O18: the meaning of NOP is its whole reason. -/
theorem nopChangesNothing : Obligations.NopChangesNothing := fun _ _ => rfl

section whenIdle

variable {i : Instr} {f : Block → Block} {s : State} (hexec : exec i s = .next (s.onBlock (Block.whenIdle f)))
include hexec

/-- A command other than NOP and ABORT starts while not busy (43_control.md R147). -/
theorem exec_whenIdle_idle (hbusy : s.blk.phase.busy = false) : exec i s = .next { s with blk := f s.blk } := by
  rw [hexec, State.onBlock, Block.whenIdle_idle f hbusy]

/-- While busy it only sets IGN (R152). -/
theorem exec_whenIdle_busy (hbusy : s.blk.phase.busy = true) :
    exec i s = .next { s with blk := { s.blk with ign := true } } := by
  rw [hexec, State.onBlock, Block.whenIdle_busy f hbusy]

end whenIdle

/-- Settles O19: the header phase starts, and waits for IN. -/
theorem parseAndDecodeStart : Obligations.ParseAndDecodeStart := by
  intro x s hbusy
  simp only [List.forall_mem_cons, List.not_mem_nil, IsEmpty.forall_iff, implies_true, and_true]
  constructor
  all_goals exact ⟨_, exec_whenIdle_idle rfl hbusy, Block.inReady_of_dHdr rfl, rfl⟩

/-- Settles O21: every reserved opcode starts `Block.badCommand`. -/
theorem reservedOpcodesAreBadCommands : Obligations.ReservedOpcodesAreBadCommands := by
  intro x s hbusy
  simp only [List.forall_mem_cons, List.not_mem_nil, IsEmpty.forall_iff, implies_true, and_true]
  repeat' apply And.intro
  all_goals exact exec_whenIdle_idle (f := Block.badCommand _) rfl hbusy

/-- Settles O22: each of these commands starts only while not busy. -/
theorem commandsWhileBusySetIgn : Obligations.CommandsWhileBusySetIgn := by
  intro x s hbusy
  simp only [List.forall_mem_cons, List.not_mem_nil, IsEmpty.forall_iff, implies_true, and_true]
  repeat' apply And.intro
  all_goals exact exec_whenIdle_busy rfl hbusy

/-- ABORT while busy, at the stage of the interrupted phase. -/
theorem exec_abort_busy (x : BitVec 28) {s : State} {g : Stage} (hbusy : s.blk.phase.busy = true)
    (hg : s.blk.phase.abortStage = g) :
    exec (.abort x) s = .next { s with blk := { s.blk with
      op := 0xF, errCode := .aborted, errStage := g, pout := none, phase := .error } } := by
  rw [← hg, ← Block.abort_busy hbusy]; rfl

/-- ABORT while not busy. -/
theorem exec_abort_idle (x : BitVec 28) {s : State} (hbusy : s.blk.phase.busy = false) :
    exec (.abort x) s = .next { s with blk := { s.blk with
      op := 0xF, errCode := .none, errVcause := 0, errStage := .none, ign := false, phase := .idle } } := by
  rw [← Block.abort_idle hbusy]; rfl

/-- Settles O23: phase by phase, the stage that an ABORT records. -/
theorem abortEndsRun : Obligations.AbortEndsRun := by
  intro x s
  simp only [List.mem_cons, List.not_mem_nil, or_false]
  refine ⟨fun e => ?_, ?_, ?_, exec_abort_idle x⟩
  · exact exec_abort_busy x (by rw [e]; rfl) (by rw [e]; rfl)
  · rintro (e | e | e | e) <;> exact exec_abort_busy x (by rw [e]; rfl) (by rw [e]; rfl)
  · rintro (e | e | e) <;> exact exec_abort_busy x (by rw [e]; rfl) (by rw [e]; rfl)

end Sys2Proof.Machine

/-! ## Once ready, the block stays ready (O49) -/

namespace Sys2Proof.Machine

/-- A block that is ready on IN is busy, and neither replays, nor takes a pixel, nor offers a byte. -/
theorem Block.inReady_excludes {b : Block} (hr : b.inReady = true) :
    b.phase.busy = true ∧ b.replayReady = false ∧ b.pinReady = false ∧ b.boutValid = false := by
  rcases b.inReady_iff.mp hr with e | e | ⟨e | e, hrpos, -⟩ <;>
    simp [Phase.busy, Block.replayReady, Block.pinReady, Block.boutValid, *]

/-- A block that is ready on PIN is busy, and neither replays, nor takes an IN word, nor offers a byte. -/
theorem Block.pinReady_excludes {b : Block} (hr : b.pinReady = true) :
    b.phase.busy = true ∧ b.replayReady = false ∧ b.inReady = false ∧ b.boutValid = false := by
  obtain ⟨e, hen⟩ := b.pinReady_iff.mp hr
  simp [Phase.busy, Block.replayReady, Block.inReady, Block.boutValid, e, hen]

/-- The host's take on POUT leaves a block that waits for IN waiting for it: in D_DRAIN none does. -/
theorem Block.poutTaken_inReady {b : Block} (hr : b.inReady = true) : b.poutTaken.inReady = true := by
  rw [Block.inReady_iff] at hr ⊢
  rcases hr with e | e | ⟨e | e, hrpos, -⟩ <;> simp [*]

/-- The host's take on POUT leaves a block that waits for PIN waiting for it. -/
theorem Block.poutTaken_pinReady {b : Block} (hr : b.pinReady = true) : b.poutTaken.pinReady = true := by
  rw [Block.pinReady_iff] at hr ⊢
  simp [hr]

/-- While a block waits for IN or PIN, a step that is no ABORT or reset is on the turn of one of the two, or keeps the readiness
on both. -/
theorem stepped_waiting {s : State} (hbusy : s.blk.phase.busy = true) (hreplay : s.blk.replayReady = false)
    (hbout : s.blk.boutValid = false) (hw : ¬ s.withdraws) :
    s.env.turns.head? = some (.port .inp) ∨ s.env.turns.head? = some (.port .pin)
    ∨ ((s.blk.inReady = true → (stepped s).blk.inReady = true)
      ∧ (s.blk.pinReady = true → (stepped s).blk.pinReady = true)) := by
  have heff := (step_effect (step_eq s)).1
  have hbus := fun hu => stepped_bus_turn_busy hu hbusy hw
  generalize hu : s.env.turns.head? = u at heff hbus ⊢
  generalize (stepped s).blk = b' at heff hbus ⊢
  cases heff with
  | same => exact .inr (.inr ⟨id, id⟩)
  | reset => exact absurd (.inl hu) hw
  | bus => obtain ⟨_, _, _, e⟩ := hbus rfl; rw [e]; exact .inr (.inr ⟨id, id⟩)
  | replay _ _ hr => rw [hreplay] at hr; cases hr
  | byte | eos => exact .inl rfl
  | pixel => exact .inr (.inl rfl)
  | pout => exact .inr (.inr ⟨Block.poutTaken_inReady, Block.poutTaken_pinReady⟩)
  | bout hv => rw [hbout] at hv; cases hv

/-- A block that is ready on IN stays so until an IN word is there on IN's turn, unless an ABORT or a reset ends the wait. -/
theorem inReady_stays {s : State} (hr : s.blk.inReady = true) :
    (stepped s).blk.inReady = true ∨ (s.env.turns.head? = some (.port .inp) ∧ s.env.inp ≠ []) ∨ s.withdraws := by
  obtain ⟨hbusy, hreplay, hpin, hbout⟩ := Block.inReady_excludes hr
  by_cases hw : s.withdraws
  · exact .inr (.inr hw)
  rcases stepped_waiting hbusy hreplay hbout hw with hu | hu | ⟨hkeeps, -⟩
  · rcases stepped_inp_turn hu with ⟨-, w, hq, -⟩ | ⟨-, -, e⟩
    · exact .inr (.inl ⟨hu, by simp [hq]⟩)
    · exact .inl (e ▸ hr)
  · rcases stepped_pin_turn hu with ⟨hr', -⟩ | ⟨-, -, e⟩
    · rw [hpin] at hr'; cases hr'
    · exact .inl (e ▸ hr)
  · exact .inl (hkeeps hr)

/-- A block that is ready on PIN stays so until a PIN word is there on PIN's turn, unless an ABORT or a reset ends the wait. -/
theorem pinReady_stays {s : State} (hr : s.blk.pinReady = true) :
    (stepped s).blk.pinReady = true ∨ (s.env.turns.head? = some (.port .pin) ∧ s.env.pin ≠ []) ∨ s.withdraws := by
  obtain ⟨hbusy, hreplay, hin, hbout⟩ := Block.pinReady_excludes hr
  by_cases hw : s.withdraws
  · exact .inr (.inr hw)
  rcases stepped_waiting hbusy hreplay hbout hw with hu | hu | ⟨-, hkeeps⟩
  · rcases stepped_inp_turn hu with ⟨hr', -⟩ | ⟨-, -, e⟩
    · rw [hin] at hr'; cases hr'
    · exact .inl (e ▸ hr)
  · rcases stepped_pin_turn hu with ⟨-, w, hq, -⟩ | ⟨-, -, e⟩
    · exact .inr (.inl ⟨hu, by simp [hq]⟩)
    · exact .inl (e ▸ hr)
  · exact .inl (hkeeps hr)

/-- Settles O49: `State.withdraws` is the statement's reset or ABORT. -/
theorem inReadyPersists : Obligations.InReadyPersists := by
  intro s t hstep
  obtain rfl := Host.Outcome.next.inj ((step_eq s).symm.trans hstep)
  exact ⟨fun hr => (inReady_stays hr).imp_right (.imp_right Or.symm),
    fun hr => (pinReady_stays hr).imp_right (.imp_right Or.symm)⟩

end Sys2Proof.Machine

/-! ## Reset (O42, O43, O45) -/

namespace Sys2Proof.Machine

/-- Every header byte is 0 after reset (70_reset_and_hazards.md R179). -/
theorem hdrAt_reset (i : Nat) : hdrAt Block.reset.hdr i = 0 := by
  by_cases hi : i < 54 <;> simp [hdrAt, Block.reset, hi]

/-- Settles O42: the step on a reset is `stepped_reset`, and the reset block's elements are what R179 lists. -/
theorem resetStep : Obligations.ResetStep := by
  intro s ts hts
  refine ⟨_, (step_eq s).trans (congrArg _ (stepped_reset hts)), rfl, rfl, fun a _ => hdrAt_reset a, ?_⟩
  repeat' apply And.intro
  all_goals rfl

/-- Each register of the map reads 0 in the reset block (R180). -/
theorem Block.regAt_reset (a : Byte) : Block.reset.regAt a = 0 := by
  unfold Block.regAt
  split <;> rfl

/-- Settles O43: a misaligned read gives 0 in every state, an aligned one what the map holds. -/
theorem resetRegistersReadZero : Obligations.ResetRegistersReadZero := by
  intro a
  refine exec_regRd ?_
  cases hal : aligned a with
  | false => exact Block.readReg_misaligned _ hal
  | true => exact (Block.readReg_aligned _ hal).trans (Block.regAt_reset a)

/-- Settles O45: the reset block is the base case of the invariant. -/
theorem resetMeetsInv : Obligations.ResetMeetsInv := Block.Inv.reset

end Sys2Proof.Machine
